-- ==== Sys2Proof/Word.lean ====
section
/-! DEFINITION. The words of the block: bytes and 32-bit words. -/

namespace Sys2Proof

/-- A byte (00_scope.md R11). -/
abbrev Byte := BitVec 8

/-- A 32-bit command word, response datum or register (30_encoding.md R110, R126). -/
abbrev Word := BitVec 32

end Sys2Proof
end

