-- ==== Sys2Proof/Syntax.lean ====
section
/-! DEFINITION. The nineteen commands with their operand fields (30_encoding.md R111 to R113). -/

namespace Sys2Proof

/-- One constructor per row of spec/opcode_table.json. Every operand is an unsigned field of the width
its format gives it (30_encoding.md R111, R112). -/
inductive Instr where
  /-- FBCLR, opcode 0x01, format Z (R151). -/
  | fbclr
  /-- FBPUSH n, d, opcode 0x02, format P (R152). -/
  | fbpush (n : BitVec 4) (d : Byte)
  /-- EXTF cnt, off, opcode 0x10, format X (R162). -/
  | extf (cnt off : BitVec 12)
  /-- EXTM cnt, off, opcode 0x11, format X (R163). -/
  | extm (cnt off : BitVec 12)
  /-- CRC8 count, poly, init, opcode 0x12, format T (R167). -/
  | crc8 (count poly init : Byte)
  /-- CKSUM count, opcode 0x13, format C (R171). -/
  | cksum (count : Byte)
  /-- XORF count, opcode 0x14, format C (R174). -/
  | xorf (count : Byte)
  /-- FINDP hi, lo, win, opcode 0x15, format T (R191). -/
  | findp (hi lo win : Byte)
  /-- MAND pre, nout, opcode 0x16, format X (R196). -/
  | mand (pre nout : BitVec 12)
  /-- MANDI pre, nout, opcode 0x17, format X (R197). -/
  | mandi (pre nout : BitVec 12)
  /-- DECC, opcode 0x20, format Z (R213). -/
  | decc
  /-- DECX, opcode 0x21, format Z (R223). -/
  | decx
  /-- DECM, opcode 0x22, format Z (R232). -/
  | decm
  /-- DISP, opcode 0x2F, format Z (R251). -/
  | disp
  /-- QADD, opcode 0x30, format Z (R263). -/
  | qadd
  /-- QDUE, opcode 0x31, format Z (R271). -/
  | qdue
  /-- QSIZE, opcode 0x32, format Z (R278). -/
  | qsize
  /-- CSRR a, opcode 0x40, format C (R301). -/
  | csrr (a : Byte)
  /-- CSRW a, imm16, opcode 0x41, format W (R303). -/
  | csrw (a : Byte) (imm : BitVec 16)
deriving DecidableEq, Repr

end Sys2Proof
end

