-- ==== Sys2Proof/Decode.lean ====
section
/-! DEFINITION. Command words: the opcode map of 30_encoding.md R113, the decoder (total, refusing by
name, R114, R120, R121) and the encoder. -/

namespace Sys2Proof

/-- The six formats (30_encoding.md R111). -/
inductive Format where
  | z | p | x | t | c | w
deriving DecidableEq, Repr

/-- One row of the opcode map (30_encoding.md R113). -/
structure OpcodeRow where
  mnemonic : String
  format : Format
  pattern : Word
  mask : Word
deriving DecidableEq, Repr

/-- The opcode map, in the order of 30_encoding.md R113. -/
def opcodeRows : List OpcodeRow :=
  [ ⟨"FBCLR", .z, 0x01000000, 0xFFFFFFFF⟩,
    ⟨"FBPUSH", .p, 0x02000000, 0xFFFFF000⟩,
    ⟨"EXTF", .x, 0x10000000, 0xFF000000⟩,
    ⟨"EXTM", .x, 0x11000000, 0xFF000000⟩,
    ⟨"CRC8", .t, 0x12000000, 0xFF000000⟩,
    ⟨"CKSUM", .c, 0x13000000, 0xFF00FFFF⟩,
    ⟨"XORF", .c, 0x14000000, 0xFF00FFFF⟩,
    ⟨"FINDP", .t, 0x15000000, 0xFF000000⟩,
    ⟨"MAND", .x, 0x16000000, 0xFF000000⟩,
    ⟨"MANDI", .x, 0x17000000, 0xFF000000⟩,
    ⟨"DECC", .z, 0x20000000, 0xFFFFFFFF⟩,
    ⟨"DECX", .z, 0x21000000, 0xFFFFFFFF⟩,
    ⟨"DECM", .z, 0x22000000, 0xFFFFFFFF⟩,
    ⟨"DISP", .z, 0x2F000000, 0xFFFFFFFF⟩,
    ⟨"QADD", .z, 0x30000000, 0xFFFFFFFF⟩,
    ⟨"QDUE", .z, 0x31000000, 0xFFFFFFFF⟩,
    ⟨"QSIZE", .z, 0x32000000, 0xFFFFFFFF⟩,
    ⟨"CSRR", .c, 0x40000000, 0xFF00FFFF⟩,
    ⟨"CSRW", .w, 0x41000000, 0xFF000000⟩ ]

/-- "A word W is the command exactly when (W and mask) = match" (30_encoding.md R113). -/
def OpcodeRow.Matches (r : OpcodeRow) (w : Word) : Bool := w &&& r.mask == r.pattern

/-- The mnemonic of a command, as R113 and spec/opcode_table.json spell it. -/
def mnemonicOf : Instr → String
  | .fbclr => "FBCLR"
  | .fbpush _ _ => "FBPUSH"
  | .extf _ _ => "EXTF"
  | .extm _ _ => "EXTM"
  | .crc8 _ _ _ => "CRC8"
  | .cksum _ => "CKSUM"
  | .xorf _ => "XORF"
  | .findp _ _ _ => "FINDP"
  | .mand _ _ => "MAND"
  | .mandi _ _ => "MANDI"
  | .decc => "DECC"
  | .decx => "DECX"
  | .decm => "DECM"
  | .disp => "DISP"
  | .qadd => "QADD"
  | .qdue => "QDUE"
  | .qsize => "QSIZE"
  | .csrr _ => "CSRR"
  | .csrw _ _ => "CSRW"

/-- Why a word is an illegal command (30_encoding.md R120). -/
inductive IllegalWord where
  /-- (a) an opcode byte that is not in R113. -/
  | undefinedOpcode
  /-- (b) a defined opcode with a nonzero must-be-zero bit (R121). -/
  | mustBeZero
deriving DecidableEq, Repr

/-- CMD[31:24], the opcode (30_encoding.md R110). -/
def opcodeOf (w : Word) : Byte := w.extractLsb' 24 8

/-- Format Z: CMD[23:0] = 0. -/
def formatZ (w : Word) (i : Instr) : Except IllegalWord Instr :=
  if w.extractLsb' 0 24 = 0#24 then .ok i else .error .mustBeZero

/-- Format P: CMD[23:12] = 0, n = CMD[11:8], d = CMD[7:0]. -/
def formatP (w : Word) (i : BitVec 4 → Byte → Instr) : Except IllegalWord Instr :=
  if w.extractLsb' 12 12 = 0#12 then .ok (i (w.extractLsb' 8 4) (w.extractLsb' 0 8)) else .error .mustBeZero

/-- Format X: hi12 = CMD[23:12], lo12 = CMD[11:0]. -/
def formatX (w : Word) (i : BitVec 12 → BitVec 12 → Instr) : Except IllegalWord Instr :=
  .ok (i (w.extractLsb' 12 12) (w.extractLsb' 0 12))

/-- Format T: a = CMD[23:16], b = CMD[15:8], c = CMD[7:0]. -/
def formatT (w : Word) (i : Byte → Byte → Byte → Instr) : Except IllegalWord Instr :=
  .ok (i (w.extractLsb' 16 8) (w.extractLsb' 8 8) (w.extractLsb' 0 8))

/-- Format C: a = CMD[23:16], CMD[15:0] = 0. -/
def formatC (w : Word) (i : Byte → Instr) : Except IllegalWord Instr :=
  if w.extractLsb' 0 16 = 0#16 then .ok (i (w.extractLsb' 16 8)) else .error .mustBeZero

/-- Format W: a = CMD[23:16], imm16 = CMD[15:0]. -/
def formatW (w : Word) (i : Byte → BitVec 16 → Instr) : Except IllegalWord Instr :=
  .ok (i (w.extractLsb' 16 8) (w.extractLsb' 0 16))

/-- The decoder: one of the nineteen commands with its operand fields, or why the word is illegal
(30_encoding.md R113, R114, R120). -/
def decode (w : Word) : Except IllegalWord Instr :=
  match opcodeOf w with
  | 0x01#8 => formatZ w .fbclr
  | 0x02#8 => formatP w .fbpush
  | 0x10#8 => formatX w .extf
  | 0x11#8 => formatX w .extm
  | 0x12#8 => formatT w .crc8
  | 0x13#8 => formatC w .cksum
  | 0x14#8 => formatC w .xorf
  | 0x15#8 => formatT w .findp
  | 0x16#8 => formatX w .mand
  | 0x17#8 => formatX w .mandi
  | 0x20#8 => formatZ w .decc
  | 0x21#8 => formatZ w .decx
  | 0x22#8 => formatZ w .decm
  | 0x2F#8 => formatZ w .disp
  | 0x30#8 => formatZ w .qadd
  | 0x31#8 => formatZ w .qdue
  | 0x32#8 => formatZ w .qsize
  | 0x40#8 => formatC w .csrr
  | 0x41#8 => formatW w .csrw
  | _ => .error .undefinedOpcode

/-- A word of format Z: the opcode in CMD[31:24], the rest 0 (30_encoding.md R111, R140). -/
def wordZ (op : Byte) : Word := BitVec.ofNat 32 (op.toNat * 0x1000000)

/-- A word of format P: n in CMD[11:8], d in CMD[7:0]. -/
def wordP (op : Byte) (n : BitVec 4) (d : Byte) : Word :=
  BitVec.ofNat 32 (op.toNat * 0x1000000 + n.toNat * 0x100 + d.toNat)

/-- A word of format X: hi12 in CMD[23:12], lo12 in CMD[11:0]. -/
def wordX (op : Byte) (hi lo : BitVec 12) : Word :=
  BitVec.ofNat 32 (op.toNat * 0x1000000 + hi.toNat * 0x1000 + lo.toNat)

/-- A word of format T: a in CMD[23:16], b in CMD[15:8], c in CMD[7:0]. -/
def wordT (op a b c : Byte) : Word :=
  BitVec.ofNat 32 (op.toNat * 0x1000000 + a.toNat * 0x10000 + b.toNat * 0x100 + c.toNat)

/-- A word of format C: a in CMD[23:16], CMD[15:0] = 0. -/
def wordC (op a : Byte) : Word := BitVec.ofNat 32 (op.toNat * 0x1000000 + a.toNat * 0x10000)

/-- A word of format W: a in CMD[23:16], imm16 in CMD[15:0]. -/
def wordW (op a : Byte) (imm : BitVec 16) : Word :=
  BitVec.ofNat 32 (op.toNat * 0x1000000 + a.toNat * 0x10000 + imm.toNat)

/-- The command word of a command (30_encoding.md R111, R113). -/
def encode : Instr → Word
  | .fbclr => wordZ 0x01
  | .fbpush n d => wordP 0x02 n d
  | .extf cnt off => wordX 0x10 cnt off
  | .extm cnt off => wordX 0x11 cnt off
  | .crc8 count poly init => wordT 0x12 count poly init
  | .cksum count => wordC 0x13 count
  | .xorf count => wordC 0x14 count
  | .findp hi lo win => wordT 0x15 hi lo win
  | .mand pre nout => wordX 0x16 pre nout
  | .mandi pre nout => wordX 0x17 pre nout
  | .decc => wordZ 0x20
  | .decx => wordZ 0x21
  | .decm => wordZ 0x22
  | .disp => wordZ 0x2F
  | .qadd => wordZ 0x30
  | .qdue => wordZ 0x31
  | .qsize => wordZ 0x32
  | .csrr a => wordC 0x40 a
  | .csrw a imm => wordW 0x41 a imm

/-- The instruction the decoder reads from an instruction whose bits are `w`, numbered as
spec/opcode_table.json numbers them; none where it refuses, or where the bits are no 32-bit word. -/
def decodeTableWord (nbits w : Nat) : Option Instr :=
  let bits := w % 2 ^ nbits
  if bits < 2 ^ 32 then
    match decode (BitVec.ofNat 32 bits) with
    | .ok i => some i
    | .error _ => none
  else none

end Sys2Proof
end

