-- ==== Sys2Proof/Config.lean ====
section
/-! DEFINITION. The implementation parameters of 00_scope.md R6, fixed when the block is built. -/

namespace Sys2Proof

/-- The three frame formats (00_scope.md §5, 10_state.md R45). -/
inductive Variant where
  | classic
  | ext
  | man
deriving DecidableEq, Repr

/-- TIME_BITS, the width of NOW and of next_send_time (00_scope.md R6): the one place that gives it, read by
the type `Time` and by the row of `Params`. An abbreviation, so that the width of a time is a numeral. -/
abbrev Config.timeBits : Nat := 32

/-- A time in seconds, TIME_BITS wide (00_scope.md R6, 10_state.md R34). -/
abbrev Time := BitVec Config.timeBits

/-- The parameter table of 00_scope.md R6 as one record, a field for each row. `manPairTenIsOne` is the base
convention of `manchesterDecode`, which 93_implementation_defined.md U5 asks a model to hold as a
configuration item: true when the pair 1-then-0 decodes to 1. -/
structure Params where
  capacity : Nat
  fbMaxBits : Nat
  mbMaxBits : Nat
  xbBytes : Nat
  timeBits : Nat
  classicLen : Nat
  classicSyncBits : Nat
  classicSyncCheck : Bool
  classicSyncValue : BitVec 4
  crcPoly : Byte
  crcInit : Byte
  extMinLen : Nat
  extMarkerHi : Byte
  extMarkerLo : Byte
  extSearchWindow : Nat
  extPayloadSkip : Nat
  manPreambleBits : Nat
  manPreamble : BitVec 36
  manPayloadBits : Nat
  manLen : Nat
  manInvert : Bool
  manPairTenIsOne : Bool
  dispatchOrder : List Variant
  rstInterval : BitVec 16
  rstMaxRetx : Byte
deriving DecidableEq, Repr

namespace Config

/-- CLASSIC_SYNC_VALUE: OPEN, no source gives it (00_scope.md R6, log 4). -/
opaque classicSyncValue : BitVec 4

/-- EXT_MARKER_HI: OPEN, no source gives it (00_scope.md R6, log 4). -/
opaque extMarkerHi : Byte

/-- EXT_MARKER_LO: OPEN, no source gives it (00_scope.md R6, log 4). -/
opaque extMarkerLo : Byte

/-- MAN_PREAMBLE: OPEN, no source gives it (00_scope.md R6, log 4). -/
opaque manPreamble : BitVec 36

/-- The table of 00_scope.md R6 with given values for the four OPEN parameters. -/
def withOpen (sync : BitVec 4) (markerHi markerLo : Byte) (preamble : BitVec 36) : Params where
  capacity := 12
  fbMaxBits := 256
  mbMaxBits := 128
  xbBytes := 32
  timeBits := timeBits
  classicLen := 68
  classicSyncBits := 4
  classicSyncCheck := false
  classicSyncValue := sync
  crcPoly := 0x07
  crcInit := 0xF0
  extMinLen := 80
  extMarkerHi := markerHi
  extMarkerLo := markerLo
  extSearchWindow := 161
  extPayloadSkip := 16
  manPreambleBits := 36
  manPreamble := preamble
  manPayloadBits := 39
  manLen := 114
  manInvert := true
  manPairTenIsOne := true
  dispatchOrder := [.classic, .ext, .man]
  rstInterval := 30
  rstMaxRetx := 2

/-- The parameters of the block: the table of 00_scope.md R6 with the OPEN values left open. -/
def params : Params := withOpen classicSyncValue extMarkerHi extMarkerLo manPreamble

end Config

/-- The constraints between parameters that the rules rely on (00_scope.md R8). -/
abbrev Params.Consistent (p : Params) : Prop :=
  p.manLen ≤ p.fbMaxBits ∧ p.classicLen ≤ p.fbMaxBits ∧ p.manPayloadBits ≤ p.mbMaxBits ∧
  p.fbMaxBits ≤ p.xbBytes * 8 ∧ p.extSearchWindow ≤ 255 ∧ p.capacity ≤ 12

end Sys2Proof
end

