-- ==== Sys2Proof/Machine/State.lean ====
section
/-! DEFINITION. The state of the block (10_state.md), its ports (R31) and the reset state (R59). -/

namespace Sys2Proof.Machine

/-- The source's `integrity`, "which check, if any, validated this reading" (10_state.md R43, R45). -/
inductive Integrity where
  | unchecked
  | crc
  | checksum
deriving DecidableEq, Repr

/-- RES, the decoded reading (10_state.md R45). -/
structure Reading where
  valid : Bool
  variant : Variant
  integrity : Integrity
  id : Word
  flags : Word
  press : BitVec 10
  temp : Byte
  tempValid : Bool
  mic : Byte
  diag : Byte
  parityRx : BitVec 2
deriving DecidableEq, Repr

/-- The all-zero record: RES after reset and after a failed decode (10_state.md R44, R59). -/
def Reading.zero : Reading where
  valid := false
  variant := .classic
  integrity := .unchecked
  id := 0
  flags := 0
  press := 0
  temp := 0
  tempValid := false
  mic := 0
  diag := 0
  parityRx := 0

/-- One element of the queue (10_state.md R48, R52). -/
structure Entry where
  id : Word
  flags : Word
  press : BitVec 10
  temp : Byte
  mic : Byte
  next : Time
  count : BitVec 16
deriving DecidableEq, Repr

/-- The transmit registers TX, TX_ID, TX_NEXT, TX_COUNT, TX_VALID, TX_EVICTED (10_state.md R42, R55).
`frame` has fifteen bytes, byte 0 first. -/
structure Transmit where
  frame : List Byte
  id : Word
  next : Time
  count : BitVec 16
  valid : Bool
  evicted : Bool
deriving DecidableEq, Repr

/-- The transmit registers all 0: after reset and after a QDUE that found nothing due (R56, R271). -/
def Transmit.zero : Transmit where
  frame := List.replicate 15 0
  id := 0
  next := 0
  count := 0
  valid := false
  evicted := false

/-- The outcome codes (60_exceptions.md R311); codes 11 to 14 are never produced (U21). -/
inductive Code where
  | ok
  | abortLength
  | failSanity
  | failMic
  | noMatch
  | queueFull
  | noneDue
  | notFound
  | manViolation
  | noReading
  | badOperand
  | illegalCmd
deriving DecidableEq, Repr

/-- RSP_CODE and RSP_DATA (30_encoding.md R126). -/
structure Response where
  code : Code
  data : Word
deriving DecidableEq, Repr

/-- What the host drives on the input ports at one moment (10_state.md R31). -/
structure PortSample where
  reset : Bool
  cmdValid : Bool
  cmd : Word
  now : Time
  rspReady : Bool
deriving DecidableEq, Repr

/-- The state of the block, and below it the model's own fields for the ports (log 1). -/
structure State where
  /-- FB; FB_LEN is its length (R36). -/
  fb : List Bool
  /-- MB; MB_LEN is its length (R37). -/
  mb : List Bool
  /-- XB, thirty-two bytes (R38). -/
  xb : List Byte
  /-- XB_CNT (R38). -/
  xbCnt : BitVec 6
  /-- ACC (R39). -/
  acc : Byte
  /-- POS (R40). -/
  pos : Byte
  /-- FOUND (R40, R42). -/
  found : Bool
  /-- RES; RES_VALID is its field `valid` (R45). -/
  res : Reading
  /-- INTERVAL (R47). -/
  interval : BitVec 16
  /-- MAX_RETX (R47). -/
  maxRetx : Byte
  /-- Q in storage order; QSIZE is its length (R52). -/
  q : List Entry
  /-- The transmit registers (R55). -/
  tx : Transmit
  /-- NOW as sampled when the last command was accepted (R31, R34). -/
  now : Time
  /-- The response not yet taken; RSP_VALID is 1 and CMD_READY 0 while there is one (R31). -/
  rsp : Option Response
  /-- The samples of the input ports still to come. -/
  input : List PortSample
deriving DecidableEq, Repr

/-- The reset state (10_state.md R59). -/
def State.reset : State where
  fb := []
  mb := []
  xb := List.replicate Config.params.xbBytes 0
  xbCnt := 0
  acc := 0
  pos := 0
  found := false
  res := .zero
  interval := Config.params.rstInterval
  maxRetx := Config.params.rstMaxRetx
  q := []
  tx := .zero
  now := 0
  rsp := none
  input := []

/-- The block has no fault: "There are no fatal errors in the core" and every accepted command ends in a
response (60_exceptions.md R310). No constructor, so nothing raises one. -/
inductive Fault where
deriving DecidableEq, Repr

/-- Why the model has no meaning for an instruction. -/
inductive Refusal where
  /-- Raised by an arm of `exec` whose instruction has no meaning yet; no arm does. Safe: the machine
  stops where the block would go on. -/
  | notModelled (mnemonic : String)
deriving DecidableEq, Repr

end Sys2Proof.Machine
end

