-- ==== Sys2Proof/Machine/Flags.lean ====
section
/-! DEFINITION. The four status flags (10_state.md R42) and the codes by which software sees the tags and
outcomes. -/

namespace Sys2Proof.Machine

/-- RES_VALID: written by DECC, DECX, DECM and DISP (R42). -/
def State.resValid (s : State) : Bool := s.res.valid

/-- TX_VALID: written by QDUE (R42). -/
def State.txValid (s : State) : Bool := s.tx.valid

/-- TX_EVICTED: written by QDUE (R42). -/
def State.txEvicted (s : State) : Bool := s.tx.evicted

/-- CSR STATUS: bit 0 RES_VALID, bit 1 FOUND, bit 2 TX_VALID, bit 3 TX_EVICTED, the rest 0
(20_memory.md R89). -/
def statusWord (s : State) : Word :=
  0#28 ++ BitVec.ofBool s.txEvicted ++ BitVec.ofBool s.txValid ++ BitVec.ofBool s.found ++ BitVec.ofBool s.resValid

/-- RES.VARIANT: 0 CLASSIC, 1 EXT, 2 MAN (10_state.md R45). -/
def variantCode : Variant → BitVec 2
  | .classic => 0
  | .ext => 1
  | .man => 2

/-- RES.INTEGRITY: 0 NONE, 1 CRC, 2 CHECKSUM (10_state.md R45). -/
def integrityCode : Integrity → BitVec 2
  | .unchecked => 0
  | .crc => 1
  | .checksum => 2

/-- The number of an outcome code on RSP_CODE (60_exceptions.md R311). -/
def codeNumber : Code → BitVec 4
  | .ok => 0
  | .abortLength => 1
  | .failSanity => 2
  | .failMic => 3
  | .noMatch => 4
  | .queueFull => 5
  | .noneDue => 6
  | .notFound => 7
  | .manViolation => 8
  | .noReading => 9
  | .badOperand => 10
  | .illegalCmd => 15

end Sys2Proof.Machine
end

