-- ==== Sys2Proof/Machine/Bits.lean ====
section
/-! DEFINITION. Bit sequences, their values, and how bits lie in bytes and words (00_scope.md R9 to R11,
20_memory.md R82 to R87). -/

namespace Sys2Proof.Machine

/-- The unsigned integer whose binary numeral, most significant bit first, is the sequence (R9, R83). -/
def val : List Bool → Nat
  | [] => 0
  | b :: bs => b.toNat * 2 ^ bs.length + val bs

/-- `s[a ..+ n]` (R9), cut short where the sequence ends. -/
def slice (s : List Bool) (a n : Nat) : List Bool := (s.drop a).take n

/-- `val(s, a, n)` (R9). -/
def valAt (s : List Bool) (a n : Nat) : Nat := val (slice s a n)

/-- The bits of a byte, bit 7 first (R11). -/
def byteBits (b : Byte) : List Bool := (List.range 8).map fun t => b.getLsbD (7 - t)

/-- `bits(B)`: byte 0 first, inside a byte the most significant bit first (R11). -/
def bitsOf (B : List Byte) : List Bool := B.flatMap byteBits

/-- Eight bits of `s` from index `8j`, the first in bit 7, absent bits 0 (R85). -/
def packByte (s : List Bool) (j : Nat) : Byte :=
  BitVec.ofNat 8 (val ((List.range 8).map fun t => s.getD (8 * j + t) false))

/-- The sequence left-justified in ⌈len/8⌉ bytes, the final partial byte padded with zeros (R85). -/
def packBytes (s : List Bool) : List Byte := (List.range ((s.length + 7) / 8)).map (packByte s)

/-- Word `w` of the CSR window on a bit buffer: `s[32w + t]` at bit `31 - t`, 0 beyond the end (R87, R90). -/
def bitWindow (s : List Bool) (w : Nat) : Word :=
  BitVec.ofNat 32 (val ((List.range 32).map fun t => s.getD (32 * w + t) false))

/-- Word `w` of the CSR window on a byte buffer: `B[4w] ‖ B[4w+1] ‖ B[4w+2] ‖ B[4w+3]`, 0 beyond the
end (R86). -/
def byteWindow (B : List Byte) (w : Nat) : Word :=
  B.getD (4 * w) 0 ++ B.getD (4 * w + 1) 0 ++ B.getD (4 * w + 2) 0 ++ B.getD (4 * w + 3) 0

end Sys2Proof.Machine
end

