-- ==== Sys2Proof/Machine/Operands.lean ====
section
/-! DEFINITION. The operand forms of the commands (30_encoding.md R112): a group of bits to append, a bit
range of a buffer, a prefix of XB, a CSR address. -/

namespace Sys2Proof.Machine

/-- FBPUSH's `n` is legal when it is 1 to 8 (40_frame_buffer.md R152). -/
def pushCountLegal (n : Nat) : Bool := 1 ≤ n && n ≤ 8

/-- The bits FBPUSH appends: `d[7], d[6], …, d[8-n]` in that order (30_encoding.md R112). -/
def pushBits (n : Nat) (d : Byte) : List Bool := (byteBits d).take n

/-- A read of `cnt` bits at offset `off` is permitted only when it ends inside the sequence
(20_memory.md R96). -/
def rangeFits (s : List Bool) (off cnt : Nat) : Bool := off + cnt ≤ s.length

/-- CRC8, CKSUM and XORF may read no more than XB_CNT bytes (60_exceptions.md R315). -/
def xbHolds (s : State) (count : Nat) : Bool := count ≤ s.xbCnt.toNat

/-- The slot a queue-window address `0x40 + 16·i + j` names (20_memory.md R92). -/
def windowSlot (a : Nat) : Nat := (a - 0x40) / 16

/-- The field a queue-window address `0x40 + 16·i + j` names (20_memory.md R92). -/
def windowField (a : Nat) : Nat := a % 16

end Sys2Proof.Machine
end

