-- ==== Sys2Proof/Machine/Ops.lean ====
section
/-! DEFINITION. The named operations: ending a command with a response, writing each destination whole,
reading a CSR, and the handshake on the ports. -/

namespace Sys2Proof.Machine

/-- What a command gives. -/
abbrev Result := Host.Outcome State Fault Refusal

/-! ## Ending a command -/

/-- `respond(code, data)`: the response of the accepted command (00_scope.md R12, 60_exceptions.md R310).
A failure is a response whose code is not OK; there is no trap to take and none to return from. -/
def respond (s : State) (c : Code) (d : Word) : State := { s with rsp := some ⟨c, d⟩ }

/-- A command word that is no command: ILLEGAL_CMD, data 0, no state changes (30_encoding.md R120). -/
def answerIllegal (s : State) : State := respond s .illegalCmd 0

/-! ## Destinations, each written whole (10_state.md R62) -/

/-- FB and FB_LEN (R36). -/
def State.setFb (s : State) (bits : List Bool) : State := { s with fb := bits }

/-- MB and MB_LEN (R37). -/
def State.setMb (s : State) (bits : List Bool) : State := { s with mb := bits }

/-- XB and XB_CNT: the bytes given, then zeros to the end of the buffer (R38, 41_bit_utilities.md R162). -/
def State.setXb (s : State) (bytes : List Byte) : State :=
  { s with
    xb := (bytes ++ List.replicate Config.params.xbBytes 0).take Config.params.xbBytes
    xbCnt := BitVec.ofNat 6 bytes.length }

/-- ACC (R39). -/
def State.setAcc (s : State) (v : Byte) : State := { s with acc := v }

/-- FOUND and POS for a match at offset `k` (R40). -/
def State.setFound (s : State) (k : Nat) : State := { s with found := true, pos := BitVec.ofNat 8 k }

/-- FOUND and POS for "not found" (R40). -/
def State.clearFound (s : State) : State := { s with found := false, pos := 0 }

/-- RES (R44). -/
def State.setRes (s : State) (r : Reading) : State := { s with res := r }

/-- Q and QSIZE (R52). -/
def State.setQ (s : State) (q : List Entry) : State := { s with q := q }

/-- The transmit registers (R55). -/
def State.setTx (s : State) (t : Transmit) : State := { s with tx := t }

/-- INTERVAL (R47). -/
def State.setInterval (s : State) (v : BitVec 16) : State := { s with interval := v }

/-- MAX_RETX (R47). -/
def State.setMaxRetx (s : State) (v : Byte) : State := { s with maxRetx := v }

/-! ## Length registers -/

/-- FB_LEN as a register value (R36). -/
def State.fbLen (s : State) : Word := BitVec.ofNat 32 s.fb.length

/-- MB_LEN as a register value (R37). -/
def State.mbLen (s : State) : Word := BitVec.ofNat 32 s.mb.length

/-- XB_CNT as a register value (R38). -/
def State.xbCount (s : State) : Word := s.xbCnt.setWidth 32

/-- QSIZE as a register value (R52). -/
def State.qSize (s : State) : Word := BitVec.ofNat 32 s.q.length

/-! ## The CSR space -/

/-- RES_META: [1:0] VARIANT, [3:2] INTEGRITY, [7:4] 0, [15:8] MIC, [23:16] DIAG, [25:24] PARITY_RX
(20_memory.md R88). -/
def resMeta (r : Reading) : Word :=
  0#6 ++ r.parityRx ++ r.diag ++ r.mic ++ 0#4 ++ integrityCode r.integrity ++ variantCode r.variant

/-- RES_TEMP: [7:0] TEMP, [8] TEMP_VALID (20_memory.md R88). -/
def resTemp (r : Reading) : Word := 0#23 ++ BitVec.ofBool r.tempValid ++ r.temp

/-- Field `j` of a queue slot that holds `e`; none for the unimplemented j = 8..15 (20_memory.md R92). -/
def slotField (e : Entry) : Nat → Option Word
  | 0 => some e.id
  | 1 => some e.flags
  | 2 => some (e.press.setWidth 32)
  | 3 => some (e.temp.setWidth 32)
  | 4 => some (e.mic.setWidth 32)
  | 5 => some (e.next.setWidth 32)
  | 6 => some (e.count.setWidth 32)
  | 7 => some 1
  | _ => none

/-- The queue window: an empty slot reads 0 in all eight fields (20_memory.md R92, R93). -/
def queueWindow (q : List Entry) (i j : Nat) : Option Word :=
  match q[i]? with
  | some e => slotField e j
  | none => if j < 8 then some 0 else none

/-- `csr_read(a)` for every implemented address; none for the unimplemented ones (20_memory.md R88 to
R93). -/
def csrRead (s : State) (a : Byte) : Option Word :=
  match a.toNat with
  | 0x00 => some (statusWord s)
  | 0x01 => some (s.interval.setWidth 32)
  | 0x02 => some (s.maxRetx.setWidth 32)
  | 0x03 => some s.qSize
  | 0x04 => some s.fbLen
  | 0x05 => some s.mbLen
  | 0x06 => some s.xbCount
  | 0x07 => some (s.acc.setWidth 32)
  | 0x08 => some (s.pos.setWidth 32)
  | 0x09 => some (BitVec.ofNat 32 Config.params.capacity)
  | 0x10 => some s.res.id
  | 0x11 => some s.res.flags
  | 0x12 => some (s.res.press.setWidth 32)
  | 0x13 => some (resTemp s.res)
  | 0x14 => some (resMeta s.res)
  | 0x1C => some s.tx.id
  | 0x1D => some (s.tx.next.setWidth 32)
  | 0x1E => some (s.tx.count.setWidth 32)
  | n =>
    if 0x18 ≤ n ∧ n ≤ 0x1B then some (byteWindow s.tx.frame (n - 0x18))
    else if 0x20 ≤ n ∧ n ≤ 0x27 then some (byteWindow s.xb (n - 0x20))
    else if 0x28 ≤ n ∧ n ≤ 0x2F then some (bitWindow s.fb (n - 0x28))
    else if 0x30 ≤ n ∧ n ≤ 0x33 then some (bitWindow s.mb (n - 0x30))
    else if 0x40 ≤ n then queueWindow s.q (windowSlot n) (windowField n)
    else none

/-! ## The ports (10_state.md R31) -/

/-- CMD_READY: 0 from the acceptance of a command until its response has been taken. -/
def State.cmdReady (s : State) : Bool := s.rsp.isNone

/-- RSP_VALID. -/
def State.rspValid (s : State) : Bool := s.rsp.isSome

/-- The state after one sample of the input ports, if nothing happens. -/
def nextSample (s : State) (rest : List PortSample) : State := { s with input := rest }

/-- RESET is asserted: every register takes its reset value, a command presented or executed at that
moment is abandoned without a response (10_state.md R59), and the host's later samples stand. -/
def resetBlock (rest : List PortSample) : State := { State.reset with input := rest }

/-- The response is taken (10_state.md R31). -/
def takeResponse (s : State) : State := { s with rsp := none }

/-- NOW is sampled once, when the command is accepted (10_state.md R34). -/
def sampleNow (s : State) (now : Time) : State := { s with now := now }

/-- The sample in which a host offers a command. -/
def offerSample (cmd : Word) (now : Time) : PortSample := ⟨false, true, cmd, now, false⟩

/-- The sample in which a host takes a response. -/
def takeSample : PortSample := ⟨false, false, 0, 0, true⟩

/-- The samples by which a host issues a program, a finite list of (CMD, NOW) pairs, first to last
(10_state.md R33): offer a command, take its response, offer the next. -/
def present (program : List (Word × Time)) : List PortSample :=
  program.flatMap fun c => [offerSample c.1 c.2, takeSample]

end Sys2Proof.Machine
end

