-- ==== Sys2Proof/Machine/BitUtilities.lean ====
section
/-! DEFINITION. extract, crc8, checksum, xorFold and EXTF, EXTM, CRC8, CKSUM, XORF
(41_bit_utilities.md). -/

namespace Sys2Proof.Machine

/-- `extract(s, off, cnt)`; none is FAIL (R160). -/
def extract (s : List Bool) (off cnt : Nat) : Option (List Byte) :=
  if rangeFits s off cnt then some (packBytes (slice s off cnt)) else none

/-- One of the eight steps of R166: shift left, and subtract the divisor when bit 7 was shifted out. -/
def crcShift (poly c : Byte) : Byte := if c.getLsbD 7 then (c <<< 1) ^^^ poly else c <<< 1

/-- One byte taken in by the CRC register (R166). -/
def crcByte (poly c b : Byte) : Byte := (crcShift poly)^[8] (c ^^^ b)

/-- `crc8(B, count, poly, init)` (R166). -/
def crc8 (B : List Byte) (count : Nat) (poly init : Byte) : Byte := (B.take count).foldl (crcByte poly) init

/-- `checksum(B, count)`: the sum modulo 256 (R170). -/
def checksum (B : List Byte) (count : Nat) : Byte := BitVec.ofNat 8 ((B.take count).map BitVec.toNat).sum

/-- `xorFold(B, count)` (R173). -/
def xorFold (B : List Byte) (count : Nat) : Byte := (B.take count).foldl (· ^^^ ·) 0

/-- EXTF and EXTM: extract from a bit buffer into XB; a range that does not fit clears XB (R162). -/
def extractIntoXb (s : State) (source : List Bool) (off cnt : Nat) : Result :=
  match extract source off cnt with
  | none => .next (respond (s.setXb []) .abortLength 0)
  | some bytes =>
    let t := s.setXb bytes
    .next (respond t .ok t.xbCount)

/-- CRC8, CKSUM and XORF: a byte function of XB into ACC; too long a prefix clears ACC (R167). -/
def foldIntoAcc (s : State) (count : Nat) (f : List Byte → Nat → Byte) : Result :=
  if xbHolds s count then
    let t := s.setAcc (f s.xb count)
    .next (respond t .ok (t.acc.setWidth 32))
  else .next (respond (s.setAcc 0) .abortLength 0)

/-- EXTF cnt, off (R162). -/
def execExtf (cnt off : BitVec 12) (s : State) : Result := extractIntoXb s s.fb off.toNat cnt.toNat

/-- EXTM cnt, off (R163). -/
def execExtm (cnt off : BitVec 12) (s : State) : Result := extractIntoXb s s.mb off.toNat cnt.toNat

/-- CRC8 count, poly, init (R167). -/
def execCrc8 (count poly init : Byte) (s : State) : Result :=
  foldIntoAcc s count.toNat fun B n => crc8 B n poly init

/-- CKSUM count (R171). -/
def execCksum (count : Byte) (s : State) : Result := foldIntoAcc s count.toNat checksum

/-- XORF count (R174). -/
def execXorf (count : Byte) (s : State) : Result := foldIntoAcc s count.toNat xorFold

end Sys2Proof.Machine
end

