-- ==== Sys2Proof/Machine/CsrAccess.lean ====
section
/-! DEFINITION. CSRR, CSRW (46_csr_access.md). -/

namespace Sys2Proof.Machine

/-- CSRR a (R301). -/
def execCsrr (a : Byte) (s : State) : Result :=
  match csrRead s a with
  | none => .next (respond s .badOperand 0)
  | some v => .next (respond s .ok v)

/-- CSRW a, imm16 (R303). -/
def execCsrw (a : Byte) (imm : BitVec 16) (s : State) : Result :=
  if a = 0x01 then
    let t := s.setInterval imm
    .next (respond t .ok (t.interval.setWidth 32))
  else if a = 0x02 then
    let t := s.setMaxRetx (imm.setWidth 8)
    .next (respond t .ok (t.maxRetx.setWidth 32))
  else .next (respond s .badOperand 0)

end Sys2Proof.Machine
end

