-- ==== Sys2Proof/Machine/Pattern.lean ====
section
/-! DEFINITION. findPattern, manchesterDecode and FINDP, MAND, MANDI (42_pattern_manchester.md). -/

namespace Sys2Proof.Machine

/-- `findPattern(s, hi, lo, win)`: the least offset `k < win` at which the sixteen bits, wholly inside the
frame, are the marker, `markerHigh` first; none is NOT_FOUND (R190). -/
def findPattern (s : List Bool) (hi lo : Byte) (win : Nat) : Option Nat :=
  (List.range win).find? fun k => k + 16 ≤ s.length && valAt s k 16 == hi.toNat * 256 + lo.toNat

/-- What `manDecode` gives (R195). -/
inductive ManResult where
  | decoded (bits : List Bool)
  | failLength
  | violation (j : Nat)
deriving DecidableEq, Repr

/-- The two symbols of pair `j` after a preamble of `pre` bits, the earlier one first (R195). -/
def symbolPair (s : List Bool) (pre j : Nat) : Bool × Bool :=
  (s.getD (pre + 2 * j) false, s.getD (pre + 2 * j + 1) false)

/-- (1,0) and (0,1) are the two legal transitions (R195). -/
def pairLegal (ab : Bool × Bool) : Bool := ab.1 != ab.2

/-- The bit a legal pair decodes to: by the base convention (1,0) gives 1 and (0,1) gives 0, and `inv`
inverts (R195; 93_implementation_defined.md U5 makes the convention a parameter). -/
def pairBit (p : Params) (inv : Bool) (ab : Bool × Bool) : Bool := (ab.1 == p.manPairTenIsOne) != inv

/-- `manDecode(s, pre, nout, inv)` (R195). -/
def manDecode (p : Params) (s : List Bool) (pre nout : Nat) (inv : Bool) : ManResult :=
  if rangeFits s pre (2 * nout) then
    match (List.range nout).find? fun j => !pairLegal (symbolPair s pre j) with
    | some j => .violation j
    | none => .decoded ((List.range nout).map fun j => pairBit p inv (symbolPair s pre j))
  else .failLength

/-- FINDP hi, lo, win (R191). -/
def execFindp (hi lo win : Byte) (s : State) : Result :=
  match findPattern s.fb hi lo win.toNat with
  | none => .next (respond s.clearFound .notFound 0)
  | some k => .next (respond (s.setFound k) .ok (BitVec.ofNat 32 k))

/-- MAND and MANDI: Manchester-decode FB into MB; a failure empties MB (R196). -/
def manchesterIntoMb (s : State) (pre nout : Nat) (inv : Bool) : Result :=
  match manDecode Config.params s.fb pre nout inv with
  | .failLength => .next (respond (s.setMb []) .abortLength 0)
  | .violation j => .next (respond (s.setMb []) .manViolation (BitVec.ofNat 32 j))
  | .decoded bits =>
    let t := s.setMb bits
    .next (respond t .ok t.mbLen)

/-- MAND pre, nout (R196). -/
def execMand (pre nout : BitVec 12) (s : State) : Result := manchesterIntoMb s pre.toNat nout.toNat false

/-- MANDI pre, nout (R197). -/
def execMandi (pre nout : BitVec 12) (s : State) : Result := manchesterIntoMb s pre.toNat nout.toNat true

end Sys2Proof.Machine
end

