-- ==== Sys2Proof/Machine/Decoders.lean ====
section
/-! DEFINITION. The variant decoders and DECC, DECX, DECM (43_variant_decoders.md). -/

namespace Sys2Proof.Machine

/-- The three failure kinds of a decoder (R210). -/
inductive FailKind where
  | abortLength
  | failSanity
  | failMic
deriving DecidableEq, Repr

/-- The outcome code of a failure kind (60_exceptions.md R311, R316). -/
def failCode : FailKind → Code
  | .abortLength => .abortLength
  | .failSanity => .failSanity
  | .failMic => .failMic

/-- Every byte is 0: the all-zero test of R211. -/
def allZero (B : List Byte) : Bool := B.all (· == 0)

/-- `decodeClassic(s)`, the checks in the order of R211; bit offsets of R216 (R212). -/
def decodeClassic (p : Params) (s : List Bool) : Except FailKind Reading :=
  let o := p.classicSyncBits
  if s.length ≠ p.classicLen then .error .abortLength
  else if p.classicSyncCheck ∧ valAt s 0 o ≠ p.classicSyncValue.toNat then .error .failSanity
  else
    match extract s o 64 with
    | none => .error .abortLength
    | some P =>
      if allZero P then .error .failSanity
      else if crc8 P 7 p.crcPoly p.crcInit ≠ P.getD 7 0 then .error .failMic
      else .ok
        { valid := true
          variant := .classic
          integrity := .crc
          id := BitVec.ofNat 32 (valAt s (o + 12) 28)
          flags := BitVec.ofNat 32 (valAt s (o + 4) 8)
          press := (P.getD 5 0).setWidth 10
          temp := P.getD 6 0
          tempValid := true
          mic := P.getD 7 0
          diag := 0
          parityRx := 0 }

/-- `decodeExt(s)`: length, marker, payload fit, all-zero, checksum; layout of R221 (R222, R224). -/
def decodeExt (p : Params) (s : List Bool) : Except FailKind Reading :=
  if s.length < p.extMinLen then .error .abortLength
  else
    match findPattern s p.extMarkerHi p.extMarkerLo p.extSearchWindow with
    | none => .error .failSanity
    | some k =>
      match extract s (k + p.extPayloadSkip) 80 with
      | none => .error .abortLength
      | some P =>
        if allZero P then .error .failSanity
        else if checksum P 9 ≠ P.getD 9 0 then .error .failMic
        else .ok
          { valid := true
            variant := .ext
            integrity := .checksum
            id := 0#8 ++ P.getD 4 0 ++ P.getD 5 0 ++ P.getD 6 0
            flags := P.getD 0 0 ++ P.getD 1 0 ++ P.getD 2 0 ++ P.getD 3 0
            press := (P.getD 7 0).setWidth 10
            temp := P.getD 8 0
            tempValid := true
            mic := P.getD 9 0
            diag := 0
            parityRx := 0 }

/-- `decodeMan(s)`: length, preamble, all-zero symbols, pair legality; layout of R233 (R231). DIAG is the
value R236 defines; no outcome depends on it (log 5). -/
def decodeMan (p : Params) (s : List Bool) : Except FailKind Reading :=
  let o := p.manPreambleBits
  if s.length ≠ p.manLen then .error .abortLength
  else if valAt s 0 o ≠ p.manPreamble.toNat then .error .failSanity
  else if (slice s o (2 * p.manPayloadBits)).all (· == false) then .error .failSanity
  else
    match manDecode p s o p.manPayloadBits p.manInvert with
    | .failLength => .error .abortLength
    | .violation _ => .error .failMic
    | .decoded d =>
      match extract d 0 p.manPayloadBits with
      | none => .error .abortLength
      | some B => .ok
        { valid := true
          variant := .man
          integrity := .unchecked
          id := BitVec.ofNat 32 (valAt d 3 24)
          flags := BitVec.ofNat 32 (valAt d 0 3)
          press := BitVec.ofNat 10 (valAt d 27 10)
          temp := 0
          tempValid := false
          mic := 0
          diag := xorFold B 5
          parityRx := BitVec.ofNat 2 (valAt d 37 2) }

/-- The one shape of the decode commands: RES is written whole, all 0 on a failure (R214, R44). -/
def decodeIntoRes (s : State) (r : Except FailKind Reading) : Result :=
  match r with
  | .error k => .next (respond (s.setRes .zero) (failCode k) 0)
  | .ok reading => .next (respond (s.setRes reading) .ok reading.id)

/-- DECC (R213). -/
def execDecc (s : State) : Result := decodeIntoRes s (decodeClassic Config.params s.fb)

/-- DECX (R223). -/
def execDecx (s : State) : Result := decodeIntoRes s (decodeExt Config.params s.fb)

/-- DECM (R232). -/
def execDecm (s : State) : Result := decodeIntoRes s (decodeMan Config.params s.fb)

end Sys2Proof.Machine
end

