-- ==== Sys2Proof/Machine/Dispatcher.lean ====
section
/-! DEFINITION. The decode dispatcher and DISP (44_dispatcher.md). -/

namespace Sys2Proof.Machine

/-- The decoder of a variant (R249, R250). -/
def decodeVariant (p : Params) (s : List Bool) : Variant → Except FailKind Reading
  | .classic => decodeClassic p s
  | .ext => decodeExt p s
  | .man => decodeMan p s

/-- The first reading in the order given; later decoders are not consulted (R250). -/
def firstReading (p : Params) (s : List Bool) : List Variant → Option Reading
  | [] => none
  | v :: vs =>
    match decodeVariant p s v with
    | .ok r => some r
    | .error _ => firstReading p s vs

/-- The number of a failure kind in NO_MATCH's data: 1, 2 or 3 (R250); 0 stands for a reading. -/
def kindNumber : Except FailKind Reading → BitVec 2
  | .ok _ => 0
  | .error .abortLength => 1
  | .error .failSanity => 2
  | .error .failMic => 3

/-- NO_MATCH's data: [1:0] classic, [3:2] extended-manufacturer, [5:4] Manchester/parity (R251). -/
def noMatchData (p : Params) (s : List Bool) : Word :=
  0#26 ++ kindNumber (decodeMan p s) ++ kindNumber (decodeExt p s) ++ kindNumber (decodeClassic p s)

/-- DISP for the parameters `p` (R251). -/
def dispatchIntoRes (p : Params) (s : State) : Result :=
  match firstReading p s.fb p.dispatchOrder with
  | some r => .next (respond (s.setRes r) .ok r.id)
  | none => .next (respond (s.setRes .zero) .noMatch (noMatchData p s.fb))

/-- DISP (R251). -/
def execDisp (s : State) : Result := dispatchIntoRes Config.params s

end Sys2Proof.Machine
end

