-- ==== Sys2Proof/Machine/FrameBuffer.lean ====
section
/-! DEFINITION. FBCLR, FBPUSH (40_frame_buffer.md). -/

namespace Sys2Proof.Machine

/-- FBCLR (R151). -/
def execFbclr (s : State) : Result := .next (respond (s.setFb []) .ok 0)

/-- FBPUSH n, d (R152). -/
def execFbpush (n : BitVec 4) (d : Byte) (s : State) : Result :=
  if pushCountLegal n.toNat ∧ s.fb.length + n.toNat ≤ Config.params.fbMaxBits then
    let t := s.setFb (s.fb ++ pushBits n.toNat d)
    .next (respond t .ok t.fbLen)
  else .next (respond s .badOperand 0)

end Sys2Proof.Machine
end

