-- ==== Sys2Proof/Machine/Queue.lean ====
section
/-! DEFINITION. The sensor retransmission queue and QADD, QDUE, QSIZE (45_queue.md). -/

namespace Sys2Proof.Machine

/-- `next_send_time = (now + interval) mod 2^TIME_BITS`, that is mod 2^32 (R262, R270, R279). -/
def sendTime (now : Time) (interval : BitVec 16) : Time := now + interval.setWidth Config.timeBits

/-- The entry `addOrUpdate` makes of a reading (R262). -/
def entryOf (r : Reading) (now : Time) (interval : BitVec 16) : Entry where
  id := r.id
  flags := r.flags
  press := r.press
  temp := if r.tempValid then r.temp else 0
  mic := r.mic
  next := sendTime now interval
  count := 0

/-- Overwrite the first entry that has the id of `e`, in its place; none when there is none (R262). -/
def overwrite (e : Entry) : List Entry → Option (List Entry)
  | [] => none
  | x :: xs => if x.id = e.id then some (e :: xs) else (overwrite e xs).map (x :: ·)

/-- `addOrUpdate`: overwrite, else append below the capacity, else reject with none (R262). -/
def addOrUpdate (p : Params) (q : List Entry) (e : Entry) : Option (List Entry) :=
  match overwrite e q with
  | some q' => some q'
  | none => if q.length < p.capacity then some (q ++ [e]) else none

/-- The queue after a service, the data returned, and whether the entry was removed (R270). -/
structure Serviced where
  queue : List Entry
  entry : Entry
  evicted : Bool
deriving DecidableEq, Repr

/-- "Due": `next ≤ NOW` as unsigned numbers, equality included (R270, R279). -/
def isDue (now : Time) (e : Entry) : Bool := e.next.ule now

/-- The entry after the two updates of a service (R270). -/
def afterService (now : Time) (interval : BitVec 16) (e : Entry) : Entry :=
  { e with count := e.count + 1, next := sendTime now interval }

/-- Evicted when, after the increment, `count > MAX_RETX` (R273). -/
def exceeds (maxRetx : Byte) (e : Entry) : Bool := maxRetx.toNat < e.count.toNat

/-- `getNextDue`: the first due entry in storage order is serviced, and removed with the later entries
shifted down when its count exceeds the limit; none when nothing is due (R270, R273). -/
def getNextDue (now : Time) (interval : BitVec 16) (maxRetx : Byte) : List Entry → Option Serviced
  | [] => none
  | x :: xs =>
    if isDue now x then
      let e := afterService now interval x
      some ⟨if exceeds maxRetx e then xs else e :: xs, e, exceeds maxRetx e⟩
    else (getNextDue now interval maxRetx xs).map fun r => { r with queue := x :: r.queue }

/-- `frame(e)`: the fifteen bytes of the outbound frame (30_encoding.md R134). -/
def outboundFrame (e : Entry) : List Byte :=
  [ 0, 0, 0, 0, 0,
    e.flags.extractLsb' 24 8, e.flags.extractLsb' 16 8, e.flags.extractLsb' 8 8, e.flags.extractLsb' 0 8,
    e.id.extractLsb' 16 8, e.id.extractLsb' 8 8, e.id.extractLsb' 0 8,
    e.press.extractLsb' 0 8, e.temp, e.mic ]

/-- The transmit registers after a service (R272). -/
def transmitOf (r : Serviced) : Transmit where
  frame := outboundFrame r.entry
  id := r.entry.id
  next := r.entry.next
  count := r.entry.count
  valid := true
  evicted := r.evicted

/-- `<seconds-until-next-send>` of the telemetry line at the host's time `t` (R276). -/
def secondsUntilNextSend (s : State) (t : Time) : Time := s.tx.next - t

/-- QADD (R263). -/
def execQadd (s : State) : Result :=
  if s.res.valid then
    match addOrUpdate Config.params s.q (entryOf s.res s.now s.interval) with
    | none => .next (respond s .queueFull s.qSize)
    | some q =>
      let t := s.setQ q
      .next (respond t .ok t.qSize)
  else .next (respond s .noReading 0)

/-- QDUE (R271). -/
def execQdue (s : State) : Result :=
  match getNextDue s.now s.interval s.maxRetx s.q with
  | none => .next (respond (s.setTx .zero) .noneDue 0)
  | some r => .next (respond ((s.setQ r.queue).setTx (transmitOf r)) .ok r.entry.id)

/-- QSIZE (R278). -/
def execQsize (s : State) : Result := .next (respond s .ok s.qSize)

end Sys2Proof.Machine
end

