-- ==== Sys2Proof/Machine/Dispatch.lean ====
section
/-! DEFINITION. The dispatch of a command to its meaning. -/

namespace Sys2Proof.Machine

/-- The effect of a command on the state (10_state.md R31), NOW being `s.now`. -/
def exec (i : Instr) (s : State) : Host.Outcome State Fault Refusal :=
  match i with
  | .fbclr => Sys2Proof.Machine.execFbclr s
  | .fbpush n d => Sys2Proof.Machine.execFbpush n d s
  | .extf cnt off => Sys2Proof.Machine.execExtf cnt off s
  | .extm cnt off => Sys2Proof.Machine.execExtm cnt off s
  | .crc8 count poly init => Sys2Proof.Machine.execCrc8 count poly init s
  | .cksum count => Sys2Proof.Machine.execCksum count s
  | .xorf count => Sys2Proof.Machine.execXorf count s
  | .findp hi lo win => Sys2Proof.Machine.execFindp hi lo win s
  | .mand pre nout => Sys2Proof.Machine.execMand pre nout s
  | .mandi pre nout => Sys2Proof.Machine.execMandi pre nout s
  | .decc => Sys2Proof.Machine.execDecc s
  | .decx => Sys2Proof.Machine.execDecx s
  | .decm => Sys2Proof.Machine.execDecm s
  | .disp => Sys2Proof.Machine.execDisp s
  | .qadd => Sys2Proof.Machine.execQadd s
  | .qdue => Sys2Proof.Machine.execQdue s
  | .qsize => Sys2Proof.Machine.execQsize s
  | .csrr a => Sys2Proof.Machine.execCsrr a s
  | .csrw a imm => Sys2Proof.Machine.execCsrw a imm s

end Sys2Proof.Machine
end

