-- ==== Sys2Proof/Machine/Step.lean ====
section
/-! DEFINITION. One step: one sample of the input ports (10_state.md R31). -/

namespace Sys2Proof.Machine

/-- A command word is accepted with the NOW presented: decoded and executed to completion, or answered
with ILLEGAL_CMD (00_scope.md R5, 30_encoding.md R120). This is `step : State × CMD × NOW → State ×
RSP_CODE × RSP_DATA` of R31, the response in the field `rsp`. -/
def accept (s : State) (cmd : Word) (now : Time) : Host.Outcome State Fault Refusal :=
  match decode cmd with
  | .ok i => exec i (sampleNow s now)
  | .error _ => .next (answerIllegal (sampleNow s now))

/-- One sample of the input ports. RESET overrides everything (R59, 60_exceptions.md R318); while a
response is pending CMD_READY is 0 and only its taking can happen; otherwise a command is accepted when
CMD_VALID is 1 (R31). With nothing presented the block does nothing (60_exceptions.md R320). -/
def step (s : State) : Host.Outcome State Fault Refusal :=
  match s.input with
  | [] => .next s
  | p :: rest =>
    let t := nextSample s rest
    if p.reset then .next (resetBlock rest)
    else if t.rspValid then .next (if p.rspReady then takeResponse t else t)
    else if p.cmdValid then accept t p.cmd p.now
    else .next t

/-- `s` with the command word `w` (its low `nbits` bits, the rest 0) offered at the command port in the
next sample, at the NOW last sampled, and CMD_READY at 1 so that it is accepted. -/
def State.withFetchWord (s : State) (nbits w : Nat) : State :=
  { s with rsp := none, input := offerSample (BitVec.ofNat 32 (w % 2 ^ nbits)) s.now :: s.input }

end Sys2Proof.Machine
end

