-- ==== Sys2Proof/WellFormed.lean ====
section
/-! DEFINITION. Assembly lines and which of them are well formed (30_encoding.md R140, R141). An `Instr`
holds each operand at the exact width of its field, so every term of `Instr` is well formed; what can be
ill formed is a line of assembly, whose operands are numbers of any size. -/

namespace Sys2Proof

/-- The register names of the CSR map (20_memory.md R88). -/
inductive CsrName where
  | status | interval | maxRetx | qsize | fbLen | mbLen | xbCnt | acc | pos | capacity
  | resId | resFlags | resPress | resTemp | resMeta
  | txW (w : Fin 4) | txId | txNext | txCount
  | xbW (w : Fin 8) | fbW (w : Fin 8) | mbW (w : Fin 4)
  /-- Field `j` of queue slot `i`, which programs of 95_test_vectors.md name by its address. -/
  | queue (i : Fin 12) (j : Fin 8)
deriving DecidableEq, Repr

/-- One line of assembly: a command of R140 or a pseudo-instruction of R141, its operands plain numbers.
The digits of FBLOAD's string stand as a list of hexadecimal digits, most significant first. -/
inductive AsmLine where
  | fbclr
  | fbpush (n d : Nat)
  | extf (cnt off : Nat)
  | extm (cnt off : Nat)
  | crc8 (count poly init : Nat)
  | cksum (count : Nat)
  | xorf (count : Nat)
  | findp (hi lo win : Nat)
  | mand (pre nout : Nat)
  | mandi (pre nout : Nat)
  | decc
  | decx
  | decm
  | disp
  | qadd
  | qdue
  | qsize
  | csrr (a : Nat)
  | csrw (a imm : Nat)
  | fbpushb (d : Nat)
  | fbload (n : Nat) (digits : List (BitVec 4))
  | setint (v : Nat)
  | setmax (v : Nat)
  | rd (name : CsrName)
deriving DecidableEq, Repr

/-- "An operand that does not fit its field … is an assembly error" (R140); FBLOAD's string gives "at
least n bits" (R141). -/
def AsmLine.wellFormed : AsmLine → Bool
  | .fbpush n d => n ≤ 15 && d ≤ 255
  | .extf cnt off => cnt ≤ 4095 && off ≤ 4095
  | .extm cnt off => cnt ≤ 4095 && off ≤ 4095
  | .crc8 count poly init => count ≤ 255 && poly ≤ 255 && init ≤ 255
  | .cksum count => count ≤ 255
  | .xorf count => count ≤ 255
  | .findp hi lo win => hi ≤ 255 && lo ≤ 255 && win ≤ 255
  | .mand pre nout => pre ≤ 4095 && nout ≤ 4095
  | .mandi pre nout => pre ≤ 4095 && nout ≤ 4095
  | .csrr a => a ≤ 255
  | .csrw a imm => a ≤ 255 && imm ≤ 65535
  | .fbpushb d => d ≤ 255
  | .fbload n digits => n ≤ 4 * digits.length
  | .setint v => v ≤ 65535
  | .setmax v => v ≤ 65535
  | .fbclr | .decc | .decx | .decm | .disp | .qadd | .qdue | .qsize | .rd _ => true

end Sys2Proof
end

