-- ==== Sys2Proof/Machine/Assembler.lean ====
section
/-! DEFINITION. The assembler of 30_encoding.md R140, R141: lines to commands, programs to (CMD, NOW)
pairs. -/

namespace Sys2Proof.Machine

/-- The address of a CSR (20_memory.md R88, R92). -/
def csrAddress : CsrName → Byte
  | .status => 0x00
  | .interval => 0x01
  | .maxRetx => 0x02
  | .qsize => 0x03
  | .fbLen => 0x04
  | .mbLen => 0x05
  | .xbCnt => 0x06
  | .acc => 0x07
  | .pos => 0x08
  | .capacity => 0x09
  | .resId => 0x10
  | .resFlags => 0x11
  | .resPress => 0x12
  | .resTemp => 0x13
  | .resMeta => 0x14
  | .txW w => BitVec.ofNat 8 (0x18 + w.val)
  | .txId => 0x1C
  | .txNext => 0x1D
  | .txCount => 0x1E
  | .xbW w => BitVec.ofNat 8 (0x20 + w.val)
  | .fbW w => BitVec.ofNat 8 (0x28 + w.val)
  | .mbW w => BitVec.ofNat 8 (0x30 + w.val)
  | .queue i j => BitVec.ofNat 8 (0x40 + 16 * i.val + j.val)

/-- The `j`-th byte of a string of hexadecimal digits, "a final odd digit is padded on the right with a
zero digit" (R141). -/
def digitByte (digits : List (BitVec 4)) (j : Nat) : Byte := digits.getD (2 * j) 0 ++ digits.getD (2 * j + 1) 0

/-- A byte "with its bits below the top m cleared" (R141). -/
def keepTop (m : Nat) (d : Byte) : Byte := (d >>> (8 - m)) <<< (8 - m)

/-- The FBPUSH commands of `FBLOAD n : h`: one for each j = 0 .. ⌈n/8⌉ − 1 (R141). -/
def loadPushes (n : Nat) (digits : List (BitVec 4)) : List Instr :=
  (List.range ((n + 7) / 8)).map fun j =>
    let m := min 8 (n - 8 * j)
    .fbpush (BitVec.ofNat 4 m) (keepTop m (digitByte digits j))

/-- The commands a line stands for (R140, R141). -/
def expand : AsmLine → List Instr
  | .fbclr => [.fbclr]
  | .fbpush n d => [.fbpush (BitVec.ofNat 4 n) (BitVec.ofNat 8 d)]
  | .extf cnt off => [.extf (BitVec.ofNat 12 cnt) (BitVec.ofNat 12 off)]
  | .extm cnt off => [.extm (BitVec.ofNat 12 cnt) (BitVec.ofNat 12 off)]
  | .crc8 count poly init => [.crc8 (BitVec.ofNat 8 count) (BitVec.ofNat 8 poly) (BitVec.ofNat 8 init)]
  | .cksum count => [.cksum (BitVec.ofNat 8 count)]
  | .xorf count => [.xorf (BitVec.ofNat 8 count)]
  | .findp hi lo win => [.findp (BitVec.ofNat 8 hi) (BitVec.ofNat 8 lo) (BitVec.ofNat 8 win)]
  | .mand pre nout => [.mand (BitVec.ofNat 12 pre) (BitVec.ofNat 12 nout)]
  | .mandi pre nout => [.mandi (BitVec.ofNat 12 pre) (BitVec.ofNat 12 nout)]
  | .decc => [.decc]
  | .decx => [.decx]
  | .decm => [.decm]
  | .disp => [.disp]
  | .qadd => [.qadd]
  | .qdue => [.qdue]
  | .qsize => [.qsize]
  | .csrr a => [.csrr (BitVec.ofNat 8 a)]
  | .csrw a imm => [.csrw (BitVec.ofNat 8 a) (BitVec.ofNat 16 imm)]
  | .fbpushb d => [.fbpush 8 (BitVec.ofNat 8 d)]
  | .fbload n digits => .fbclr :: loadPushes n digits
  | .setint v => [.csrw 0x01 (BitVec.ofNat 16 v)]
  | .setmax v => [.csrw 0x02 (BitVec.ofNat 16 v)]
  | .rd name => [.csrr (csrAddress name)]

/-- The commands of a line, none where the line is an assembly error (R140). -/
def assemble (l : AsmLine) : Option (List Instr) := if l.wellFormed then some (expand l) else none

/-- A program from its lines, each with an optional `@ t`: "a line without `@ t` is presented with the NOW
of the line before it, and the first line without one with NOW = 0" (R140), `now` being that NOW. -/
def assembleProgram : (now : Time) → List (AsmLine × Option Time) → Option (List (Word × Time))
  | _, [] => some []
  | now, (l, t) :: rest =>
    match assemble l, assembleProgram (t.getD now) rest with
    | some is, some ws => some (is.map (fun i => (encode i, t.getD now)) ++ ws)
    | _, _ => none

end Sys2Proof.Machine
end

