-- ==== Sys2Proof/Safety.lean ====
section
/-! DEFINITION. What claims about the block are stated in: the invariants of 10_state.md, the tables of
read sets, write sets and outcome codes, sequences of commands, and frames built from their fields. -/

namespace Sys2Proof.Machine

/-! ## The invariants (10_state.md R60) -/

/-- FB holds at most 256 bits and MB at most 128 (R36, R37). -/
abbrev BuffersBounded (s : State) : Prop := s.fb.length ≤ 256 ∧ s.mb.length ≤ 128

/-- XB has 32 bytes, XB_CNT is at most 32, and every byte at or beyond XB_CNT is 0 (R38). -/
abbrev XbZeroBeyondCount (s : State) : Prop :=
  s.xb.length = 32 ∧ s.xbCnt.toNat ≤ 32 ∧ ∀ b ∈ s.xb.drop s.xbCnt.toNat, b = 0

/-- POS is 0 unless FOUND, and never above 240 (R40). -/
abbrev PosMeansFound (s : State) : Prop := (s.found = false → s.pos = 0) ∧ s.pos.toNat ≤ 240

/-- The contents of RES by variant; all 0 when it holds no reading (R46). -/
abbrev ReadingByVariant (r : Reading) : Prop :=
  (r.valid = false → r = Reading.zero) ∧
  (r.valid = true → r.variant = .classic →
    r.integrity = .crc ∧ r.id.toNat < 2 ^ 28 ∧ r.flags.toNat < 2 ^ 8 ∧ r.press.toNat < 2 ^ 8 ∧
    r.tempValid = true ∧ r.diag = 0 ∧ r.parityRx = 0) ∧
  (r.valid = true → r.variant = .ext →
    r.integrity = .checksum ∧ r.id.toNat < 2 ^ 24 ∧ r.press.toNat < 2 ^ 8 ∧
    r.tempValid = true ∧ r.diag = 0 ∧ r.parityRx = 0) ∧
  (r.valid = true → r.variant = .man →
    r.integrity = .unchecked ∧ r.id.toNat < 2 ^ 24 ∧ r.flags.toNat < 2 ^ 3 ∧
    r.tempValid = false ∧ r.temp = 0 ∧ r.mic = 0)

/-- At most 12 entries, no two with one id, every stored count at most 255 (R53 (a), (b), (d)). -/
abbrev QueueSound (q : List Entry) : Prop :=
  q.length ≤ 12 ∧ (q.map Entry.id).Nodup ∧ ∀ e ∈ q, e.count.toNat ≤ 255

/-- All 0 when TX_VALID = 0; else fifteen bytes, the sync word 0, bytes 9 to 11 those of TX_ID, and
TX_COUNT at most 256 (R53 (d), R56). -/
abbrev TransmitSound (t : Transmit) : Prop :=
  (t.valid = false → t = Transmit.zero) ∧
  (t.valid = true → t.frame.length = 15 ∧ t.frame.take 5 = List.replicate 5 0 ∧
    (t.frame.drop 9).take 3 = [t.id.extractLsb' 16 8, t.id.extractLsb' 8 8, t.id.extractLsb' 0 8] ∧
    t.count.toNat ≤ 256)

/-- The invariants of 10_state.md, those over one state (R60). -/
abbrev State.Inv (s : State) : Prop :=
  BuffersBounded s ∧ XbZeroBeyondCount s ∧ PosMeansFound s ∧ ReadingByVariant s.res ∧ QueueSound s.q ∧
  TransmitSound s.tx

/-! ## Read sets, write sets, outcome codes -/

/-- The destinations of 10_state.md R62, each a unit that commands write whole. -/
inductive Dest where
  | fb | mb | xb | acc | find | res | interval | maxRetx | q | tx
deriving DecidableEq, Repr

/-- Two states hold the same in a unit. -/
abbrev SameIn (s t : State) : Dest → Prop
  | .fb => s.fb = t.fb
  | .mb => s.mb = t.mb
  | .xb => s.xb = t.xb ∧ s.xbCnt = t.xbCnt
  | .acc => s.acc = t.acc
  | .find => s.pos = t.pos ∧ s.found = t.found
  | .res => s.res = t.res
  | .interval => s.interval = t.interval
  | .maxRetx => s.maxRetx = t.maxRetx
  | .q => s.q = t.q
  | .tx => s.tx = t.tx

/-- The column "writes on success" of 10_state.md R62. -/
def writesOnSuccess : Instr → List Dest
  | .fbclr | .fbpush _ _ => [.fb]
  | .extf _ _ | .extm _ _ => [.xb]
  | .crc8 _ _ _ | .cksum _ | .xorf _ => [.acc]
  | .findp _ _ _ => [.find]
  | .mand _ _ | .mandi _ _ => [.mb]
  | .decc | .decx | .decm | .disp => [.res]
  | .qadd => [.q]
  | .qdue => [.q, .tx]
  | .qsize | .csrr _ => []
  | .csrw _ _ => [.interval, .maxRetx]

/-- The column "writes on failure" of 10_state.md R62. -/
def writesOnFailure : Instr → List Dest
  | .extf _ _ | .extm _ _ => [.xb]
  | .crc8 _ _ _ | .cksum _ | .xorf _ => [.acc]
  | .findp _ _ _ => [.find]
  | .mand _ _ | .mandi _ _ => [.mb]
  | .decc | .decx | .decm | .disp => [.res]
  | .qdue => [.tx]
  | .fbclr | .fbpush _ _ | .qadd | .qsize | .csrr _ | .csrw _ _ => []

/-- A unit holds the empty or all-zero value of 60_exceptions.md R314 (b). -/
abbrev Cleared (t : State) : Dest → Prop
  | .fb => t.fb = []
  | .mb => t.mb = []
  | .xb => t.xb = List.replicate 32 0 ∧ t.xbCnt = 0
  | .acc => t.acc = 0
  | .find => t.pos = 0 ∧ t.found = false
  | .res => t.res = Reading.zero
  | .interval => t.interval = 0
  | .maxRetx => t.maxRetx = 0
  | .q => t.q = []
  | .tx => t.tx = Transmit.zero

/-- Two states agree on the column "reads" of 10_state.md R62. -/
abbrev AgreeOnReads (s t : State) : Instr → Prop
  | .fbclr | .csrw _ _ => True
  | .fbpush _ _ => s.fb.length = t.fb.length
  | .extf _ _ | .findp _ _ _ | .mand _ _ | .mandi _ _ | .decc | .decx | .decm | .disp => s.fb = t.fb
  | .extm _ _ => s.mb = t.mb
  | .crc8 _ _ _ | .cksum _ | .xorf _ => s.xb = t.xb ∧ s.xbCnt = t.xbCnt
  | .qadd => s.res = t.res ∧ s.q = t.q ∧ s.interval = t.interval ∧ s.now = t.now
  | .qdue => s.q = t.q ∧ s.interval = t.interval ∧ s.maxRetx = t.maxRetx ∧ s.now = t.now
  | .qsize => s.q = t.q
  | .csrr _ => ∀ u, SameIn s t u

/-- Which command can answer which code (60_exceptions.md R312). -/
def possibleCodes : Instr → List Code
  | .fbclr | .qsize => [.ok]
  | .fbpush _ _ => [.ok, .badOperand]
  | .extf _ _ | .extm _ _ | .crc8 _ _ _ | .cksum _ | .xorf _ => [.ok, .abortLength]
  | .findp _ _ _ => [.ok, .notFound]
  | .mand _ _ | .mandi _ _ => [.ok, .abortLength, .manViolation]
  | .decc | .decx | .decm => [.ok, .abortLength, .failSanity, .failMic]
  | .disp => [.ok, .noMatch]
  | .qadd => [.ok, .queueFull, .noReading]
  | .qdue => [.ok, .noneDue]
  | .csrr _ | .csrw _ _ => [.ok, .badOperand]

/-- The unimplemented CSR addresses, as 20_memory.md R93 lists them. -/
abbrev UnimplementedCsr (a : Byte) : Prop :=
  (0x0A ≤ a.toNat ∧ a.toNat ≤ 0x0F) ∨ (0x15 ≤ a.toNat ∧ a.toNat ≤ 0x17) ∨ a.toNat = 0x1F ∨
  (0x34 ≤ a.toNat ∧ a.toNat ≤ 0x3F) ∨ (0x40 ≤ a.toNat ∧ 8 ≤ a.toNat % 16)

/-! ## Sequences of commands -/

/-- Commands one after the other, each on the state the one before left. -/
def execAll : State → List Instr → Result
  | s, [] => .next s
  | s, i :: is =>
    match exec i s with
    | .next t => execAll t is
    | .fault r => .fault r
    | .refused r => .refused r

/-- A program of (CMD, NOW) pairs: each command is accepted and its response taken before the next is
(20_memory.md R101). -/
def serial : State → List (Word × Time) → Result
  | s, [] => .next s
  | s, c :: cs =>
    match accept s c.1 c.2 with
    | .next t => serial (takeResponse t) cs
    | .fault r => .fault r
    | .refused r => .refused r

/-- A QADD for each reading in turn, RES holding that reading and NOW being that time when it is issued. -/
def addAll : State → List (Reading × Time) → Result
  | s, [] => .next s
  | s, r :: rs =>
    match exec .qadd { s with res := r.1, now := r.2 } with
    | .next t => addAll t rs
    | .fault e => .fault e
    | .refused e => .refused e

/-- A QDUE at each time in turn. -/
def pollAll : State → List Time → Result
  | s, [] => .next s
  | s, n :: ns =>
    match exec .qdue { s with now := n } with
    | .next t => pollAll t ns
    | .fault e => .fault e
    | .refused e => .refused e

/-- How many of the QDUEs at the times given service an entry with the id. -/
def services (id : Word) : State → List Time → Nat
  | _, [] => 0
  | s, n :: ns =>
    match exec .qdue { s with now := n } with
    | .next t => (if t.rsp = some ⟨.ok, id⟩ then 1 else 0) + services id t ns
    | _ => 0

/-! ## Frames from their fields -/

/-- The bits of a field, most significant first (20_memory.md R83). -/
def fieldBits {w : Nat} (x : BitVec w) : List Bool := (List.range w).map fun t => x.getLsbD (w - 1 - t)

/-- The 64 bits after the sync nibble of a classic frame: flags, id, pressure, temperature, crc
(43_variant_decoders.md R216). -/
def classicPayload (flags : BitVec 12) (id : BitVec 28) (press temp crc : Byte) : List Bool :=
  fieldBits flags ++ fieldBits id ++ fieldBits press ++ fieldBits temp ++ fieldBits crc

/-- The seven bytes the classic CRC covers (43_variant_decoders.md R216). -/
def classicData (flags : BitVec 12) (id : BitVec 28) (press temp : Byte) : List Byte :=
  [ flags.extractLsb' 4 8, flags.extractLsb' 0 4 ++ id.extractLsb' 24 4, id.extractLsb' 16 8,
    id.extractLsb' 8 8, id.extractLsb' 0 8, press, temp ]

/-- The 80 payload bits of an extended-manufacturer frame (43_variant_decoders.md R221). -/
def extPayload (flags : Word) (id : BitVec 24) (press temp sum : Byte) : List Bool :=
  fieldBits flags ++ fieldBits id ++ fieldBits press ++ fieldBits temp ++ fieldBits sum

/-- The nine bytes the extended-manufacturer checksum covers (43_variant_decoders.md R221). -/
def extData (flags : Word) (id : BitVec 24) (press temp : Byte) : List Byte :=
  [ flags.extractLsb' 24 8, flags.extractLsb' 16 8, flags.extractLsb' 8 8, flags.extractLsb' 0 8,
    id.extractLsb' 16 8, id.extractLsb' 8 8, id.extractLsb' 0 8, press, temp ]

/-- The sixteen bits of the manufacturer marker, first byte first (43_variant_decoders.md R224). -/
def markerBits (hi lo : Byte) : List Bool := fieldBits hi ++ fieldBits lo

/-- The 39 decoded bits of a Manchester/parity frame (43_variant_decoders.md R233). -/
def manFields (flags : BitVec 3) (id : BitVec 24) (press : BitVec 10) (parity : BitVec 2) : List Bool :=
  fieldBits flags ++ fieldBits id ++ fieldBits press ++ fieldBits parity

/-- The symbols of decoded bits in the polarity of the Manchester/parity variant: a field bit is 1 where
the frame has 0-then-1 (43_variant_decoders.md R231). -/
def manSymbols (bits : List Bool) : List Bool := bits.flatMap fun v => [!v, v]

/-- A bit sequence with the bit at index `b` inverted. -/
def flipBit (s : List Bool) (b : Nat) : List Bool := s.set b (!s.getD b false)

end Sys2Proof.Machine
end

