-- ==== Sys2Proof/Certificates/Slice0/Obligations.lean ====
section
/-! DEFINITION. The statements about the block, each from the rules of spec/ its docstring names. -/

open Sys2Proof Sys2Proof.Machine

/-! ## Command words -/

/-- R113: one word of every format written out from the opcode map decodes to its command, and a word
with a must-be-zero bit set is refused. -/
def Obligations.SpecWordsDecode : Prop :=
  decode 0x020008AF#32 = .ok (.fbpush 8 0xAF) ∧ decode 0x10040004#32 = .ok (.extf 64 4) ∧
  decode 0x120707F0#32 = .ok (.crc8 7 0x07 0xF0) ∧ decode 0x15A53CA1#32 = .ok (.findp 0xA5 0x3C 161) ∧
  decode 0x17024027#32 = .ok (.mandi 36 39) ∧ decode 0x2F000000#32 = .ok .disp ∧
  decode 0x31000000#32 = .ok .qdue ∧ decode 0x401A0000#32 = .ok (.csrr 0x1A) ∧
  decode 0x410201FF#32 = .ok (.csrw 0x02 0x01FF) ∧ decode 0x40010001#32 = .error .mustBeZero ∧
  decode 0x00000000#32 = .error .undefinedOpcode

/-- Decoding the word of a command gives the command back, every operand at every value. -/
def Obligations.DecodeOfEncode : Prop := ∀ i : Instr, decode (encode i) = .ok i

/-- A word that decodes is the word of the command it decodes to: no two words stand for one command. -/
def Obligations.EncodeOfDecode : Prop := ∀ (w : Word) (i : Instr), decode w = .ok i → encode i = w

/-- R114, R120: a word matches at most one row of the opcode map; it decodes to the command of the row it
matches, and is refused exactly when it matches none. -/
def Obligations.DecodingFollowsOpcodeMap : Prop :=
  ∀ w : Word,
    (∀ r ∈ opcodeRows, ∀ r' ∈ opcodeRows, r.Matches w = true → r'.Matches w = true → r = r') ∧
    (∀ r ∈ opcodeRows, r.Matches w = true → ∃ i, decode w = .ok i ∧ mnemonicOf i = r.mnemonic) ∧
    ((∃ e, decode w = .error e) ↔ ∀ r ∈ opcodeRows, r.Matches w = false)

/-- R140: a well-formed line of each operand-bearing command assembles to the word the table's formula
gives; a line of any of them with an operand that does not fit is an assembly error. -/
def Obligations.AssemblerFormulas : Prop :=
  (∀ n d, n ≤ 15 → d ≤ 255 →
    (assemble (.fbpush n d)).map (List.map fun i => (encode i).toNat) = some [0x02000000 + n * 0x100 + d]) ∧
  (∀ cnt off, cnt ≤ 4095 → off ≤ 4095 →
    (assemble (.extf cnt off)).map (List.map fun i => (encode i).toNat) = some [0x10000000 + cnt * 0x1000 + off] ∧
    (assemble (.extm cnt off)).map (List.map fun i => (encode i).toNat) = some [0x11000000 + cnt * 0x1000 + off] ∧
    (assemble (.mand cnt off)).map (List.map fun i => (encode i).toNat) = some [0x16000000 + cnt * 0x1000 + off] ∧
    (assemble (.mandi cnt off)).map (List.map fun i => (encode i).toNat) = some [0x17000000 + cnt * 0x1000 + off]) ∧
  (∀ a b c, a ≤ 255 → b ≤ 255 → c ≤ 255 →
    (assemble (.crc8 a b c)).map (List.map fun i => (encode i).toNat) =
      some [0x12000000 + a * 0x10000 + b * 0x100 + c] ∧
    (assemble (.findp a b c)).map (List.map fun i => (encode i).toNat) =
      some [0x15000000 + a * 0x10000 + b * 0x100 + c]) ∧
  (∀ a, a ≤ 255 →
    (assemble (.cksum a)).map (List.map fun i => (encode i).toNat) = some [0x13000000 + a * 0x10000] ∧
    (assemble (.xorf a)).map (List.map fun i => (encode i).toNat) = some [0x14000000 + a * 0x10000] ∧
    (assemble (.csrr a)).map (List.map fun i => (encode i).toNat) = some [0x40000000 + a * 0x10000]) ∧
  (∀ a v, a ≤ 255 → v ≤ 65535 →
    (assemble (.csrw a v)).map (List.map fun i => (encode i).toNat) = some [0x41000000 + a * 0x10000 + v]) ∧
  (∀ n d, 15 < n ∨ 255 < d → assemble (.fbpush n d) = none) ∧
  (∀ cnt off, 4095 < cnt ∨ 4095 < off →
    assemble (.extf cnt off) = none ∧ assemble (.extm cnt off) = none ∧
    assemble (.mand cnt off) = none ∧ assemble (.mandi cnt off) = none) ∧
  (∀ a b c, 255 < a ∨ 255 < b ∨ 255 < c →
    assemble (.crc8 a b c) = none ∧ assemble (.findp a b c) = none) ∧
  (∀ a, 255 < a →
    assemble (.cksum a) = none ∧ assemble (.xorf a) = none ∧ assemble (.csrr a) = none) ∧
  (∀ a v, 255 < a ∨ 65535 < v → assemble (.csrw a v) = none)

/-! ## The machine -/

/-- A step on a sample that offers a command while CMD_READY is 1 is `exec` of the decoded command on the
state with the sample consumed and NOW sampled. That a step is one port sample is the model's choice
(log 1). -/
def Obligations.StepRunsDecodedCommand : Prop :=
  ∀ (s : State) (p : PortSample) (rest : List PortSample) (i : Instr),
    s.input = p :: rest → p.reset = false → p.cmdValid = true → s.rsp = none → decode p.cmd = .ok i →
    step s = exec i { s with input := rest, now := p.now }

/-- R120: a step on a word that is no command answers ILLEGAL_CMD, code 15, data 0, and changes no state
(the ports as log 1 models them). -/
def Obligations.IllegalWordChangesNothing : Prop :=
  ∀ (s : State) (p : PortSample) (rest : List PortSample),
    s.input = p :: rest → p.reset = false → p.cmdValid = true → s.rsp = none →
    (∀ r ∈ opcodeRows, r.Matches p.cmd = false) →
    step s = .next { s with input := rest, now := p.now, rsp := some ⟨.illegalCmd, 0⟩ } ∧
    codeNumber .illegalCmd = 15

/-- R31: while a response is pending no command is accepted, whatever is offered; the response is taken
when the host is ready for it. With nothing offered nothing happens (the ports as log 1 models them). -/
def Obligations.HandshakeHoldsCommands : Prop :=
  ∀ (s : State) (p : PortSample) (rest : List PortSample), s.input = p :: rest → p.reset = false →
    (∀ r, s.rsp = some r → step s = .next { s with input := rest, rsp := if p.rspReady then none else some r }) ∧
    (s.rsp = none → p.cmdValid = false → step s = .next { s with input := rest })

/-- R59, R318: RESET gives the reset state whatever is presented or pending. The values of `now`, `rsp` and
`input` are the model's choices (logs 1, 2, 8). -/
def Obligations.ResetOverridesEverything : Prop :=
  ∀ (s : State) (p : PortSample) (rest : List PortSample), s.input = p :: rest → p.reset = true →
    step s = .next
      { fb := [], mb := [], xb := List.replicate 32 0, xbCnt := 0, acc := 0, pos := 0, found := false,
        res := ⟨false, .classic, .unchecked, 0, 0, 0, 0, false, 0, 0, 0⟩, interval := 30, maxRetx := 2, q := [],
        tx := ⟨List.replicate 15 0, 0, 0, 0, false, false⟩, now := 0, rsp := none, input := rest }

/-- R310: the block never stops; every step from every state gives a next state. -/
def Obligations.StepAlwaysNext : Prop := ∀ s : State, ∃ t, step s = .next t

/-- R312, R310: every command, on every state, ends with one response whose code is one its row lists. -/
def Obligations.EveryCommandAnswersItsCodes : Prop :=
  ∀ (i : Instr) (s : State), ∃ t r, exec i s = .next t ∧ t.rsp = some r ∧ r.code ∈ possibleCodes i

/-- R62: a command writes nothing outside its row, the column depending on whether it answered OK. -/
def Obligations.WriteSetFrame : Prop :=
  ∀ (i : Instr) (s t : State) (r : Response), exec i s = .next t → t.rsp = some r →
    t.now = s.now ∧ t.input = s.input ∧
    ∀ d, d ∉ (if r.code = .ok then writesOnSuccess i else writesOnFailure i) → SameIn s t d

/-- R62: a command reads nothing outside its row: two states that agree on it get the same response, and
each destination is left alone in both or gets the same value (FBPUSH: the same bits appended). -/
def Obligations.ReadSetDeterminesEffect : Prop :=
  ∀ (i : Instr) (s s' t t' : State), AgreeOnReads s s' i → exec i s = .next t → exec i s' = .next t' →
    t.rsp = t'.rsp ∧
    (∀ d, (d ≠ .fb ∨ i = .fbclr) → (SameIn s t d ∧ SameIn s' t' d) ∨ SameIn t t' d) ∧
    (i ≠ .fbclr → ∃ bits, t.fb = s.fb ++ bits ∧ t'.fb = s'.fb ++ bits)

/-- R314: a failing command leaves its destination empty or all zero, and one answered BAD_OPERAND,
NO_READING or QUEUE_FULL changes no state. -/
def Obligations.FailureClearsDestination : Prop :=
  ∀ (i : Instr) (s t : State) (r : Response), exec i s = .next t → t.rsp = some r → r.code ≠ .ok →
    (∀ d ∈ writesOnFailure i, Cleared t d) ∧
    (r.code ∈ [Code.badOperand, Code.noReading, Code.queueFull] → t = { s with rsp := some r }) ∧
    SameIn s t .fb ∧ SameIn s t .q ∧ SameIn s t .interval ∧ SameIn s t .maxRetx

/-- R60: the invariants of 10_state.md hold after every step from a state in which they hold. -/
def Obligations.StepKeepsInvariant : Prop := ∀ s t : State, s.Inv → step s = .next t → t.Inv

/-- R60: the invariants of 10_state.md hold in the reset state. -/
def Obligations.ResetMeetsInvariant : Prop := State.reset.Inv

/-- R61: only QADD and QDUE read NOW. -/
def Obligations.NowReadByQueueOnly : Prop :=
  ∀ (i : Instr) (s t : State) (n : Time), i ≠ .qadd → i ≠ .qdue → exec i s = .next t →
    exec i { s with now := n } = .next { t with now := n }

/-- R99: CSRR and QSIZE change no state, so CSRR twice answers the same; a command other than FBPUSH and
QDUE, issued again with the same NOW, leaves the state it left, and answers the same. -/
def Obligations.RepeatedCommandIdempotent : Prop :=
  (∀ (a : Byte) (s : State), ∃ r, exec (.csrr a) s = .next { s with rsp := some r } ∧
    exec (.csrr a) { s with rsp := some r } = .next { s with rsp := some r }) ∧
  (∀ s : State, ∃ r, exec .qsize s = .next { s with rsp := some r }) ∧
  ∀ (i : Instr) (s t : State), (∀ n d, i ≠ .fbpush n d) → i ≠ .qdue → exec i s = .next t → exec i t = .next t

/-- R101: a program's command, reached after the commands before it were issued through the ports, sees
exactly the state they left one after the other, and nothing of the commands after it. The samples by
which a program is presented are the model's choice (log 1). -/
def Obligations.ProgramRunsSerially : Prop :=
  ∀ (before after : List (Word × Time)) (cmd : Word) (now : Time) (s : State), s.rsp = none →
    ∃ u, serial { s with input := [] } before = .next u ∧
      Host.Core.run Sys2Proof.core (2 * before.length + 1)
          { s with input := present (before ++ (cmd, now) :: after) } =
        accept { u with input := takeSample :: present after } cmd now

/-! ## Frame buffer -/

/-- R151: FBCLR empties FB, answers (OK, 0), touches nothing else, and every word of the FB window then
reads 0. -/
def Obligations.FbclrEmptiesFrame : Prop :=
  decode 0x01000000#32 = .ok .fbclr ∧
  ∀ s : State, ∃ t, exec .fbclr s = .next t ∧ t = { s with fb := [], rsp := some ⟨.ok, 0⟩ } ∧
    csrRead t 0x04 = some 0 ∧ ∀ w : Nat, w < 8 → csrRead t (BitVec.ofNat 8 (0x28 + w)) = some 0

/-- R152: FBPUSH appends d[7], d[6], …, d[8−n] when n is 1 to 8 and they fit in 256 bits, answering the
new length; otherwise it answers BAD_OPERAND and changes nothing. -/
def Obligations.FbpushAppendsTopBits : Prop :=
  ∀ (n : BitVec 4) (d : Byte) (s : State),
    decode (BitVec.ofNat 32 (0x02000000 + n.toNat * 0x100 + d.toNat)) = .ok (.fbpush n d) ∧
    (1 ≤ n.toNat ∧ n.toNat ≤ 8 ∧ s.fb.length + n.toNat ≤ 256 →
      ∃ bits : List Bool, bits.length = n.toNat ∧ (∀ k, k < n.toNat → bits.getD k false = d.getLsbD (7 - k)) ∧
        exec (.fbpush n d) s =
          .next { s with fb := s.fb ++ bits, rsp := some ⟨.ok, BitVec.ofNat 32 (s.fb.length + n.toNat)⟩ }) ∧
    (n.toNat < 1 ∨ 8 < n.toNat ∨ 256 < s.fb.length + n.toNat →
      exec (.fbpush n d) s = .next { s with rsp := some ⟨.badOperand, 0⟩ })

/-- R150: FBCLR and then pushes of 1 to 8 bits leave the frame the pushed bits make, in order, whatever
the split, and nothing else is changed. -/
def Obligations.AnySplitLoadsTheFrame : Prop :=
  ∀ (pushes : List (BitVec 4 × Byte)) (s : State),
    (∀ p ∈ pushes, 1 ≤ p.1.toNat ∧ p.1.toNat ≤ 8) → (pushes.map fun p => p.1.toNat).sum ≤ 256 →
    ∃ t, execAll s (.fbclr :: pushes.map fun p => .fbpush p.1 p.2) = .next t ∧
      t.fb = pushes.flatMap (fun p => (fieldBits p.2).take p.1.toNat) ∧
      t = { s with fb := t.fb, rsp := some ⟨.ok, BitVec.ofNat 32 t.fb.length⟩ }

/-- R141: the expansion of `FBLOAD n : h` leaves in FB the first n bits of the string of digits. -/
def Obligations.FbloadLoadsDigits : Prop :=
  ∀ (n : Nat) (digits : List (BitVec 4)) (s : State), n ≤ 4 * digits.length → n ≤ 256 →
    ∃ is t, assemble (.fbload n digits) = some is ∧ execAll s is = .next t ∧
      t.fb = (digits.flatMap fieldBits).take n ∧ t = { s with fb := t.fb, rsp := t.rsp }

/-! ## Bit utilities -/

/-- R160, R162, R163: EXTF and EXTM copy the bits off, …, off + cnt − 1 of FB and MB left-justified into
XB, the rest of XB zero, XB_CNT = ⌈cnt/8⌉; a range beyond the buffer's length clears XB and answers
ABORT_LENGTH. -/
def Obligations.ExtractCopiesBits : Prop :=
  ∀ (cnt off : BitVec 12) (s : State), s.fb.length ≤ 256 → s.mb.length ≤ 128 →
    decode (BitVec.ofNat 32 (0x10000000 + cnt.toNat * 0x1000 + off.toNat)) = .ok (.extf cnt off) ∧
    decode (BitVec.ofNat 32 (0x11000000 + cnt.toNat * 0x1000 + off.toNat)) = .ok (.extm cnt off) ∧
    ∀ src i, (src = s.fb ∧ i = Instr.extf cnt off) ∨ (src = s.mb ∧ i = Instr.extm cnt off) →
      (off.toNat + cnt.toNat ≤ src.length →
        ∃ t, exec i s = .next t ∧ t.xb.length = 32 ∧ t.xbCnt.toNat = (cnt.toNat + 7) / 8 ∧
          (∀ k, (bitsOf t.xb).getD k false = if k < cnt.toNat then src.getD (off.toNat + k) false else false) ∧
          t = { s with
                xb := t.xb, xbCnt := t.xbCnt, rsp := some ⟨.ok, BitVec.ofNat 32 ((cnt.toNat + 7) / 8)⟩ }) ∧
      (src.length < off.toNat + cnt.toNat →
        exec i s = .next { s with xb := List.replicate 32 0, xbCnt := 0, rsp := some ⟨.abortLength, 0⟩ })

/-- R167: CRC8 over the first count bytes of XB goes to ACC: the seed for no bytes, and for one byte more
eight steps of shift-and-subtract on the register with the byte added in; a count above XB_CNT clears ACC
and answers ABORT_LENGTH. -/
def Obligations.Crc8FoldsBytes : Prop :=
  ∀ (poly init : Byte) (s : State),
    (∀ count : Byte,
      decode (BitVec.ofNat 32 (0x12000000 + count.toNat * 0x10000 + poly.toNat * 0x100 + init.toNat)) =
        .ok (.crc8 count poly init)) ∧
    ∃ c : Nat → Byte, c 0 = init ∧
      (∀ k, k < s.xb.length → c (k + 1) =
        (fun x : Byte => if x.getLsbD 7 then x <<< 1 ^^^ poly else x <<< 1)^[8] (c k ^^^ s.xb.getD k 0)) ∧
      ∀ count : Byte,
        (count.toNat ≤ s.xbCnt.toNat → count.toNat ≤ s.xb.length →
          exec (.crc8 count poly init) s = .next
            { s with acc := c count.toNat, rsp := some ⟨.ok, BitVec.ofNat 32 (c count.toNat).toNat⟩ }) ∧
        (s.xbCnt.toNat < count.toNat →
          exec (.crc8 count poly init) s = .next { s with acc := 0, rsp := some ⟨.abortLength, 0⟩ })

/-- R166: "`poly` is the low 8 bits of the degree-8 divisor": the CRC is the remainder of the message times
x^8, the seed added to its first byte, by x^8 + poly over GF(2). -/
def Obligations.Crc8IsPolynomialRemainder : Prop :=
  ∀ (B : List Byte) (poly init : Byte),
    let P : Byte → Polynomial (ZMod 2) := fun b =>
      ∑ k ∈ Finset.range 8, if b.getLsbD k then (Polynomial.X : Polynomial (ZMod 2)) ^ k else 0
    P (crc8 B B.length poly init) =
      (P init * Polynomial.X ^ (8 * B.length) +
        ∑ j ∈ Finset.range B.length, P (B.getD j 0) * Polynomial.X ^ (8 * (B.length - j))).modByMonic
        (Polynomial.X ^ 8 + P poly)

/-- R168: data followed by its CRC leaves 0; the difference of two CRCs depends only on the difference of
the data; with poly 0x07 no single-bit change of the data or of the check byte goes unseen. -/
def Obligations.Crc8DetectsChanges : Prop :=
  (∀ (B : List Byte) (p i : Byte), crc8 (B ++ [crc8 B B.length p i]) (B.length + 1) p i = 0) ∧
  (∀ (B B' C C' : List Byte) (p i : Byte), B.length = B'.length → B.length = C.length → B.length = C'.length →
    (∀ j, B.getD j 0 ^^^ B'.getD j 0 = C.getD j 0 ^^^ C'.getD j 0) →
    crc8 B B.length p i ^^^ crc8 B' B.length p i = crc8 C B.length p i ^^^ crc8 C' B.length p i) ∧
  (∀ (B : List Byte) (i check : Byte) (j k : Nat), crc8 B B.length 0x07 i = check → k < 8 →
    (j < B.length → crc8 (B.set j (B.getD j 0 ^^^ BitVec.twoPow 8 k)) B.length 0x07 i ≠ check) ∧
    crc8 B B.length 0x07 i ≠ check ^^^ BitVec.twoPow 8 k)

/-- R170, R171: CKSUM puts the sum of the first count bytes of XB modulo 256 in ACC; a count above XB_CNT
clears ACC and answers ABORT_LENGTH. -/
def Obligations.CksumSumsBytes : Prop :=
  ∀ (count : Byte) (s : State), decode (BitVec.ofNat 32 (0x13000000 + count.toNat * 0x10000)) = .ok (.cksum count) ∧
    (count.toNat ≤ s.xbCnt.toNat → count.toNat ≤ s.xb.length →
      ∃ v : Byte, v.toNat = (∑ j ∈ Finset.range count.toNat, (s.xb.getD j 0).toNat) % 256 ∧
        exec (.cksum count) s = .next { s with acc := v, rsp := some ⟨.ok, BitVec.ofNat 32 v.toNat⟩ }) ∧
    (s.xbCnt.toNat < count.toNat →
      exec (.cksum count) s = .next { s with acc := 0, rsp := some ⟨.abortLength, 0⟩ })

/-- R173, R174: XORF puts in each bit of ACC the parity of that bit over the first count bytes of XB; a
count above XB_CNT clears ACC and answers ABORT_LENGTH. -/
def Obligations.XorfFoldsParity : Prop :=
  ∀ (count : Byte) (s : State), decode (BitVec.ofNat 32 (0x14000000 + count.toNat * 0x10000)) = .ok (.xorf count) ∧
    (count.toNat ≤ s.xbCnt.toNat → count.toNat ≤ s.xb.length →
      ∃ v : Byte,
        (∀ k, v.getLsbD k =
          decide (((Finset.range count.toNat).filter fun j => (s.xb.getD j 0).getLsbD k = true).card % 2 = 1)) ∧
        exec (.xorf count) s = .next { s with acc := v, rsp := some ⟨.ok, BitVec.ofNat 32 v.toNat⟩ }) ∧
    (s.xbCnt.toNat < count.toNat →
      exec (.xorf count) s = .next { s with acc := 0, rsp := some ⟨.abortLength, 0⟩ })

/-! ## Pattern matcher and Manchester decoder -/

/-- R190, R191: FINDP reports the least offset below win at which sixteen bits inside the frame are the
marker, high byte first; with none it clears FOUND and POS and answers NOT_FOUND. -/
def Obligations.FindpReportsLeastOffset : Prop :=
  ∀ (hi lo win : Byte) (s : State), s.fb.length ≤ 256 →
    decode (BitVec.ofNat 32 (0x15000000 + hi.toNat * 0x10000 + lo.toNat * 0x100 + win.toNat)) =
      .ok (.findp hi lo win) ∧
    let hit : Nat → Prop := fun k =>
      k < win.toNat ∧ k + 16 ≤ s.fb.length ∧
        ∀ t, t < 16 → s.fb.getD (k + t) false = if t < 8 then hi.getLsbD (7 - t) else lo.getLsbD (15 - t)
    (∀ k, hit k → (∀ j, j < k → ¬ hit j) →
      ∃ t, exec (.findp hi lo win) s = .next t ∧ t.pos.toNat = k ∧
        t = { s with found := true, pos := t.pos, rsp := some ⟨.ok, BitVec.ofNat 32 k⟩ }) ∧
    ((∀ k, ¬ hit k) →
      exec (.findp hi lo win) s = .next { s with found := false, pos := 0, rsp := some ⟨.notFound, 0⟩ })

/-- R192: after k zero bits, a marker whose first bit is 1 is found at exactly offset k, for every window
that reaches it. -/
def Obligations.PaddedMarkerFoundAtOffset : Prop :=
  ∀ (hi lo win : Byte) (k : Nat) (tail : List Bool) (s : State),
    k < 16 → k < win.toNat → hi.getLsbD 7 = true →
    s.fb = List.replicate k false ++ markerBits hi lo ++ tail →
    exec (.findp hi lo win) s =
      .next { s with found := true, pos := BitVec.ofNat 8 k, rsp := some ⟨.ok, BitVec.ofNat 32 k⟩ }

/-- R195, R196, R197: MAND and MANDI decode the nout pairs after the preamble, (1,0) to 1 and (0,1) to 0,
MANDI inverted; an illegal pair empties MB and answers MAN_VIOLATION with the least index; a region beyond
the frame empties MB and answers ABORT_LENGTH before any pair is examined. -/
def Obligations.ManchesterDecodesPairs : Prop :=
  ∀ (pre nout : BitVec 12) (s : State),
    decode (BitVec.ofNat 32 (0x16000000 + pre.toNat * 0x1000 + nout.toNat)) = .ok (.mand pre nout) ∧
    decode (BitVec.ofNat 32 (0x17000000 + pre.toNat * 0x1000 + nout.toNat)) = .ok (.mandi pre nout) ∧
    let legal : Nat → Prop := fun j =>
      s.fb.getD (pre.toNat + 2 * j) false ≠ s.fb.getD (pre.toNat + 2 * j + 1) false
    ∀ inv i, (inv = false ∧ i = Instr.mand pre nout) ∨ (inv = true ∧ i = Instr.mandi pre nout) →
      (s.fb.length < pre.toNat + 2 * nout.toNat →
        exec i s = .next { s with mb := [], rsp := some ⟨.abortLength, 0⟩ }) ∧
      (pre.toNat + 2 * nout.toNat ≤ s.fb.length → (∀ j, j < nout.toNat → legal j) →
        ∃ bits : List Bool, bits.length = nout.toNat ∧
          (∀ j, j < nout.toNat → bits.getD j false = (s.fb.getD (pre.toNat + 2 * j) false ^^ inv)) ∧
          exec i s = .next { s with mb := bits, rsp := some ⟨.ok, BitVec.ofNat 32 nout.toNat⟩ }) ∧
      (pre.toNat + 2 * nout.toNat ≤ s.fb.length →
        ∀ j, j < nout.toNat → ¬ legal j → (∀ m, m < j → legal m) →
          exec i s = .next { s with mb := [], rsp := some ⟨.manViolation, BitVec.ofNat 32 j⟩ })

/-- R197: MANDI answers what MAND answers, and on success its MB is the complement of MAND's. -/
def Obligations.MandiComplementsMand : Prop :=
  ∀ (pre nout : BitVec 12) (s : State), ∃ t, exec (.mand pre nout) s = .next t ∧
    exec (.mandi pre nout) s = .next { t with mb := t.mb.map not }

/-- R198 (c): after a MAND that answered OK, inverting one symbol of the consumed region makes it answer
MAN_VIOLATION with the index of that pair; inverting both symbols of a pair inverts that output bit. -/
def Obligations.SymbolErrorDetected : Prop :=
  ∀ (pre nout : BitVec 12) (s t : State) (d : Word), exec (.mand pre nout) s = .next t → t.rsp = some ⟨.ok, d⟩ →
    (∀ b, pre.toNat ≤ b → b < pre.toNat + 2 * nout.toNat →
      exec (.mand pre nout) { s with fb := flipBit s.fb b } =
        .next { s with
                fb := flipBit s.fb b, mb := []
                rsp := some ⟨.manViolation, BitVec.ofNat 32 ((b - pre.toNat) / 2)⟩ }) ∧
    (∀ j, j < nout.toNat →
      let fb' := flipBit (flipBit s.fb (pre.toNat + 2 * j)) (pre.toNat + 2 * j + 1)
      exec (.mand pre nout) { s with fb := fb' } = .next { t with fb := fb', mb := flipBit t.mb j })

/-! ## Variant decoders and dispatcher -/

/-- R213, R216: DECC of a classic frame, its last byte the CRC of the seven before it, puts the fields in
RES, the flags cut to their low 8 bits; the sync nibble does not matter. -/
def Obligations.DeccDecodesClassicFrame : Prop :=
  ∀ (sync : BitVec 4) (flags : BitVec 12) (id : BitVec 28) (press temp crc : Byte) (s : State),
    s.fb = fieldBits sync ++ classicPayload flags id press temp crc →
    crc = crc8 (classicData flags id press temp) 7 0x07 0xF0 →
    exec .decc s = .next
      { s with
        res := ⟨true, .classic, .crc, BitVec.ofNat 32 id.toNat, BitVec.ofNat 32 (flags.toNat % 256),
          BitVec.ofNat 10 press.toNat, temp, true, crc, 0, 0⟩
        rsp := some ⟨.ok, BitVec.ofNat 32 id.toNat⟩ }

/-- R211, R316: what DECC refuses, in the order of its checks: another length than 68, then an all-zero
payload, then a CRC that does not match; RES is cleared. -/
def Obligations.DeccRefusesInOrder : Prop :=
  ∀ s : State,
    (s.fb.length ≠ 68 →
      exec .decc s = .next { s with res := Reading.zero, rsp := some ⟨.abortLength, 0⟩ }) ∧
    (∀ sync : BitVec 4, s.fb = fieldBits sync ++ List.replicate 64 false →
      exec .decc s = .next { s with res := Reading.zero, rsp := some ⟨.failSanity, 0⟩ }) ∧
    (∀ (sync : BitVec 4) (flags : BitVec 12) (id : BitVec 28) (press temp crc : Byte),
      s.fb = fieldBits sync ++ classicPayload flags id press temp crc →
      classicPayload flags id press temp crc ≠ List.replicate 64 false →
      crc ≠ crc8 (classicData flags id press temp) 7 0x07 0xF0 →
      exec .decc s = .next { s with res := Reading.zero, rsp := some ⟨.failMic, 0⟩ })

/-- R218: of a frame that DECC accepts, inverting any one of the frame bits 4 to 67 gives FAIL_MIC (unless
the payload becomes all zero), inverting one of the bits 0 to 3 changes nothing. -/
def Obligations.DeccCatchesSingleBitFlips : Prop :=
  ∀ (s t : State) (b : Nat), exec .decc s = .next t → t.res.valid = true →
    (4 ≤ b → b < 68 → (∃ k, 4 ≤ k ∧ k < 68 ∧ (flipBit s.fb b).getD k false = true) →
      exec .decc { s with fb := flipBit s.fb b } =
        .next { s with fb := flipBit s.fb b, res := Reading.zero, rsp := some ⟨.failMic, 0⟩ }) ∧
    (b < 4 → exec .decc { s with fb := flipBit s.fb b } = .next { t with fb := flipBit s.fb b })

/-- R221, R223, R224: DECX of a frame that has the manufacturer marker first at an offset below 161 and
after it a payload, not all zero, whose tenth byte is the sum of the nine before it, puts the fields in
RES; bits before the marker and after the payload do not matter. -/
def Obligations.DecxDecodesExtendedFrame : Prop :=
  ∀ (lead tail : List Bool) (flags : Word) (id : BitVec 24) (press temp sum : Byte) (s : State),
    s.fb = lead ++ markerBits Config.extMarkerHi Config.extMarkerLo ++ extPayload flags id press temp sum ++ tail →
    lead.length < 161 →
    (∀ k, k < lead.length → (s.fb.drop k).take 16 ≠ markerBits Config.extMarkerHi Config.extMarkerLo) →
    extPayload flags id press temp sum ≠ List.replicate 80 false →
    sum.toNat = ((extData flags id press temp).map BitVec.toNat).sum % 256 →
    exec .decx s = .next
      { s with
        res := ⟨true, .ext, .checksum, BitVec.ofNat 32 id.toNat, flags, BitVec.ofNat 10 press.toNat, temp, true,
          sum, 0, 0⟩
        rsp := some ⟨.ok, BitVec.ofNat 32 id.toNat⟩ }

/-- R211, R316: what DECX refuses, in the order of its checks: fewer than 80 bits; no marker in the
window; fewer than 80 bits after the first marker; an all-zero payload; a checksum that does not match. -/
def Obligations.DecxRefusesInOrder : Prop :=
  ∀ s : State,
    let marker := markerBits Config.extMarkerHi Config.extMarkerLo
    let refuses : Code → Prop := fun c => exec .decx s = .next { s with res := Reading.zero, rsp := some ⟨c, 0⟩ }
    (s.fb.length < 80 → refuses .abortLength) ∧
    (80 ≤ s.fb.length → (∀ k, k < 161 → (s.fb.drop k).take 16 ≠ marker) → refuses .failSanity) ∧
    (∀ lead tail : List Bool, 80 ≤ s.fb.length → s.fb = lead ++ marker ++ tail → lead.length < 161 →
      (∀ k, k < lead.length → (s.fb.drop k).take 16 ≠ marker) →
      (tail.length < 80 → refuses .abortLength) ∧
      (80 ≤ tail.length → tail.take 80 = List.replicate 80 false → refuses .failSanity) ∧
      (∀ (flags : Word) (id : BitVec 24) (press temp sum : Byte) (rest : List Bool),
        tail = extPayload flags id press temp sum ++ rest →
        extPayload flags id press temp sum ≠ List.replicate 80 false →
        sum.toNat ≠ ((extData flags id press temp).map BitVec.toNat).sum % 256 → refuses .failMic))

/-- R232, R233: DECM of the preamble followed by the symbols of the 39 field bits puts the fields in RES.
RES.DIAG is left as the model computes it (93_implementation_defined.md U7). -/
def Obligations.DecmDecodesManchesterFrame : Prop :=
  ∀ (flags : BitVec 3) (id : BitVec 24) (press : BitVec 10) (parity : BitVec 2) (s : State),
    s.fb = fieldBits Config.manPreamble ++ manSymbols (manFields flags id press parity) →
    ∃ diag : Byte, exec .decm s = .next
      { s with
        res := ⟨true, .man, .unchecked, BitVec.ofNat 32 id.toNat, BitVec.ofNat 32 flags.toNat, press, 0, false, 0,
          diag, parity⟩
        rsp := some ⟨.ok, BitVec.ofNat 32 id.toNat⟩ }

/-- R236: the diagnostic value is the XOR of the five bytes that hold the 39 decoded bits left-justified
(93_implementation_defined.md U7 lets a model leave it open; log 5). -/
def Obligations.DecmDiagIsXorOfBytes : Prop :=
  ∀ (flags : BitVec 3) (id : BitVec 24) (press : BitVec 10) (parity : BitVec 2) (B : List Byte) (s t : State),
    s.fb = fieldBits Config.manPreamble ++ manSymbols (manFields flags id press parity) →
    bitsOf B = manFields flags id press parity ++ [false] → exec .decm s = .next t →
    t.res.diag = B.getD 0 0 ^^^ B.getD 1 0 ^^^ B.getD 2 0 ^^^ B.getD 3 0 ^^^ B.getD 4 0

/-- R211, R316: what DECM refuses, in the order of its checks: another length than 114; another preamble;
78 zero symbols; an illegal pair. -/
def Obligations.DecmRefusesInOrder : Prop :=
  ∀ s : State,
    let refuses : Code → Prop := fun c => exec .decm s = .next { s with res := Reading.zero, rsp := some ⟨c, 0⟩ }
    (s.fb.length ≠ 114 → refuses .abortLength) ∧
    (s.fb.length = 114 → s.fb.take 36 ≠ fieldBits Config.manPreamble → refuses .failSanity) ∧
    (s.fb = fieldBits Config.manPreamble ++ List.replicate 78 false → refuses .failSanity) ∧
    (∀ (symbols : List Bool) (j : Nat), s.fb = fieldBits Config.manPreamble ++ symbols → symbols.length = 78 →
      symbols ≠ List.replicate 78 false → j < 39 →
      symbols.getD (2 * j) false = symbols.getD (2 * j + 1) false → refuses .failMic)

/-- R250, R251: the state after DISP is the state after the first of DECC, DECX, DECM that accepts the
frame; if none does, RES is cleared and the data of NO_MATCH are the three failure codes. -/
def Obligations.DispTakesFirstReading : Prop :=
  decode 0x2F000000#32 = .ok .disp ∧
  ∀ s : State, ∃ (c x m : State) (rc rx rm : Response),
    exec .decc s = .next c ∧ exec .decx s = .next x ∧ exec .decm s = .next m ∧
    c.rsp = some rc ∧ x.rsp = some rx ∧ m.rsp = some rm ∧
    exec .disp s = .next
      (if rc.code = .ok then c else if rx.code = .ok then x else if rm.code = .ok then m
       else { s with
              res := Reading.zero
              rsp := some ⟨.noMatch, BitVec.ofNat 32
                ((codeNumber rc.code).toNat + 4 * (codeNumber rx.code).toNat + 16 * (codeNumber rm.code).toNat)⟩ })

/-- R252: whatever the four open values are, on a frame that is not one both DECX and DECM accept the
order of the three decoders does not matter; on one that both accept (a 114-bit frame) the reading is
DECX's. DECC accepts no frame that DECX or DECM accepts. -/
def Obligations.DispatchOrderSeldomMatters : Prop :=
  (∀ s : State, exec .disp s =
    dispatchIntoRes
      (Config.withOpen Config.classicSyncValue Config.extMarkerHi Config.extMarkerLo Config.manPreamble) s) ∧
  ∀ (sync : BitVec 4) (hi lo : Byte) (preamble : BitVec 36) (s : State),
    let p := Config.withOpen sync hi lo preamble
    let accepts : Variant → Prop := fun v => ∃ r, decodeVariant p s.fb v = .ok r
    (accepts .classic → s.fb.length = 68) ∧ (accepts .man → s.fb.length = 114) ∧ (accepts .ext → 80 ≤ s.fb.length) ∧
    ¬ (accepts .classic ∧ accepts .ext) ∧ ¬ (accepts .classic ∧ accepts .man) ∧
    (accepts .ext → accepts .man → s.fb.length = 114 ∧ ∃ r, decodeVariant p s.fb .ext = .ok r ∧
      dispatchIntoRes p s = .next { s with res := r, rsp := some ⟨.ok, r.id⟩ }) ∧
    (¬ (accepts .ext ∧ accepts .man) →
      ∀ order : List Variant, order.Perm [.classic, .ext, .man] →
        dispatchIntoRes { p with dispatchOrder := order } s = dispatchIntoRes p s)

/-- R253: a QADD after a DISP that answered NO_MATCH answers NO_READING and changes nothing. -/
def Obligations.NoMatchQueuesNothing : Prop :=
  ∀ (s t : State) (d : Word), exec .disp s = .next t → t.rsp = some ⟨.noMatch, d⟩ →
    exec .qadd t = .next { t with rsp := some ⟨.noReading, 0⟩ }

/-! ## Queue -/

/-- R262, R263: QADD without a reading answers NO_READING; it overwrites the first entry that has the id,
in its place; else appends below 12 entries; else answers QUEUE_FULL; the entry has the reading's fields,
next = NOW + INTERVAL modulo 2^32, count 0. -/
def Obligations.QaddAddsOrUpdates : Prop :=
  decode 0x30000000#32 = .ok .qadd ∧
  ∀ (s : State) (e : Entry),
    e.id = s.res.id → e.flags = s.res.flags → e.press = s.res.press →
    e.temp = (if s.res.tempValid then s.res.temp else 0) → e.mic = s.res.mic →
    e.next.toNat = (s.now.toNat + s.interval.toNat) % 2 ^ 32 → e.count = 0 →
    (s.res.valid = false → exec .qadd s = .next { s with rsp := some ⟨.noReading, 0⟩ }) ∧
    (s.res.valid = true →
      (∀ (before after : List Entry) (x : Entry), s.q = before ++ x :: after → x.id = e.id →
        (∀ y ∈ before, y.id ≠ e.id) →
        exec .qadd s = .next
          { s with q := before ++ e :: after, rsp := some ⟨.ok, BitVec.ofNat 32 s.q.length⟩ }) ∧
      ((∀ y ∈ s.q, y.id ≠ e.id) → s.q.length < 12 →
        exec .qadd s = .next { s with q := s.q ++ [e], rsp := some ⟨.ok, BitVec.ofNat 32 (s.q.length + 1)⟩ }) ∧
      ((∀ y ∈ s.q, y.id ≠ e.id) → 12 ≤ s.q.length →
        exec .qadd s = .next { s with rsp := some ⟨.queueFull, BitVec.ofNat 32 s.q.length⟩ }))

/-- R264: a QADD that answers OK leaves the id queued; a second QADD for the same id, on any state that
still has the id queued, whatever was added, serviced or evicted between, leaves the size and the order, and
sets the entry's count to 0, its next to the second NOW + INTERVAL and its payload to the second reading's. -/
def Obligations.SecondSightingUpdates : Prop :=
  ∀ (s t : State) (d : Word), exec .qadd s = .next t → t.rsp = some ⟨.ok, d⟩ →
    s.res.id ∈ t.q.map Entry.id ∧
    ∀ u : State, s.res.id ∈ u.q.map Entry.id → u.res.valid = true → u.res.id = s.res.id →
      ∃ v, exec .qadd u = .next v ∧ v.rsp = some ⟨.ok, BitVec.ofNat 32 u.q.length⟩ ∧
        v.q.length = u.q.length ∧ (v.q.map Entry.id) = u.q.map Entry.id ∧
        ∃ e ∈ v.q, e.id = s.res.id ∧ e.count = 0 ∧ e.next.toNat = (u.now.toNat + u.interval.toNat) % 2 ^ 32 ∧
          e.flags = u.res.flags ∧ e.press = u.res.press ∧ e.mic = u.res.mic ∧
          e.temp = if u.res.tempValid then u.res.temp else 0

/-- R265: readings with distinct ids, each QADD at a NOW of its own, fill an empty queue in the order
inserted, up to twelve; the thirteenth, at any NOW, is rejected and the twelve stay; one of the twelve ids is
still accepted. -/
def Obligations.ThirteenthIdRejected : Prop :=
  ∀ (s : State) (rs : List (Reading × Time)), s.q = [] → (∀ r ∈ rs, r.1.valid = true) →
    (rs.map fun r => r.1.id).Nodup → rs.length ≤ 12 →
    ∃ t, addAll s rs = .next t ∧ (t.q.map Entry.id = rs.map fun r => r.1.id) ∧
      (rs ≠ [] → t.rsp = some ⟨.ok, BitVec.ofNat 32 rs.length⟩) ∧
      (∀ (r : Reading) (n : Time), rs.length = 12 → r.valid = true → (r.id ∉ rs.map fun r => r.1.id) →
        exec .qadd { t with res := r, now := n } =
          .next { t with res := r, now := n, rsp := some ⟨.queueFull, 12⟩ }) ∧
      ∀ (r : Reading) (n : Time), rs.length = 12 → r.valid = true → (r.id ∈ rs.map fun r => r.1.id) →
        ∃ u, exec .qadd { t with res := r, now := n } = .next u ∧ u.rsp = some ⟨.ok, 12⟩ ∧
          u.q.map Entry.id = rs.map fun r => r.1.id

/-- R270 to R273: QDUE services the first entry in storage order whose next is at most NOW, whatever the
later deadlines: count + 1, next = NOW + INTERVAL modulo 2^32, removed when the count then exceeds
MAX_RETX, the later entries moving down one place; the transmit registers take the serviced entry. With
nothing due the transmit registers are cleared and Q is left. -/
def Obligations.QdueServicesFirstDue : Prop :=
  decode 0x31000000#32 = .ok .qdue ∧
  ∀ s : State,
    (∀ (before after : List Entry) (x e : Entry), s.q = before ++ x :: after →
      (∀ y ∈ before, s.now.toNat < y.next.toNat) → x.next.toNat ≤ s.now.toNat → x.count.toNat < 65535 →
      e = { x with count := e.count, next := e.next } → e.count.toNat = x.count.toNat + 1 →
      e.next.toNat = (s.now.toNat + s.interval.toNat) % 2 ^ 32 →
      exec .qdue s = .next
        { s with
          q := if s.maxRetx.toNat < x.count.toNat + 1 then before ++ after else before ++ e :: after
          tx := ⟨outboundFrame e, e.id, e.next, e.count, true, decide (s.maxRetx.toNat < x.count.toNat + 1)⟩
          rsp := some ⟨.ok, e.id⟩ }) ∧
    ((∀ y ∈ s.q, s.now.toNat < y.next.toNat) →
      exec .qdue s = .next { s with tx := Transmit.zero, rsp := some ⟨.noneDue, 0⟩ })

/-- R134, R272: the fifteen bytes of the outbound frame: five zeros, the flags, the low 24 bits of the id,
the low 8 bits of the pressure, the temperature, the integrity byte, most significant byte first. -/
def Obligations.OutboundFrameLayout : Prop :=
  ∀ e : Entry, (bitsOf (outboundFrame e)).length = 120 ∧
    bitsOf (outboundFrame e) = List.replicate 40 false ++ fieldBits e.flags ++ fieldBits (e.id.extractLsb' 0 24) ++
      fieldBits (e.press.extractLsb' 0 8) ++ fieldBits e.temp ++ fieldBits e.mic

/-- R273, R274: the life of an entry that a QADD added or updated and no QADD updates again, in any queue
whose ids are distinct. Polled at any times, it is serviced at most MAX_RETX + 1 times; its count is the
number of its services; it is queued exactly until the last of them. Polled at its own deadlines, INTERVAL
apart, while no other entry is due at them, it is transmitted at each with the counts 1, 2, 3, …,
MAX_RETX + 1, leaves the queue with the last of them, and the other entries stay as they were. -/
def Obligations.EntryLivesMaxRetxPlusOne : Prop :=
  ∀ (s a : State) (d : Word), (s.q.map Entry.id).Nodup → exec .qadd s = .next a → a.rsp = some ⟨.ok, d⟩ →
    (∀ ns : List Time, ∃ u, pollAll a ns = .next u ∧
      services s.res.id a ns ≤ s.maxRetx.toNat + 1 ∧
      (s.res.id ∈ u.q.map Entry.id ↔ services s.res.id a ns ≤ s.maxRetx.toNat) ∧
      ∀ e ∈ u.q, e.id = s.res.id → e.count.toNat = services s.res.id a ns) ∧
    let deadline : Nat → Time := fun j => s.now + BitVec.ofNat 32 ((j + 1) * s.interval.toNat)
    ((∀ y ∈ s.q, y.id ≠ s.res.id → ∀ j, j ≤ s.maxRetx.toNat → (deadline j).toNat < y.next.toNat) →
      ∀ k, k ≤ s.maxRetx.toNat →
        ∃ u, pollAll a ((List.range (k + 1)).map deadline) = .next u ∧
          u.tx.valid = true ∧ u.tx.id = s.res.id ∧ u.tx.count.toNat = k + 1 ∧
          u.tx.evicted = decide (k = s.maxRetx.toNat) ∧
          (u.q.filter fun y => y.id ≠ s.res.id) = (s.q.filter fun y => y.id ≠ s.res.id) ∧
          u.q.length = if k = s.maxRetx.toNat then a.q.length - 1 else a.q.length)

/-- R49, R53 (c): no command reorders the queue: the ids after it are those before it, or some of them in
the same order, or those and one more at the end. -/
def Obligations.QueueOrderPreserved : Prop :=
  ∀ (i : Instr) (s t : State), exec i s = .next t →
    (t.q.map Entry.id).Sublist (s.q.map Entry.id) ∨ t.q.map Entry.id = s.q.map Entry.id ++ [s.res.id]

/-- R276: the seconds until the next send, at the NOW of a QDUE that answered OK, are INTERVAL. -/
def Obligations.TelemetrySecondsAreInterval : Prop :=
  ∀ (s t : State) (d : Word), exec .qdue s = .next t → t.rsp = some ⟨.ok, d⟩ →
    (secondsUntilNextSend t s.now).toNat = s.interval.toNat ∧ t.tx.id = d ∧ t.tx.valid = true

/-- R278: QSIZE answers the number of entries, which CSR 0x03 reads too, and changes nothing. -/
def Obligations.QsizeReportsEntries : Prop :=
  decode 0x32000000#32 = .ok .qsize ∧
  ∀ s : State, exec .qsize s = .next { s with rsp := some ⟨.ok, BitVec.ofNat 32 s.q.length⟩ } ∧
    exec (.csrr 0x03) s = exec .qsize s

/-! ## Register access -/

/-- R93, R301: CSRR of an implemented address answers OK and the register's value, of any other
BAD_OPERAND, and in no case changes any state; the implemented addresses are those R93 does not list. -/
def Obligations.CsrrReadsImplemented : Prop :=
  ∀ (a : Byte) (s : State), decode (BitVec.ofNat 32 (0x40000000 + a.toNat * 0x10000)) = .ok (.csrr a) ∧
    (UnimplementedCsr a → exec (.csrr a) s = .next { s with rsp := some ⟨.badOperand, 0⟩ }) ∧
    (¬ UnimplementedCsr a →
      ∃ v, csrRead s a = some v ∧ exec (.csrr a) s = .next { s with rsp := some ⟨.ok, v⟩ })

/-- R88, R89, R91: the registers of the CSR map other than the windows, field by field. -/
def Obligations.CsrMapRegisters : Prop :=
  ∀ (s : State), s.Inv →
    ∃ r : Nat → Word, (∀ a, a < 0x40 → ¬ UnimplementedCsr (BitVec.ofNat 8 a) →
        csrRead s (BitVec.ofNat 8 a) = some (r a)) ∧
      (r 0x00).toNat = s.res.valid.toNat + 2 * s.found.toNat + 4 * s.tx.valid.toNat + 8 * s.tx.evicted.toNat ∧
      (r 0x01).toNat = s.interval.toNat ∧ (r 0x02).toNat = s.maxRetx.toNat ∧ (r 0x03).toNat = s.q.length ∧
      (r 0x04).toNat = s.fb.length ∧ (r 0x05).toNat = s.mb.length ∧ (r 0x06).toNat = s.xbCnt.toNat ∧
      (r 0x07).toNat = s.acc.toNat ∧ (r 0x08).toNat = s.pos.toNat ∧ (r 0x09).toNat = 12 ∧
      r 0x10 = s.res.id ∧ r 0x11 = s.res.flags ∧ (r 0x12).toNat = s.res.press.toNat ∧
      (r 0x13).toNat = s.res.temp.toNat + 256 * s.res.tempValid.toNat ∧
      (r 0x14).toNat = (variantCode s.res.variant).toNat + 4 * (integrityCode s.res.integrity).toNat +
        2 ^ 8 * s.res.mic.toNat + 2 ^ 16 * s.res.diag.toNat + 2 ^ 24 * s.res.parityRx.toNat ∧
      r 0x1C = s.tx.id ∧ r 0x1D = s.tx.next ∧ (r 0x1E).toNat = s.tx.count.toNat

/-- R86, R87, R90: the windows on FB and MB show bit 32w + t at bit 31 − t and 0 beyond the length; those
on XB and TX show four bytes, the lowest-numbered most significant, and 0 beyond the end. -/
def Obligations.CsrWindowsPackBuffers : Prop :=
  ∀ s : State,
    (∀ w t : Nat, t < 32 →
      (w < 8 → ∃ v, csrRead s (BitVec.ofNat 8 (0x28 + w)) = some v ∧
        v.getLsbD (31 - t) = s.fb.getD (32 * w + t) false) ∧
      (w < 4 → ∃ v, csrRead s (BitVec.ofNat 8 (0x30 + w)) = some v ∧
        v.getLsbD (31 - t) = s.mb.getD (32 * w + t) false)) ∧
    (∀ w k : Nat, k < 4 →
      (w < 8 → ∃ v, csrRead s (BitVec.ofNat 8 (0x20 + w)) = some v ∧
        v.extractLsb' (8 * (3 - k)) 8 = s.xb.getD (4 * w + k) 0) ∧
      (w < 4 → ∃ v, csrRead s (BitVec.ofNat 8 (0x18 + w)) = some v ∧
        v.extractLsb' (8 * (3 - k)) 8 = s.tx.frame.getD (4 * w + k) 0))

/-- R92: address 0x40 + 16·i + j shows field j of queue slot i, and 0 for a slot at or beyond QSIZE;
j = 8 to 15 are unimplemented. -/
def Obligations.QueueWindowShowsSlots : Prop :=
  ∀ (s : State) (i j : Nat), i < 12 →
    (j < 8 → ∃ v, csrRead s (BitVec.ofNat 8 (0x40 + 16 * i + j)) = some v ∧
      (∀ e, s.q[i]? = some e →
        v.toNat = [e.id.toNat, e.flags.toNat, e.press.toNat, e.temp.toNat, e.mic.toNat, e.next.toNat,
          e.count.toNat, 1].getD j 0) ∧
      (s.q.length ≤ i → v = 0)) ∧
    (8 ≤ j → j < 16 → csrRead s (BitVec.ofNat 8 (0x40 + 16 * i + j)) = none)

/-- R303: CSRW of 0x01 sets INTERVAL, of 0x02 sets MAX_RETX to the low byte; of any other address it
answers BAD_OPERAND and changes nothing. -/
def Obligations.CsrwWritesTwoRegisters : Prop :=
  ∀ (a : Byte) (imm : BitVec 16) (s : State),
    decode (BitVec.ofNat 32 (0x41000000 + a.toNat * 0x10000 + imm.toNat)) = .ok (.csrw a imm) ∧
    (a = 0x01 →
      exec (.csrw a imm) s = .next { s with interval := imm, rsp := some ⟨.ok, BitVec.ofNat 32 imm.toNat⟩ }) ∧
    (a = 0x02 →
      exec (.csrw a imm) s = .next
        { s with
          maxRetx := BitVec.ofNat 8 (imm.toNat % 256)
          rsp := some ⟨.ok, BitVec.ofNat 32 (imm.toNat % 256)⟩ }) ∧
    (a ≠ 0x01 → a ≠ 0x02 → exec (.csrw a imm) s = .next { s with rsp := some ⟨.badOperand, 0⟩ })

/-- R351: what a host sees of the reset state: INTERVAL 30, MAX_RETX 2, CAPACITY 12, every other
implemented register 0; QSIZE, QDUE, QADD, DISP and the decoders answer as for an empty block. -/
def Obligations.ResetSeenThroughCsrs : Prop :=
  (∀ a : Byte, ¬ UnimplementedCsr a →
    csrRead State.reset a = some (if a = 0x01 then 30 else if a = 0x02 then 2 else if a = 0x09 then 12 else 0)) ∧
  ∀ n : Time, ∀ p ∈ [(Instr.qsize, Code.ok, (0 : Word)), (.qdue, .noneDue, 0), (.qadd, .noReading, 0),
      (.disp, .noMatch, 0x15), (.decc, .abortLength, 0), (.decx, .abortLength, 0), (.decm, .abortLength, 0)],
    exec p.1 { State.reset with now := n } = .next { State.reset with now := n, rsp := some ⟨p.2.1, p.2.2⟩ }
end

