-- ==== Sys2Proof/Laws/Bits.lean ====
section
/-! SUPPORT. Bit sequences, their values, and their bytes. -/

namespace Sys2Proof.Machine

/-! ## val -/

@[simp] theorem val_nil : val [] = 0 := rfl

theorem val_cons (b : Bool) (l : List Bool) : val (b :: l) = b.toNat * 2 ^ l.length + val l := rfl

theorem val_lt (l : List Bool) : val l < 2 ^ l.length := by
  induction l with
  | nil => simp
  | cons b l ih =>
    have hb : b.toNat ≤ 1 := Bool.toNat_le b
    have h := Nat.mul_le_mul_right (2 ^ l.length) hb
    rw [val_cons, List.length_cons, Nat.pow_succ]
    omega

theorem val_append (a b : List Bool) : val (a ++ b) = val a * 2 ^ b.length + val b := by
  induction a with
  | nil => simp
  | cons x a ih => rw [List.cons_append, val_cons, val_cons, ih, List.length_append, Nat.pow_add]; ring

/-- Bit `i` of a value is the `i`-th bit from the end of the sequence. -/
theorem testBit_val (l : List Bool) (i : Nat) (hi : i < l.length) :
    (val l).testBit i = l.getD (l.length - 1 - i) false := by
  induction l with
  | nil => simp at hi
  | cons b l ih =>
    have hlt := val_lt l
    rw [val_cons, Nat.mul_comm]
    simp only [List.length_cons] at hi ⊢
    rw [Nat.testBit_two_pow_mul_add _ hlt]
    by_cases h : i < l.length
    · rw [if_pos h, ih h]
      obtain ⟨m, hm⟩ : ∃ m, l.length - 1 - i = m := ⟨_, rfl⟩
      rw [show l.length + 1 - 1 - i = m + 1 by omega, List.getD_cons_succ, hm]
    · have : i = l.length := by omega
      subst this
      cases b <;> simp

/-- Sequences of one length are equal when their values are. -/
theorem val_inj {a b : List Bool} (hl : a.length = b.length) (hv : val a = val b) : a = b := by
  apply List.ext_getElem hl
  intro i h1 h2
  have e1 := testBit_val a (a.length - 1 - i) (by omega)
  have e2 := testBit_val b (a.length - 1 - i) (by omega)
  rw [hv, e2, show a.length - 1 - (a.length - 1 - i) = i by omega,
    show b.length - 1 - (a.length - 1 - i) = i by omega] at e1
  simpa [List.getD_eq_getElem?_getD, h1, h2] using e1.symm

/-- A sequence has the value of another of its length exactly when it is that sequence. -/
theorem val_eq_iff {a b : List Bool} (hl : a.length = b.length) : val a = val b ↔ a = b :=
  ⟨val_inj hl, fun h => h ▸ rfl⟩

/-- The bits of a word made of a value. -/
theorem getLsbD_ofNat_val {w : Nat} (l : List Bool) (hl : l.length = w) (i : Nat) (hi : i < w) :
    (BitVec.ofNat w (val l)).getLsbD i = l.getD (w - 1 - i) false := by
  subst hl
  rw [BitVec.getLsbD_ofNat, testBit_val l i hi]
  simp [hi]

/-! ## slices -/

@[simp] theorem slice_length (s : List Bool) (a n : Nat) : (slice s a n).length = min n (s.length - a) := by
  simp [slice]

theorem slice_getD (s : List Bool) (a n k : Nat) (hk : k < n) : (slice s a n).getD k false = s.getD (a + k) false := by
  simp [slice, List.getD_eq_getElem?_getD, hk]

/-- The slice between two parts is the middle one. -/
theorem slice_append (a b c : List Bool) : slice (a ++ b ++ c) a.length b.length = b := by
  simp [slice]

theorem valAt_lt (s : List Bool) (a n : Nat) : valAt s a n < 2 ^ n :=
  lt_of_lt_of_le (val_lt _) (Nat.pow_le_pow_right (by omega) (by simp))

/-! ## fields and bytes -/

@[simp] theorem fieldBits_length {w : Nat} (x : BitVec w) : (fieldBits x).length = w := by simp [fieldBits]

theorem fieldBits_getD {w : Nat} (x : BitVec w) (k : Nat) (hk : k < w) :
    (fieldBits x).getD k false = x.getLsbD (w - 1 - k) := by
  simp [fieldBits, List.getD_eq_getElem?_getD, hk]

@[simp] theorem val_fieldBits {w : Nat} (x : BitVec w) : val (fieldBits x) = x.toNat := by
  have h : BitVec.ofNat w (val (fieldBits x)) = x := by
    apply BitVec.eq_of_getLsbD_eq
    intro i hi
    rw [getLsbD_ofNat_val _ (fieldBits_length x) i hi, fieldBits_getD _ _ (by omega)]
    congr 1
    omega
  have hlt := val_lt (fieldBits x)
  rw [fieldBits_length] at hlt
  rw [← h, BitVec.toNat_ofNat, Nat.mod_eq_of_lt hlt, h]

/-- A sequence is the bits of the word its value makes. -/
theorem fieldBits_ofNat_val {w : Nat} (l : List Bool) (hl : l.length = w) : fieldBits (BitVec.ofNat w (val l)) = l := by
  apply val_inj (by simp [hl])
  have hlt := val_lt l
  rw [val_fieldBits, BitVec.toNat_ofNat, Nat.mod_eq_of_lt (hl ▸ hlt)]

/-- The bits of a field are those of its upper part, then those of its lower part. -/
theorem fieldBits_split {n : Nat} (x : BitVec n) (lo w a b hi : Nat) (hw : w = a + b) (hh : hi = lo + b) :
    fieldBits (x.extractLsb' lo w) = fieldBits (x.extractLsb' hi a) ++ fieldBits (x.extractLsb' lo b) := by
  subst hw hh
  apply val_inj (by simp)
  rw [val_append, val_fieldBits, val_fieldBits, val_fieldBits, fieldBits_length]
  simp only [BitVec.extractLsb'_toNat, Nat.shiftRight_eq_div_pow]
  rw [Nat.pow_add, Nat.pow_add, Nat.mul_comm (2 ^ a), Nat.mod_mul, Nat.div_div_eq_div_mul]
  ring

/-- The bits of a concatenation. -/
theorem fieldBits_append {v w : Nat} (a : BitVec v) (b : BitVec w) :
    fieldBits (a ++ b) = fieldBits a ++ fieldBits b := by
  apply val_inj (by simp)
  rw [val_append, val_fieldBits, val_fieldBits, val_fieldBits, fieldBits_length, BitVec.toNat_append,
    ← Nat.shiftLeft_add_eq_or_of_lt b.isLt, Nat.shiftLeft_eq]

/-- A field is its own whole range. -/
theorem extractLsb'_whole {w : Nat} (x : BitVec w) : x.extractLsb' 0 w = x := by
  apply BitVec.eq_of_toNat_eq
  simp

theorem byteBits_eq_fieldBits (b : Byte) : byteBits b = fieldBits b := rfl

@[simp] theorem byteBits_length (b : Byte) : (byteBits b).length = 8 := by simp [byteBits]

@[simp] theorem bitsOf_nil : bitsOf [] = [] := rfl

@[simp] theorem bitsOf_cons (b : Byte) (B : List Byte) : bitsOf (b :: B) = byteBits b ++ bitsOf B := rfl

@[simp] theorem bitsOf_append (B C : List Byte) : bitsOf (B ++ C) = bitsOf B ++ bitsOf C := by
  simp [bitsOf]

@[simp] theorem bitsOf_length (B : List Byte) : (bitsOf B).length = 8 * B.length := by
  induction B with
  | nil => rfl
  | cons b B ih => simp [ih]; omega

/-- Bit `i` of a byte sequence is bit `7 - i mod 8` of byte `i / 8`. -/
theorem bitsOf_getD (B : List Byte) (i : Nat) : (bitsOf B).getD i false = (B.getD (i / 8) 0).getLsbD (7 - i % 8) := by
  induction B generalizing i with
  | nil => simp
  | cons b B ih =>
    rw [bitsOf_cons]
    by_cases h : i < 8
    · rw [List.getD_append _ _ _ _ (by simpa using h), byteBits_eq_fieldBits, fieldBits_getD _ _ h,
        Nat.div_eq_of_lt h, Nat.mod_eq_of_lt h]
      simp
    · rw [List.getD_append_right _ _ _ _ (by simp; omega), byteBits_length, ih,
        show i / 8 = (i - 8) / 8 + 1 by omega, show (i - 8) % 8 = i % 8 by omega, List.getD_cons_succ]

/-! ## packing -/

theorem packByte_getLsbD (s : List Bool) (j t : Nat) (ht : t < 8) :
    (packByte s j).getLsbD (7 - t) = s.getD (8 * j + t) false := by
  rw [packByte, getLsbD_ofNat_val _ (by simp) _ (by omega), show 8 - 1 - (7 - t) = t by omega]
  simp [List.getD_eq_getElem?_getD, ht]

@[simp] theorem packBytes_length (s : List Bool) : (packBytes s).length = (s.length + 7) / 8 := by simp [packBytes]

theorem packBytes_getD (s : List Bool) (j : Nat) : (packBytes s).getD j 0 = packByte s j := by
  by_cases h : j < (s.length + 7) / 8
  · simp [packBytes, List.getD_eq_getElem?_getD, h]
  · have hz : packByte s j = 0 := by
      apply BitVec.eq_of_getLsbD_eq
      intro i hi
      have e := packByte_getLsbD s j (7 - i) (by omega)
      rw [show 7 - (7 - i) = i by omega] at e
      rw [e, List.getD_eq_default _ _ (by omega)]
      simp
    rw [hz, List.getD_eq_default _ _ (by simp; omega)]

/-- The bits of a packed sequence are its own, then zeros (20_memory.md R85). -/
theorem bitsOf_packBytes_getD (s : List Bool) (i : Nat) : (bitsOf (packBytes s)).getD i false = s.getD i false := by
  rw [bitsOf_getD, packBytes_getD, packByte_getLsbD _ _ _ (by omega), Nat.div_add_mod]

/-- Packing whole bytes gives them back. -/
@[simp] theorem packBytes_bitsOf (B : List Byte) : packBytes (bitsOf B) = B := by
  apply List.ext_getElem (by simp; omega)
  intro j h1 h2
  have e : (packBytes (bitsOf B)).getD j 0 = B.getD j 0 := by
    rw [packBytes_getD]
    apply BitVec.eq_of_getLsbD_eq
    intro i hi
    have e := packByte_getLsbD (bitsOf B) j (7 - i) (by omega)
    rw [show 7 - (7 - i) = i by omega] at e
    rw [e, bitsOf_getD]
    congr 2 <;> omega
  rwa [List.getD_eq_getElem _ _ h1, List.getD_eq_getElem _ _ h2] at e

/-! ## extract -/

/-- Everything `extract` can do (41_bit_utilities.md R160). -/
theorem extract_cases (s : List Bool) (off cnt : Nat) :
    (off + cnt ≤ s.length ∧ extract s off cnt = some (packBytes (slice s off cnt))) ∨
    (s.length < off + cnt ∧ extract s off cnt = none) := by
  by_cases h : off + cnt ≤ s.length
  · exact .inl ⟨h, by simp [extract, rangeFits, h]⟩
  · exact .inr ⟨by omega, by simp [extract, rangeFits, h]⟩

theorem extract_eq_none_iff (s : List Bool) (off cnt : Nat) :
    extract s off cnt = none ↔ s.length < off + cnt := by
  rcases extract_cases s off cnt with ⟨h, e⟩ | ⟨h, e⟩ <;> simp [e] <;> omega

theorem extract_eq_some {s : List Bool} {off cnt : Nat} {out : List Byte} (h : extract s off cnt = some out) :
    off + cnt ≤ s.length ∧ out = packBytes (slice s off cnt) := by
  rcases extract_cases s off cnt with ⟨h1, h2⟩ | ⟨_, h2⟩
  · exact ⟨h1, by simpa [h2] using h.symm⟩
  · simp [h2] at h

theorem length_of_extract {s : List Bool} {off cnt : Nat} {out : List Byte} (h : extract s off cnt = some out) :
    out.length = (cnt + 7) / 8 := by
  obtain ⟨h1, rfl⟩ := extract_eq_some h
  simp only [packBytes_length, slice_length]
  congr 2
  omega

/-- The bits of an extract are the bits of the range, then zeros (20_memory.md R85). -/
theorem bits_of_extract {s : List Bool} {off cnt : Nat} {out : List Byte} (h : extract s off cnt = some out) (k : Nat) :
    (bitsOf out).getD k false = if k < cnt then s.getD (off + k) false else false := by
  obtain ⟨h1, rfl⟩ := extract_eq_some h
  rw [bitsOf_packBytes_getD]
  split
  · rw [slice_getD _ _ _ _ ‹_›]
  · rw [List.getD_eq_default _ _ (by simp; omega)]

end Sys2Proof.Machine
end

