-- ==== Sys2Proof/Laws/Crc.lean ====
section
/-! SUPPORT. The CRC, the sum and the XOR byte by byte; the CRC is additive (41_bit_utilities.md R166). -/

namespace Sys2Proof.Machine

/-- The CRC of no bytes is the seed. -/
@[simp] theorem crc8_nil (poly init : Byte) : crc8 [] 0 poly init = init := rfl

/-- One byte more. -/
theorem crc8_succ (B : List Byte) (k : Nat) (poly init : Byte) (hk : k < B.length) :
    crc8 B (k + 1) poly init = crcByte poly (crc8 B k poly init) (B.getD k 0) := by
  rw [crc8, crc8, List.take_add_one, List.getElem?_eq_getElem hk, Option.toList_some, List.foldl_append,
    List.getD_eq_getElem _ _ hk]
  rfl

theorem crc8_append (B : List Byte) (b poly init : Byte) :
    crc8 (B ++ [b]) (B.length + 1) poly init = crcByte poly (crc8 B B.length poly init) b := by
  rw [crc8, crc8, List.take_of_length_le (by simp), List.take_length, List.foldl_append]
  rfl

/-- One byte more. -/
theorem checksum_succ_toNat (B : List Byte) (k : Nat) (hk : k < B.length) :
    (checksum B (k + 1)).toNat = ((checksum B k).toNat + (B.getD k 0).toNat) % 256 := by
  simp only [checksum, List.take_add_one, List.getElem?_eq_getElem hk, Option.toList_some, List.map_append,
    List.sum_append, List.getD_eq_getElem _ _ hk, BitVec.toNat_ofNat, List.map_cons, List.map_nil, List.sum_cons,
    List.sum_nil]
  omega

/-- One byte more. -/
theorem xorFold_succ (B : List Byte) (k : Nat) (hk : k < B.length) :
    xorFold B (k + 1) = xorFold B k ^^^ B.getD k 0 := by
  rw [xorFold, xorFold, List.take_add_one, List.getElem?_eq_getElem hk, Option.toList_some, List.foldl_append,
    List.getD_eq_getElem _ _ hk]
  rfl

/-! ## Additivity -/

theorem crcShift_xor (poly a b : Byte) : crcShift poly (a ^^^ b) = crcShift poly a ^^^ crcShift poly b := by
  have h : (a ^^^ b) <<< 1 = a <<< 1 ^^^ b <<< 1 := BitVec.shiftLeft_xor_distrib a b 1
  cases ha : a.getLsbD 7 <;> cases hb : b.getLsbD 7 <;>
    simp only [crcShift, BitVec.getLsbD_xor, ha, hb, h, Bool.xor_false, Bool.xor_true, Bool.not_false, Bool.not_true,
      if_true, Bool.false_eq_true, if_false]
  · rw [BitVec.xor_assoc]
  · rw [BitVec.xor_assoc, BitVec.xor_assoc, BitVec.xor_comm poly]
  · rw [BitVec.xor_assoc, BitVec.xor_comm poly, BitVec.xor_assoc, BitVec.xor_self, BitVec.xor_zero]

@[simp] theorem crcShift_zero (poly : Byte) : crcShift poly 0 = 0 := by simp [crcShift]

theorem crcShift_iterate_xor (poly a b : Byte) (n : Nat) :
    (crcShift poly)^[n] (a ^^^ b) = (crcShift poly)^[n] a ^^^ (crcShift poly)^[n] b := by
  induction n generalizing a b with
  | zero => rfl
  | succ n ih => rw [Function.iterate_succ_apply, Function.iterate_succ_apply, Function.iterate_succ_apply,
      crcShift_xor, ih]

theorem crcShift_iterate_zero (poly : Byte) (n : Nat) : (crcShift poly)^[n] 0 = 0 := by
  induction n with
  | zero => rfl
  | succ n ih => rw [Function.iterate_succ_apply, crcShift_zero, ih]

/-- The register is additive in its contents and its input together. -/
theorem crcByte_xor (poly c c' b b' : Byte) :
    crcByte poly (c ^^^ c') (b ^^^ b') = crcByte poly c b ^^^ crcByte poly c' b' := by
  have h : c ^^^ c' ^^^ (b ^^^ b') = c ^^^ b ^^^ (c' ^^^ b') := by
    rw [BitVec.xor_assoc, BitVec.xor_assoc, ← BitVec.xor_assoc c', BitVec.xor_comm c' b, BitVec.xor_assoc]
  rw [crcByte, h, crcShift_iterate_xor]
  rfl

/-- A register that takes in its own contents is cleared. -/
@[simp] theorem crcByte_self (poly c : Byte) : crcByte poly c c = 0 := by
  rw [crcByte, BitVec.xor_self]
  exact crcShift_iterate_zero poly 8

/-- A divisor whose constant term is 1 loses nothing in a step. -/
theorem crcShift_ne_zero {poly c : Byte} (hp : poly.getLsbD 0 = true) (hc : c ≠ 0) : crcShift poly c ≠ 0 := by
  intro h
  cases h7 : c.getLsbD 7 with
  | true =>
    have := congrArg (fun x : Byte => x.getLsbD 0) h
    simp only [crcShift, h7, if_true, BitVec.getLsbD_xor, hp] at this
    simp at this
  | false =>
    simp only [crcShift, h7, Bool.false_eq_true, if_false] at h
    apply hc
    have h' := congrArg BitVec.toNat h
    have h7' : c.toNat < 128 := by
      have := BitVec.msb_eq_decide c
      rw [BitVec.msb_eq_getLsbD_last, h7] at this
      simpa using this
    apply BitVec.eq_of_toNat_eq
    simp only [BitVec.toNat_shiftLeft, Nat.shiftLeft_eq] at h'
    simp at h' ⊢
    omega

theorem crcShift_iterate_ne_zero {poly c : Byte} (hp : poly.getLsbD 0 = true) (hc : c ≠ 0) (n : Nat) :
    (crcShift poly)^[n] c ≠ 0 := by
  induction n generalizing c with
  | zero => exact hc
  | succ n ih => rw [Function.iterate_succ_apply]; exact ih (crcShift_ne_zero hp hc)

/-- A byte taken in on a register that differs from it does not clear the register. -/
theorem crcByte_ne_zero {poly c b : Byte} (hp : poly.getLsbD 0 = true) (hcb : c ≠ b) : crcByte poly c b ≠ 0 :=
  crcShift_iterate_ne_zero hp (fun h => hcb (BitVec.xor_eq_zero_iff.1 h)) 8

end Sys2Proof.Machine
end

