-- ==== Sys2Proof/Laws/Decode.lean ====
section
/-! SUPPORT. The fields of the six formats, read back from their words, and the opcode map's masks as
conditions on fields (30_encoding.md R111, R113). -/

namespace Sys2Proof

/-- A field of a word is the quotient and remainder of its number. -/
theorem field_eq_iff {lo width : Nat} (w : Word) (x : BitVec width) :
    w.extractLsb' lo width = x ↔ w.toNat / 2 ^ lo % 2 ^ width = x.toNat := by
  rw [← BitVec.toNat_inj, BitVec.extractLsb'_toNat, Nat.shiftRight_eq_div_pow]

section Words

variable (op a b c : Byte) (n : BitVec 4) (hi lo : BitVec 12) (imm : BitVec 16)

theorem wordZ_toNat : (wordZ op).toNat = op.toNat * 0x1000000 := by
  have := op.isLt
  simp only [wordZ, BitVec.toNat_ofNat]; omega

theorem wordP_toNat : (wordP op n a).toNat = op.toNat * 0x1000000 + n.toNat * 0x100 + a.toNat := by
  have := op.isLt; have := n.isLt; have := a.isLt
  simp only [wordP, BitVec.toNat_ofNat]; omega

theorem wordX_toNat : (wordX op hi lo).toNat = op.toNat * 0x1000000 + hi.toNat * 0x1000 + lo.toNat := by
  have := op.isLt; have := hi.isLt; have := lo.isLt
  simp only [wordX, BitVec.toNat_ofNat]; omega

theorem wordT_toNat :
    (wordT op a b c).toNat = op.toNat * 0x1000000 + a.toNat * 0x10000 + b.toNat * 0x100 + c.toNat := by
  have := op.isLt; have := a.isLt; have := b.isLt; have := c.isLt
  simp only [wordT, BitVec.toNat_ofNat]; omega

theorem wordC_toNat : (wordC op a).toNat = op.toNat * 0x1000000 + a.toNat * 0x10000 := by
  have := op.isLt; have := a.isLt
  simp only [wordC, BitVec.toNat_ofNat]; omega

theorem wordW_toNat : (wordW op a imm).toNat = op.toNat * 0x1000000 + a.toNat * 0x10000 + imm.toNat := by
  have := op.isLt; have := a.isLt; have := imm.isLt
  simp only [wordW, BitVec.toNat_ofNat]; omega

@[simp] theorem opcodeOf_wordZ : opcodeOf (wordZ op) = op := by
  have := op.isLt
  rw [opcodeOf, field_eq_iff, wordZ_toNat]; omega

@[simp] theorem opcodeOf_wordP : opcodeOf (wordP op n a) = op := by
  have := op.isLt; have := n.isLt; have := a.isLt
  rw [opcodeOf, field_eq_iff, wordP_toNat]; omega

@[simp] theorem opcodeOf_wordX : opcodeOf (wordX op hi lo) = op := by
  have := op.isLt; have := hi.isLt; have := lo.isLt
  rw [opcodeOf, field_eq_iff, wordX_toNat]; omega

@[simp] theorem opcodeOf_wordT : opcodeOf (wordT op a b c) = op := by
  have := op.isLt; have := a.isLt; have := b.isLt; have := c.isLt
  rw [opcodeOf, field_eq_iff, wordT_toNat]; omega

@[simp] theorem opcodeOf_wordC : opcodeOf (wordC op a) = op := by
  have := op.isLt; have := a.isLt
  rw [opcodeOf, field_eq_iff, wordC_toNat]; omega

@[simp] theorem opcodeOf_wordW : opcodeOf (wordW op a imm) = op := by
  have := op.isLt; have := a.isLt; have := imm.isLt
  rw [opcodeOf, field_eq_iff, wordW_toNat]; omega

theorem mbz_wordZ : (wordZ op).extractLsb' 0 24 = 0#24 := by
  rw [field_eq_iff, wordZ_toNat]; simp

theorem mbz_wordP : (wordP op n a).extractLsb' 12 12 = 0#12 := by
  have := op.isLt; have := n.isLt; have := a.isLt
  rw [field_eq_iff, wordP_toNat]; simp only [BitVec.toNat_ofNat]; omega

theorem mbz_wordC : (wordC op a).extractLsb' 0 16 = 0#16 := by
  have := op.isLt; have := a.isLt
  rw [field_eq_iff, wordC_toNat]; simp only [BitVec.toNat_ofNat]; omega

/-- Format Z is read back. -/
theorem formatZ_wordZ (i : Instr) : formatZ (wordZ op) i = .ok i := by
  simp [formatZ, mbz_wordZ]

/-- Format P is read back. -/
theorem formatP_wordP (i : BitVec 4 → Byte → Instr) : formatP (wordP op n a) i = .ok (i n a) := by
  have := op.isLt; have := n.isLt; have := a.isLt
  have h1 : (wordP op n a).extractLsb' 8 4 = n := by rw [field_eq_iff, wordP_toNat]; omega
  have h2 : (wordP op n a).extractLsb' 0 8 = a := by rw [field_eq_iff, wordP_toNat]; omega
  simp [formatP, mbz_wordP, h1, h2]

/-- Format X is read back. -/
theorem formatX_wordX (i : BitVec 12 → BitVec 12 → Instr) : formatX (wordX op hi lo) i = .ok (i hi lo) := by
  have := op.isLt; have := hi.isLt; have := lo.isLt
  have h1 : (wordX op hi lo).extractLsb' 12 12 = hi := by rw [field_eq_iff, wordX_toNat]; omega
  have h2 : (wordX op hi lo).extractLsb' 0 12 = lo := by rw [field_eq_iff, wordX_toNat]; omega
  simp [formatX, h1, h2]

/-- Format T is read back. -/
theorem formatT_wordT (i : Byte → Byte → Byte → Instr) : formatT (wordT op a b c) i = .ok (i a b c) := by
  have := op.isLt; have := a.isLt; have := b.isLt; have := c.isLt
  have h1 : (wordT op a b c).extractLsb' 16 8 = a := by rw [field_eq_iff, wordT_toNat]; omega
  have h2 : (wordT op a b c).extractLsb' 8 8 = b := by rw [field_eq_iff, wordT_toNat]; omega
  have h3 : (wordT op a b c).extractLsb' 0 8 = c := by rw [field_eq_iff, wordT_toNat]; omega
  simp [formatT, h1, h2, h3]

/-- Format C is read back. -/
theorem formatC_wordC (i : Byte → Instr) : formatC (wordC op a) i = .ok (i a) := by
  have := op.isLt; have := a.isLt
  have h1 : (wordC op a).extractLsb' 16 8 = a := by rw [field_eq_iff, wordC_toNat]; omega
  simp [formatC, mbz_wordC, h1]

/-- Format W is read back. -/
theorem formatW_wordW (i : Byte → BitVec 16 → Instr) : formatW (wordW op a imm) i = .ok (i a imm) := by
  have := op.isLt; have := a.isLt; have := imm.isLt
  have h1 : (wordW op a imm).extractLsb' 16 8 = a := by rw [field_eq_iff, wordW_toNat]; omega
  have h2 : (wordW op a imm).extractLsb' 0 16 = imm := by rw [field_eq_iff, wordW_toNat]; omega
  simp [formatW, h1, h2]

end Words

/-! ## The masks of the opcode map -/

/-- A word is its top byte and the rest. -/
theorem word_split (w : Word) : w.toNat = (opcodeOf w).toNat * 0x1000000 + w.toNat % 0x1000000 := by
  have := w.isLt
  simp only [opcodeOf, BitVec.extractLsb'_toNat, Nat.shiftRight_eq_div_pow]; omega

/-- Masking the low bits of a word off leaves the multiple of the power of two. -/
theorem and_high_mask (w : Word) (k : Nat) :
    (w &&& (BitVec.allOnes 32 <<< k)).toNat = w.toNat / 2 ^ k * 2 ^ k := by
  have h : w &&& (BitVec.allOnes 32 <<< k) = (w >>> k) <<< k := by
    apply BitVec.eq_of_getLsbD_eq
    intro i hi
    by_cases hik : i < k
    · simp [hik]
    · simp [-BitVec.reduceAllOnes, hi, hik, show k + (i - k) = i by omega]
  have := w.isLt
  rw [h]
  simp only [BitVec.toNat_shiftLeft, BitVec.toNat_ushiftRight, Nat.shiftLeft_eq, Nat.shiftRight_eq_div_pow]
  exact Nat.mod_eq_of_lt (lt_of_le_of_lt (Nat.div_mul_le_self _ _) this)

/-- The mask of format C keeps the opcode and CMD[15:0]. -/
theorem and_formatC_mask (w : Word) :
    (w &&& 0xFF00FFFF#32).toNat = (opcodeOf w).toNat * 0x1000000 + w.toNat % 0x10000 := by
  have hlt : w.toNat % 0x10000 < 2 ^ 24 := by omega
  apply Nat.eq_of_testBit_eq
  intro i
  rw [Nat.mul_comm, show (0x1000000 : Nat) = 2 ^ 24 from rfl, Nat.testBit_two_pow_mul_add _ hlt,
    show (0x10000 : Nat) = 2 ^ 16 from rfl, Nat.testBit_mod_two_pow, BitVec.testBit_toNat, BitVec.testBit_toNat,
    BitVec.testBit_toNat, opcodeOf, BitVec.getLsbD_extractLsb', BitVec.getLsbD_and]
  by_cases h : i < 32
  · interval_cases i <;> simp
  · simp [BitVec.getLsbD_of_ge w i (by omega), show ¬ i < 24 by omega, show ¬ i - 24 < 8 by omega]

/-- The mask of format Z selects one word (R113). -/
theorem matches_maskZ (w : Word) (op : Byte) :
    (w &&& 0xFFFFFFFF#32) = wordZ op ↔ opcodeOf w = op ∧ w.extractLsb' 0 24 = 0#24 := by
  have hm : (0xFFFFFFFF#32) = BitVec.allOnes 32 <<< 0 := by decide
  have := w.isLt; have := op.isLt
  rw [hm, ← BitVec.toNat_inj, and_high_mask, wordZ_toNat, opcodeOf, field_eq_iff, field_eq_iff]
  simp only [BitVec.toNat_ofNat]; omega

/-- The mask of format P selects the opcode with CMD[23:12] = 0 (R113). -/
theorem matches_maskP (w : Word) (op : Byte) :
    (w &&& 0xFFFFF000#32) = wordZ op ↔ opcodeOf w = op ∧ w.extractLsb' 12 12 = 0#12 := by
  have hm : (0xFFFFF000#32) = BitVec.allOnes 32 <<< 12 := by decide
  have := w.isLt; have := op.isLt
  rw [hm, ← BitVec.toNat_inj, and_high_mask, wordZ_toNat, opcodeOf, field_eq_iff, field_eq_iff]
  simp only [BitVec.toNat_ofNat]; omega

/-- The mask of formats X, T and W selects the opcode (R113). -/
theorem matches_maskX (w : Word) (op : Byte) : (w &&& 0xFF000000#32) = wordZ op ↔ opcodeOf w = op := by
  have hm : (0xFF000000#32) = BitVec.allOnes 32 <<< 24 := by decide
  have := w.isLt; have := op.isLt
  rw [hm, ← BitVec.toNat_inj, and_high_mask, wordZ_toNat, opcodeOf, field_eq_iff]
  omega

/-- The mask of format C selects the opcode with CMD[15:0] = 0 (R113). -/
theorem matches_maskC (w : Word) (op : Byte) :
    (w &&& 0xFF00FFFF#32) = wordZ op ↔ opcodeOf w = op ∧ w.extractLsb' 0 16 = 0#16 := by
  have := op.isLt; have := (opcodeOf w).isLt
  rw [← BitVec.toNat_inj, and_formatC_mask, wordZ_toNat, ← BitVec.toNat_inj, field_eq_iff]
  simp only [BitVec.toNat_ofNat]; omega

/-- A row's test is a condition on the opcode and the must-be-zero field its format has. -/
theorem opcodeRow_matches_iff {r : OpcodeRow} (hr : r ∈ opcodeRows) (w : Word) :
    r.Matches w = true ↔ opcodeOf w = opcodeOf r.pattern ∧
      match r.format with
      | .z => w.extractLsb' 0 24 = 0#24
      | .p => w.extractLsb' 12 12 = 0#12
      | .c => w.extractLsb' 0 16 = 0#16
      | .x | .t | .w => True := by
  have key : ∀ r ∈ opcodeRows, r.pattern = wordZ (opcodeOf r.pattern) ∧
      r.mask = match r.format with
        | .z => 0xFFFFFFFF#32
        | .p => 0xFFFFF000#32
        | .c => 0xFF00FFFF#32
        | .x | .t | .w => 0xFF000000#32 := by decide
  obtain ⟨hp, hm⟩ := key r hr
  rw [OpcodeRow.Matches, beq_iff_eq, hm]
  generalize opcodeOf r.pattern = op at hp ⊢
  rw [hp]
  cases r.format
  · exact matches_maskZ w op
  · exact matches_maskP w op
  · simpa using matches_maskX w op
  · simpa using matches_maskX w op
  · exact matches_maskC w op
  · simpa using matches_maskX w op

end Sys2Proof
end

