-- ==== Sys2Proof/Laws/Pattern.lean ====
section
/-! SUPPORT. Everything the pattern matcher and the Manchester decoder can do (42_pattern_manchester.md). -/

namespace Sys2Proof.Machine

@[simp] theorem markerBits_length (hi lo : Byte) : (markerBits hi lo).length = 16 := by simp [markerBits]

theorem val_markerBits (hi lo : Byte) : val (markerBits hi lo) = hi.toNat * 256 + lo.toNat := by
  simp [markerBits, val_append]

/-- A window is the marker exactly when its sixteen bits are the marker's (R190). -/
theorem window_iff (s : List Bool) (hi lo : Byte) (k : Nat) :
    (k + 16 ≤ s.length ∧ valAt s k 16 = hi.toNat * 256 + lo.toNat) ↔ slice s k 16 = markerBits hi lo := by
  constructor
  · rintro ⟨h, hv⟩
    refine val_inj ?_ (by rw [val_markerBits]; exact hv)
    simp; omega
  · intro h
    have hl := congrArg List.length h
    simp at hl
    exact ⟨by omega, by rw [valAt, h, val_markerBits]⟩

/-- `findPattern` gives the least offset below `win` at which the marker stands (R190). -/
theorem findPattern_eq_some_iff (s : List Bool) (hi lo : Byte) (win k : Nat) :
    findPattern s hi lo win = some k ↔
      k < win ∧ slice s k 16 = markerBits hi lo ∧ ∀ j, j < k → slice s j 16 ≠ markerBits hi lo := by
  have key : ∀ j, ((decide (j + 16 ≤ s.length) && valAt s j 16 == hi.toNat * 256 + lo.toNat) = true) ↔
      slice s j 16 = markerBits hi lo := fun j => by rw [← window_iff]; simp
  rw [findPattern, List.find?_range_eq_some]
  simp only [key, List.mem_range, Bool.not_eq_true']
  constructor
  · rintro ⟨h1, h2, h3⟩
    exact ⟨h2, h1, fun j hj hm => by have := h3 j hj; rw [(key j).2 hm] at this; exact absurd this (by simp)⟩
  · rintro ⟨h1, h2, h3⟩
    exact ⟨h2, h1, fun j hj => by
      by_contra hc
      exact h3 j hj ((key j).1 (by simpa using hc))⟩

/-- `findPattern` answers NOT_FOUND exactly when the marker stands at no offset below `win` (R190). -/
theorem findPattern_eq_none_iff (s : List Bool) (hi lo : Byte) (win : Nat) :
    findPattern s hi lo win = none ↔ ∀ k, k < win → slice s k 16 ≠ markerBits hi lo := by
  rw [findPattern, List.find?_eq_none]
  simp only [List.mem_range]
  refine forall_congr' fun k => imp_congr_right fun _ => not_congr ?_
  rw [← window_iff]
  simp

/-- The least illegal pair below `n`, if there is one. -/
theorem firstIllegal_cases (s : List Bool) (pre n : Nat) :
    (∃ j, j < n ∧ pairLegal (symbolPair s pre j) = false ∧ (∀ m, m < j → pairLegal (symbolPair s pre m) = true) ∧
      (List.range n).find? (fun j => !pairLegal (symbolPair s pre j)) = some j) ∨
    ((∀ j, j < n → pairLegal (symbolPair s pre j) = true) ∧
      (List.range n).find? (fun j => !pairLegal (symbolPair s pre j)) = none) := by
  cases h : (List.range n).find? (fun j => !pairLegal (symbolPair s pre j)) with
  | none =>
    right
    simpa [List.find?_eq_none] using h
  | some j =>
    left
    rw [List.find?_range_eq_some] at h
    obtain ⟨h1, h2, h3⟩ := h
    exact ⟨j, by simpa using h2, by simpa using h1, fun m hm => by simpa using h3 m hm, rfl⟩

/-- Everything `manDecode` can do (R195), in the order of its checks. -/
theorem manDecode_cases (p : Params) (s : List Bool) (pre n : Nat) (inv : Bool) :
    (s.length < pre + 2 * n ∧ manDecode p s pre n inv = .failLength) ∨
    (pre + 2 * n ≤ s.length ∧ ∃ j, j < n ∧ pairLegal (symbolPair s pre j) = false ∧
      (∀ m, m < j → pairLegal (symbolPair s pre m) = true) ∧ manDecode p s pre n inv = .violation j) ∨
    (pre + 2 * n ≤ s.length ∧ (∀ j, j < n → pairLegal (symbolPair s pre j) = true) ∧
      manDecode p s pre n inv = .decoded ((List.range n).map fun j => pairBit p inv (symbolPair s pre j))) := by
  by_cases h : pre + 2 * n ≤ s.length
  · right
    rcases firstIllegal_cases s pre n with ⟨j, h1, h2, h3, h4⟩ | ⟨h1, h2⟩
    · exact .inl ⟨h, j, h1, h2, h3, by simp [manDecode, rangeFits, h, h4]⟩
    · exact .inr ⟨h, h1, by simp [manDecode, rangeFits, h, h2]⟩
  · exact .inl ⟨by omega, by simp [manDecode, rangeFits, h]⟩

theorem manDecode_length {p : Params} {s bits : List Bool} {pre n : Nat} {inv : Bool}
    (h : manDecode p s pre n inv = .decoded bits) : bits.length = n ∧ pre + 2 * n ≤ s.length := by
  rcases manDecode_cases p s pre n inv with ⟨_, e⟩ | ⟨_, j, _, _, _, e⟩ | ⟨hl, _, e⟩
  · simp [e] at h
  · simp [e] at h
  · rw [e] at h
    injection h with h
    exact ⟨by simp [← h], hl⟩

end Sys2Proof.Machine
end

