-- ==== Sys2Proof/Laws/Queue.lean ====
section
/-! SUPPORT. Everything the queue's operations can do (45_queue.md). -/

namespace Sys2Proof.Machine

/-- TIME_BITS as a number, for arithmetic on times (00_scope.md R6). -/
@[simp] theorem timeBits_eq : Config.timeBits = 32 := rfl

/-- `overwrite` finds no entry with the id exactly when there is none (R262). -/
theorem overwrite_eq_none_iff (e : Entry) (q : List Entry) : overwrite e q = none ↔ ∀ y ∈ q, y.id ≠ e.id := by
  induction q with
  | nil => simp [overwrite]
  | cons x xs ih => by_cases h : x.id = e.id <;> simp [overwrite, h, ih]

/-- The first entry with the id is replaced in its place (R262). -/
theorem overwrite_append {e x : Entry} {before after : List Entry} (hx : x.id = e.id)
    (hb : ∀ y ∈ before, y.id ≠ e.id) : overwrite e (before ++ x :: after) = some (before ++ e :: after) := by
  induction before with
  | nil => simp [overwrite, hx]
  | cons y ys ih =>
    have hy : y.id ≠ e.id := hb y (by simp)
    simp [overwrite, hy, ih fun z hz => hb z (by simp [hz])]

/-- Where `overwrite` succeeds it replaced the first entry with the id. -/
theorem overwrite_eq_some {e : Entry} {q q' : List Entry} (h : overwrite e q = some q') :
    ∃ before x after, q = before ++ x :: after ∧ x.id = e.id ∧ (∀ y ∈ before, y.id ≠ e.id) ∧
      q' = before ++ e :: after := by
  induction q generalizing q' with
  | nil => simp [overwrite] at h
  | cons y ys ih =>
    by_cases hy : y.id = e.id
    · exact ⟨[], y, ys, rfl, hy, by simp, by simpa [overwrite, hy] using h.symm⟩
    · simp only [overwrite, hy, if_false, Option.map_eq_some_iff] at h
      obtain ⟨r, hr, rfl⟩ := h
      obtain ⟨before, x, after, rfl, hx, hb, rfl⟩ := ih hr
      exact ⟨y :: before, x, after, rfl, hx, by simpa [hy] using hb, rfl⟩

/-- Everything `addOrUpdate` can do (R262): overwrite in place, append, or reject. -/
theorem addOrUpdate_cases (p : Params) (q : List Entry) (e : Entry) :
    (∃ before x after, q = before ++ x :: after ∧ x.id = e.id ∧ (∀ y ∈ before, y.id ≠ e.id) ∧
      addOrUpdate p q e = some (before ++ e :: after)) ∨
    ((∀ y ∈ q, y.id ≠ e.id) ∧ q.length < p.capacity ∧ addOrUpdate p q e = some (q ++ [e])) ∨
    ((∀ y ∈ q, y.id ≠ e.id) ∧ p.capacity ≤ q.length ∧ addOrUpdate p q e = none) := by
  cases h : overwrite e q with
  | some q' =>
    obtain ⟨before, x, after, hq, hx, hb, rfl⟩ := overwrite_eq_some h
    exact .inl ⟨before, x, after, hq, hx, hb, by simp [addOrUpdate, h]⟩
  | none =>
    have hn := (overwrite_eq_none_iff e q).1 h
    by_cases hl : q.length < p.capacity
    · exact .inr (.inl ⟨hn, hl, by simp [addOrUpdate, h, hl]⟩)
    · exact .inr (.inr ⟨hn, by omega, by simp [addOrUpdate, h, hl]⟩)

/-- The queue and the data after the service of `x`, between `before` and `after` (R270, R273). -/
theorem getNextDue_append {now : Time} {interval : BitVec 16} {maxRetx : Byte} {before after : List Entry} {x : Entry}
    (hb : ∀ y ∈ before, isDue now y = false) (hx : isDue now x = true) :
    getNextDue now interval maxRetx (before ++ x :: after) =
      some ⟨before ++ (if exceeds maxRetx (afterService now interval x) then after
              else afterService now interval x :: after),
            afterService now interval x, exceeds maxRetx (afterService now interval x)⟩ := by
  induction before with
  | nil => simp [getNextDue, hx]
  | cons y ys ih =>
    have hy : isDue now y = false := hb y (by simp)
    simp [getNextDue, hy, ih fun z hz => hb z (by simp [hz])]

/-- Nothing is serviced exactly when nothing is due (R270). -/
theorem getNextDue_eq_none_iff (now : Time) (interval : BitVec 16) (maxRetx : Byte) (q : List Entry) :
    getNextDue now interval maxRetx q = none ↔ ∀ y ∈ q, isDue now y = false := by
  induction q with
  | nil => simp [getNextDue]
  | cons x xs ih => cases h : isDue now x <;> simp [getNextDue, h, ih]

/-- Everything `getNextDue` can do (R270): service the first due entry, or find none. -/
theorem getNextDue_cases (now : Time) (interval : BitVec 16) (maxRetx : Byte) (q : List Entry) :
    (∃ before x after, q = before ++ x :: after ∧ (∀ y ∈ before, isDue now y = false) ∧ isDue now x = true ∧
      getNextDue now interval maxRetx q =
        some ⟨before ++ (if exceeds maxRetx (afterService now interval x) then after
                else afterService now interval x :: after),
              afterService now interval x, exceeds maxRetx (afterService now interval x)⟩) ∨
    ((∀ y ∈ q, isDue now y = false) ∧ getNextDue now interval maxRetx q = none) := by
  by_cases h : ∀ y ∈ q, isDue now y = false
  · exact .inr ⟨h, (getNextDue_eq_none_iff _ _ _ _).2 h⟩
  · left
    obtain ⟨before, x, after, rfl, hb, hx⟩ : ∃ before x after, q = before ++ x :: after ∧
        (∀ y ∈ before, isDue now y = false) ∧ isDue now x = true := by
      induction q with
      | nil => simp at h
      | cons y ys ih =>
        cases hy : isDue now y with
        | true => exact ⟨[], y, ys, rfl, by simp, hy⟩
        | false =>
          obtain ⟨b, x, a, rfl, hb, hx⟩ := ih (by simpa [hy] using h)
          exact ⟨y :: b, x, a, rfl, by simpa [hy] using hb, hx⟩
    exact ⟨before, x, after, rfl, hb, hx, getNextDue_append hb hx⟩

theorem isDue_iff (now : Time) (e : Entry) : isDue now e = true ↔ e.next.toNat ≤ now.toNat := by
  simp [isDue, BitVec.ule]

@[simp] theorem afterService_id (now : Time) (v : BitVec 16) (e : Entry) : (afterService now v e).id = e.id := rfl
@[simp] theorem afterService_count (now : Time) (v : BitVec 16) (e : Entry) :
    (afterService now v e).count = e.count + 1 := rfl
@[simp] theorem afterService_next (now : Time) (v : BitVec 16) (e : Entry) :
    (afterService now v e).next = sendTime now v := rfl
@[simp] theorem entryOf_id (r : Reading) (now : Time) (v : BitVec 16) : (entryOf r now v).id = r.id := rfl
@[simp] theorem entryOf_count (r : Reading) (now : Time) (v : BitVec 16) : (entryOf r now v).count = 0 := rfl
@[simp] theorem entryOf_next (r : Reading) (now : Time) (v : BitVec 16) : (entryOf r now v).next = sendTime now v := rfl

theorem sendTime_toNat (now : Time) (v : BitVec 16) : (sendTime now v).toNat = (now.toNat + v.toNat) % 2 ^ 32 := by
  have := v.isLt
  simp [sendTime]

@[simp] theorem outboundFrame_length (e : Entry) : (outboundFrame e).length = 15 := rfl

end Sys2Proof.Machine
end

