-- ==== Sys2Proof/Laws/State.lean ====
section
/-! SUPPORT. What every update of the state leaves in every field. -/

namespace Sys2Proof.Machine

variable (s : State)

@[simp] theorem respond_fb (c : Code) (d : Word) : (respond s c d).fb = s.fb := rfl
@[simp] theorem respond_mb (c : Code) (d : Word) : (respond s c d).mb = s.mb := rfl
@[simp] theorem respond_xb (c : Code) (d : Word) : (respond s c d).xb = s.xb := rfl
@[simp] theorem respond_xbCnt (c : Code) (d : Word) : (respond s c d).xbCnt = s.xbCnt := rfl
@[simp] theorem respond_acc (c : Code) (d : Word) : (respond s c d).acc = s.acc := rfl
@[simp] theorem respond_pos (c : Code) (d : Word) : (respond s c d).pos = s.pos := rfl
@[simp] theorem respond_found (c : Code) (d : Word) : (respond s c d).found = s.found := rfl
@[simp] theorem respond_res (c : Code) (d : Word) : (respond s c d).res = s.res := rfl
@[simp] theorem respond_interval (c : Code) (d : Word) : (respond s c d).interval = s.interval := rfl
@[simp] theorem respond_maxRetx (c : Code) (d : Word) : (respond s c d).maxRetx = s.maxRetx := rfl
@[simp] theorem respond_q (c : Code) (d : Word) : (respond s c d).q = s.q := rfl
@[simp] theorem respond_tx (c : Code) (d : Word) : (respond s c d).tx = s.tx := rfl
@[simp] theorem respond_now (c : Code) (d : Word) : (respond s c d).now = s.now := rfl
@[simp] theorem respond_rsp (c : Code) (d : Word) : (respond s c d).rsp = some ⟨c, d⟩ := rfl
@[simp] theorem respond_input (c : Code) (d : Word) : (respond s c d).input = s.input := rfl

@[simp] theorem answerIllegal_fb : (answerIllegal s).fb = s.fb := rfl
@[simp] theorem answerIllegal_mb : (answerIllegal s).mb = s.mb := rfl
@[simp] theorem answerIllegal_xb : (answerIllegal s).xb = s.xb := rfl
@[simp] theorem answerIllegal_xbCnt : (answerIllegal s).xbCnt = s.xbCnt := rfl
@[simp] theorem answerIllegal_acc : (answerIllegal s).acc = s.acc := rfl
@[simp] theorem answerIllegal_pos : (answerIllegal s).pos = s.pos := rfl
@[simp] theorem answerIllegal_found : (answerIllegal s).found = s.found := rfl
@[simp] theorem answerIllegal_res : (answerIllegal s).res = s.res := rfl
@[simp] theorem answerIllegal_interval : (answerIllegal s).interval = s.interval := rfl
@[simp] theorem answerIllegal_maxRetx : (answerIllegal s).maxRetx = s.maxRetx := rfl
@[simp] theorem answerIllegal_q : (answerIllegal s).q = s.q := rfl
@[simp] theorem answerIllegal_tx : (answerIllegal s).tx = s.tx := rfl
@[simp] theorem answerIllegal_now : (answerIllegal s).now = s.now := rfl
@[simp] theorem answerIllegal_rsp : (answerIllegal s).rsp = some ⟨.illegalCmd, 0⟩ := rfl
@[simp] theorem answerIllegal_input : (answerIllegal s).input = s.input := rfl

@[simp] theorem setFb_fb (b : List Bool) : (s.setFb b).fb = b := rfl
@[simp] theorem setFb_mb (b : List Bool) : (s.setFb b).mb = s.mb := rfl
@[simp] theorem setFb_xb (b : List Bool) : (s.setFb b).xb = s.xb := rfl
@[simp] theorem setFb_xbCnt (b : List Bool) : (s.setFb b).xbCnt = s.xbCnt := rfl
@[simp] theorem setFb_acc (b : List Bool) : (s.setFb b).acc = s.acc := rfl
@[simp] theorem setFb_pos (b : List Bool) : (s.setFb b).pos = s.pos := rfl
@[simp] theorem setFb_found (b : List Bool) : (s.setFb b).found = s.found := rfl
@[simp] theorem setFb_res (b : List Bool) : (s.setFb b).res = s.res := rfl
@[simp] theorem setFb_interval (b : List Bool) : (s.setFb b).interval = s.interval := rfl
@[simp] theorem setFb_maxRetx (b : List Bool) : (s.setFb b).maxRetx = s.maxRetx := rfl
@[simp] theorem setFb_q (b : List Bool) : (s.setFb b).q = s.q := rfl
@[simp] theorem setFb_tx (b : List Bool) : (s.setFb b).tx = s.tx := rfl
@[simp] theorem setFb_now (b : List Bool) : (s.setFb b).now = s.now := rfl
@[simp] theorem setFb_rsp (b : List Bool) : (s.setFb b).rsp = s.rsp := rfl
@[simp] theorem setFb_input (b : List Bool) : (s.setFb b).input = s.input := rfl

@[simp] theorem setMb_fb (b : List Bool) : (s.setMb b).fb = s.fb := rfl
@[simp] theorem setMb_mb (b : List Bool) : (s.setMb b).mb = b := rfl
@[simp] theorem setMb_xb (b : List Bool) : (s.setMb b).xb = s.xb := rfl
@[simp] theorem setMb_xbCnt (b : List Bool) : (s.setMb b).xbCnt = s.xbCnt := rfl
@[simp] theorem setMb_acc (b : List Bool) : (s.setMb b).acc = s.acc := rfl
@[simp] theorem setMb_pos (b : List Bool) : (s.setMb b).pos = s.pos := rfl
@[simp] theorem setMb_found (b : List Bool) : (s.setMb b).found = s.found := rfl
@[simp] theorem setMb_res (b : List Bool) : (s.setMb b).res = s.res := rfl
@[simp] theorem setMb_interval (b : List Bool) : (s.setMb b).interval = s.interval := rfl
@[simp] theorem setMb_maxRetx (b : List Bool) : (s.setMb b).maxRetx = s.maxRetx := rfl
@[simp] theorem setMb_q (b : List Bool) : (s.setMb b).q = s.q := rfl
@[simp] theorem setMb_tx (b : List Bool) : (s.setMb b).tx = s.tx := rfl
@[simp] theorem setMb_now (b : List Bool) : (s.setMb b).now = s.now := rfl
@[simp] theorem setMb_rsp (b : List Bool) : (s.setMb b).rsp = s.rsp := rfl
@[simp] theorem setMb_input (b : List Bool) : (s.setMb b).input = s.input := rfl

@[simp] theorem setXb_fb (b : List Byte) : (s.setXb b).fb = s.fb := rfl
@[simp] theorem setXb_mb (b : List Byte) : (s.setXb b).mb = s.mb := rfl
theorem setXb_xb (b : List Byte) : (s.setXb b).xb = (b ++ List.replicate 32 0).take 32 := rfl
theorem setXb_xbCnt (b : List Byte) : (s.setXb b).xbCnt = BitVec.ofNat 6 b.length := rfl
@[simp] theorem setXb_acc (b : List Byte) : (s.setXb b).acc = s.acc := rfl
@[simp] theorem setXb_pos (b : List Byte) : (s.setXb b).pos = s.pos := rfl
@[simp] theorem setXb_found (b : List Byte) : (s.setXb b).found = s.found := rfl
@[simp] theorem setXb_res (b : List Byte) : (s.setXb b).res = s.res := rfl
@[simp] theorem setXb_interval (b : List Byte) : (s.setXb b).interval = s.interval := rfl
@[simp] theorem setXb_maxRetx (b : List Byte) : (s.setXb b).maxRetx = s.maxRetx := rfl
@[simp] theorem setXb_q (b : List Byte) : (s.setXb b).q = s.q := rfl
@[simp] theorem setXb_tx (b : List Byte) : (s.setXb b).tx = s.tx := rfl
@[simp] theorem setXb_now (b : List Byte) : (s.setXb b).now = s.now := rfl
@[simp] theorem setXb_rsp (b : List Byte) : (s.setXb b).rsp = s.rsp := rfl
@[simp] theorem setXb_input (b : List Byte) : (s.setXb b).input = s.input := rfl

@[simp] theorem setAcc_fb (v : Byte) : (s.setAcc v).fb = s.fb := rfl
@[simp] theorem setAcc_mb (v : Byte) : (s.setAcc v).mb = s.mb := rfl
@[simp] theorem setAcc_xb (v : Byte) : (s.setAcc v).xb = s.xb := rfl
@[simp] theorem setAcc_xbCnt (v : Byte) : (s.setAcc v).xbCnt = s.xbCnt := rfl
@[simp] theorem setAcc_acc (v : Byte) : (s.setAcc v).acc = v := rfl
@[simp] theorem setAcc_pos (v : Byte) : (s.setAcc v).pos = s.pos := rfl
@[simp] theorem setAcc_found (v : Byte) : (s.setAcc v).found = s.found := rfl
@[simp] theorem setAcc_res (v : Byte) : (s.setAcc v).res = s.res := rfl
@[simp] theorem setAcc_interval (v : Byte) : (s.setAcc v).interval = s.interval := rfl
@[simp] theorem setAcc_maxRetx (v : Byte) : (s.setAcc v).maxRetx = s.maxRetx := rfl
@[simp] theorem setAcc_q (v : Byte) : (s.setAcc v).q = s.q := rfl
@[simp] theorem setAcc_tx (v : Byte) : (s.setAcc v).tx = s.tx := rfl
@[simp] theorem setAcc_now (v : Byte) : (s.setAcc v).now = s.now := rfl
@[simp] theorem setAcc_rsp (v : Byte) : (s.setAcc v).rsp = s.rsp := rfl
@[simp] theorem setAcc_input (v : Byte) : (s.setAcc v).input = s.input := rfl

@[simp] theorem setFound_fb (k : Nat) : (s.setFound k).fb = s.fb := rfl
@[simp] theorem setFound_mb (k : Nat) : (s.setFound k).mb = s.mb := rfl
@[simp] theorem setFound_xb (k : Nat) : (s.setFound k).xb = s.xb := rfl
@[simp] theorem setFound_xbCnt (k : Nat) : (s.setFound k).xbCnt = s.xbCnt := rfl
@[simp] theorem setFound_acc (k : Nat) : (s.setFound k).acc = s.acc := rfl
@[simp] theorem setFound_pos (k : Nat) : (s.setFound k).pos = BitVec.ofNat 8 k := rfl
@[simp] theorem setFound_found (k : Nat) : (s.setFound k).found = true := rfl
@[simp] theorem setFound_res (k : Nat) : (s.setFound k).res = s.res := rfl
@[simp] theorem setFound_interval (k : Nat) : (s.setFound k).interval = s.interval := rfl
@[simp] theorem setFound_maxRetx (k : Nat) : (s.setFound k).maxRetx = s.maxRetx := rfl
@[simp] theorem setFound_q (k : Nat) : (s.setFound k).q = s.q := rfl
@[simp] theorem setFound_tx (k : Nat) : (s.setFound k).tx = s.tx := rfl
@[simp] theorem setFound_now (k : Nat) : (s.setFound k).now = s.now := rfl
@[simp] theorem setFound_rsp (k : Nat) : (s.setFound k).rsp = s.rsp := rfl
@[simp] theorem setFound_input (k : Nat) : (s.setFound k).input = s.input := rfl

@[simp] theorem clearFound_fb : (s.clearFound).fb = s.fb := rfl
@[simp] theorem clearFound_mb : (s.clearFound).mb = s.mb := rfl
@[simp] theorem clearFound_xb : (s.clearFound).xb = s.xb := rfl
@[simp] theorem clearFound_xbCnt : (s.clearFound).xbCnt = s.xbCnt := rfl
@[simp] theorem clearFound_acc : (s.clearFound).acc = s.acc := rfl
@[simp] theorem clearFound_pos : (s.clearFound).pos = 0 := rfl
@[simp] theorem clearFound_found : (s.clearFound).found = false := rfl
@[simp] theorem clearFound_res : (s.clearFound).res = s.res := rfl
@[simp] theorem clearFound_interval : (s.clearFound).interval = s.interval := rfl
@[simp] theorem clearFound_maxRetx : (s.clearFound).maxRetx = s.maxRetx := rfl
@[simp] theorem clearFound_q : (s.clearFound).q = s.q := rfl
@[simp] theorem clearFound_tx : (s.clearFound).tx = s.tx := rfl
@[simp] theorem clearFound_now : (s.clearFound).now = s.now := rfl
@[simp] theorem clearFound_rsp : (s.clearFound).rsp = s.rsp := rfl
@[simp] theorem clearFound_input : (s.clearFound).input = s.input := rfl

@[simp] theorem setRes_fb (r : Reading) : (s.setRes r).fb = s.fb := rfl
@[simp] theorem setRes_mb (r : Reading) : (s.setRes r).mb = s.mb := rfl
@[simp] theorem setRes_xb (r : Reading) : (s.setRes r).xb = s.xb := rfl
@[simp] theorem setRes_xbCnt (r : Reading) : (s.setRes r).xbCnt = s.xbCnt := rfl
@[simp] theorem setRes_acc (r : Reading) : (s.setRes r).acc = s.acc := rfl
@[simp] theorem setRes_pos (r : Reading) : (s.setRes r).pos = s.pos := rfl
@[simp] theorem setRes_found (r : Reading) : (s.setRes r).found = s.found := rfl
@[simp] theorem setRes_res (r : Reading) : (s.setRes r).res = r := rfl
@[simp] theorem setRes_interval (r : Reading) : (s.setRes r).interval = s.interval := rfl
@[simp] theorem setRes_maxRetx (r : Reading) : (s.setRes r).maxRetx = s.maxRetx := rfl
@[simp] theorem setRes_q (r : Reading) : (s.setRes r).q = s.q := rfl
@[simp] theorem setRes_tx (r : Reading) : (s.setRes r).tx = s.tx := rfl
@[simp] theorem setRes_now (r : Reading) : (s.setRes r).now = s.now := rfl
@[simp] theorem setRes_rsp (r : Reading) : (s.setRes r).rsp = s.rsp := rfl
@[simp] theorem setRes_input (r : Reading) : (s.setRes r).input = s.input := rfl

@[simp] theorem setQ_fb (q : List Entry) : (s.setQ q).fb = s.fb := rfl
@[simp] theorem setQ_mb (q : List Entry) : (s.setQ q).mb = s.mb := rfl
@[simp] theorem setQ_xb (q : List Entry) : (s.setQ q).xb = s.xb := rfl
@[simp] theorem setQ_xbCnt (q : List Entry) : (s.setQ q).xbCnt = s.xbCnt := rfl
@[simp] theorem setQ_acc (q : List Entry) : (s.setQ q).acc = s.acc := rfl
@[simp] theorem setQ_pos (q : List Entry) : (s.setQ q).pos = s.pos := rfl
@[simp] theorem setQ_found (q : List Entry) : (s.setQ q).found = s.found := rfl
@[simp] theorem setQ_res (q : List Entry) : (s.setQ q).res = s.res := rfl
@[simp] theorem setQ_interval (q : List Entry) : (s.setQ q).interval = s.interval := rfl
@[simp] theorem setQ_maxRetx (q : List Entry) : (s.setQ q).maxRetx = s.maxRetx := rfl
@[simp] theorem setQ_q (q : List Entry) : (s.setQ q).q = q := rfl
@[simp] theorem setQ_tx (q : List Entry) : (s.setQ q).tx = s.tx := rfl
@[simp] theorem setQ_now (q : List Entry) : (s.setQ q).now = s.now := rfl
@[simp] theorem setQ_rsp (q : List Entry) : (s.setQ q).rsp = s.rsp := rfl
@[simp] theorem setQ_input (q : List Entry) : (s.setQ q).input = s.input := rfl

@[simp] theorem setTx_fb (t : Transmit) : (s.setTx t).fb = s.fb := rfl
@[simp] theorem setTx_mb (t : Transmit) : (s.setTx t).mb = s.mb := rfl
@[simp] theorem setTx_xb (t : Transmit) : (s.setTx t).xb = s.xb := rfl
@[simp] theorem setTx_xbCnt (t : Transmit) : (s.setTx t).xbCnt = s.xbCnt := rfl
@[simp] theorem setTx_acc (t : Transmit) : (s.setTx t).acc = s.acc := rfl
@[simp] theorem setTx_pos (t : Transmit) : (s.setTx t).pos = s.pos := rfl
@[simp] theorem setTx_found (t : Transmit) : (s.setTx t).found = s.found := rfl
@[simp] theorem setTx_res (t : Transmit) : (s.setTx t).res = s.res := rfl
@[simp] theorem setTx_interval (t : Transmit) : (s.setTx t).interval = s.interval := rfl
@[simp] theorem setTx_maxRetx (t : Transmit) : (s.setTx t).maxRetx = s.maxRetx := rfl
@[simp] theorem setTx_q (t : Transmit) : (s.setTx t).q = s.q := rfl
@[simp] theorem setTx_tx (t : Transmit) : (s.setTx t).tx = t := rfl
@[simp] theorem setTx_now (t : Transmit) : (s.setTx t).now = s.now := rfl
@[simp] theorem setTx_rsp (t : Transmit) : (s.setTx t).rsp = s.rsp := rfl
@[simp] theorem setTx_input (t : Transmit) : (s.setTx t).input = s.input := rfl

@[simp] theorem setInterval_fb (v : BitVec 16) : (s.setInterval v).fb = s.fb := rfl
@[simp] theorem setInterval_mb (v : BitVec 16) : (s.setInterval v).mb = s.mb := rfl
@[simp] theorem setInterval_xb (v : BitVec 16) : (s.setInterval v).xb = s.xb := rfl
@[simp] theorem setInterval_xbCnt (v : BitVec 16) : (s.setInterval v).xbCnt = s.xbCnt := rfl
@[simp] theorem setInterval_acc (v : BitVec 16) : (s.setInterval v).acc = s.acc := rfl
@[simp] theorem setInterval_pos (v : BitVec 16) : (s.setInterval v).pos = s.pos := rfl
@[simp] theorem setInterval_found (v : BitVec 16) : (s.setInterval v).found = s.found := rfl
@[simp] theorem setInterval_res (v : BitVec 16) : (s.setInterval v).res = s.res := rfl
@[simp] theorem setInterval_interval (v : BitVec 16) : (s.setInterval v).interval = v := rfl
@[simp] theorem setInterval_maxRetx (v : BitVec 16) : (s.setInterval v).maxRetx = s.maxRetx := rfl
@[simp] theorem setInterval_q (v : BitVec 16) : (s.setInterval v).q = s.q := rfl
@[simp] theorem setInterval_tx (v : BitVec 16) : (s.setInterval v).tx = s.tx := rfl
@[simp] theorem setInterval_now (v : BitVec 16) : (s.setInterval v).now = s.now := rfl
@[simp] theorem setInterval_rsp (v : BitVec 16) : (s.setInterval v).rsp = s.rsp := rfl
@[simp] theorem setInterval_input (v : BitVec 16) : (s.setInterval v).input = s.input := rfl

@[simp] theorem setMaxRetx_fb (v : Byte) : (s.setMaxRetx v).fb = s.fb := rfl
@[simp] theorem setMaxRetx_mb (v : Byte) : (s.setMaxRetx v).mb = s.mb := rfl
@[simp] theorem setMaxRetx_xb (v : Byte) : (s.setMaxRetx v).xb = s.xb := rfl
@[simp] theorem setMaxRetx_xbCnt (v : Byte) : (s.setMaxRetx v).xbCnt = s.xbCnt := rfl
@[simp] theorem setMaxRetx_acc (v : Byte) : (s.setMaxRetx v).acc = s.acc := rfl
@[simp] theorem setMaxRetx_pos (v : Byte) : (s.setMaxRetx v).pos = s.pos := rfl
@[simp] theorem setMaxRetx_found (v : Byte) : (s.setMaxRetx v).found = s.found := rfl
@[simp] theorem setMaxRetx_res (v : Byte) : (s.setMaxRetx v).res = s.res := rfl
@[simp] theorem setMaxRetx_interval (v : Byte) : (s.setMaxRetx v).interval = s.interval := rfl
@[simp] theorem setMaxRetx_maxRetx (v : Byte) : (s.setMaxRetx v).maxRetx = v := rfl
@[simp] theorem setMaxRetx_q (v : Byte) : (s.setMaxRetx v).q = s.q := rfl
@[simp] theorem setMaxRetx_tx (v : Byte) : (s.setMaxRetx v).tx = s.tx := rfl
@[simp] theorem setMaxRetx_now (v : Byte) : (s.setMaxRetx v).now = s.now := rfl
@[simp] theorem setMaxRetx_rsp (v : Byte) : (s.setMaxRetx v).rsp = s.rsp := rfl
@[simp] theorem setMaxRetx_input (v : Byte) : (s.setMaxRetx v).input = s.input := rfl

@[simp] theorem nextSample_fb (i : List PortSample) : (nextSample s i).fb = s.fb := rfl
@[simp] theorem nextSample_mb (i : List PortSample) : (nextSample s i).mb = s.mb := rfl
@[simp] theorem nextSample_xb (i : List PortSample) : (nextSample s i).xb = s.xb := rfl
@[simp] theorem nextSample_xbCnt (i : List PortSample) : (nextSample s i).xbCnt = s.xbCnt := rfl
@[simp] theorem nextSample_acc (i : List PortSample) : (nextSample s i).acc = s.acc := rfl
@[simp] theorem nextSample_pos (i : List PortSample) : (nextSample s i).pos = s.pos := rfl
@[simp] theorem nextSample_found (i : List PortSample) : (nextSample s i).found = s.found := rfl
@[simp] theorem nextSample_res (i : List PortSample) : (nextSample s i).res = s.res := rfl
@[simp] theorem nextSample_interval (i : List PortSample) : (nextSample s i).interval = s.interval := rfl
@[simp] theorem nextSample_maxRetx (i : List PortSample) : (nextSample s i).maxRetx = s.maxRetx := rfl
@[simp] theorem nextSample_q (i : List PortSample) : (nextSample s i).q = s.q := rfl
@[simp] theorem nextSample_tx (i : List PortSample) : (nextSample s i).tx = s.tx := rfl
@[simp] theorem nextSample_now (i : List PortSample) : (nextSample s i).now = s.now := rfl
@[simp] theorem nextSample_rsp (i : List PortSample) : (nextSample s i).rsp = s.rsp := rfl
@[simp] theorem nextSample_input (i : List PortSample) : (nextSample s i).input = i := rfl

@[simp] theorem takeResponse_fb : (takeResponse s).fb = s.fb := rfl
@[simp] theorem takeResponse_mb : (takeResponse s).mb = s.mb := rfl
@[simp] theorem takeResponse_xb : (takeResponse s).xb = s.xb := rfl
@[simp] theorem takeResponse_xbCnt : (takeResponse s).xbCnt = s.xbCnt := rfl
@[simp] theorem takeResponse_acc : (takeResponse s).acc = s.acc := rfl
@[simp] theorem takeResponse_pos : (takeResponse s).pos = s.pos := rfl
@[simp] theorem takeResponse_found : (takeResponse s).found = s.found := rfl
@[simp] theorem takeResponse_res : (takeResponse s).res = s.res := rfl
@[simp] theorem takeResponse_interval : (takeResponse s).interval = s.interval := rfl
@[simp] theorem takeResponse_maxRetx : (takeResponse s).maxRetx = s.maxRetx := rfl
@[simp] theorem takeResponse_q : (takeResponse s).q = s.q := rfl
@[simp] theorem takeResponse_tx : (takeResponse s).tx = s.tx := rfl
@[simp] theorem takeResponse_now : (takeResponse s).now = s.now := rfl
@[simp] theorem takeResponse_rsp : (takeResponse s).rsp = none := rfl
@[simp] theorem takeResponse_input : (takeResponse s).input = s.input := rfl

@[simp] theorem sampleNow_fb (n : Time) : (sampleNow s n).fb = s.fb := rfl
@[simp] theorem sampleNow_mb (n : Time) : (sampleNow s n).mb = s.mb := rfl
@[simp] theorem sampleNow_xb (n : Time) : (sampleNow s n).xb = s.xb := rfl
@[simp] theorem sampleNow_xbCnt (n : Time) : (sampleNow s n).xbCnt = s.xbCnt := rfl
@[simp] theorem sampleNow_acc (n : Time) : (sampleNow s n).acc = s.acc := rfl
@[simp] theorem sampleNow_pos (n : Time) : (sampleNow s n).pos = s.pos := rfl
@[simp] theorem sampleNow_found (n : Time) : (sampleNow s n).found = s.found := rfl
@[simp] theorem sampleNow_res (n : Time) : (sampleNow s n).res = s.res := rfl
@[simp] theorem sampleNow_interval (n : Time) : (sampleNow s n).interval = s.interval := rfl
@[simp] theorem sampleNow_maxRetx (n : Time) : (sampleNow s n).maxRetx = s.maxRetx := rfl
@[simp] theorem sampleNow_q (n : Time) : (sampleNow s n).q = s.q := rfl
@[simp] theorem sampleNow_tx (n : Time) : (sampleNow s n).tx = s.tx := rfl
@[simp] theorem sampleNow_now (n : Time) : (sampleNow s n).now = n := rfl
@[simp] theorem sampleNow_rsp (n : Time) : (sampleNow s n).rsp = s.rsp := rfl
@[simp] theorem sampleNow_input (n : Time) : (sampleNow s n).input = s.input := rfl

end Sys2Proof.Machine
end

