-- ==== Sys2Proof/Laws/Exec.lean ====
section
/-! SUPPORT. Everything each shared operation behind the commands can do. -/

namespace Sys2Proof.Machine

variable (s : State)

/-! ## XB written whole (41_bit_utilities.md R162) -/

/-- XB always has its thirty-two bytes. -/
@[simp] theorem setXb_xb_length (bytes : List Byte) : (s.setXb bytes).xb.length = 32 := by
  simp [State.setXb, Config.params, Config.withOpen]

/-- A sequence of bytes filled up with zeros to `n` bytes. -/
theorem padded_getD (bytes : List Byte) (n j : Nat) (h : bytes.length ≤ n) :
    ((bytes ++ List.replicate n 0).take n).getD j 0 = bytes.getD j 0 := by
  simp only [List.getD_eq_getElem?_getD, List.getElem?_take, List.getElem?_append, List.getElem?_replicate]
  split
  · split
    · rfl
    · rw [List.getElem?_eq_none (by omega : bytes.length ≤ j)]; split <;> rfl
  · rw [List.getElem?_eq_none (by omega : bytes.length ≤ j)]

theorem setXb_xb_getD (bytes : List Byte) (h : bytes.length ≤ 32) (j : Nat) :
    (s.setXb bytes).xb.getD j 0 = bytes.getD j 0 := padded_getD bytes 32 j h

@[simp] theorem setXb_xbCnt_toNat (bytes : List Byte) (h : bytes.length ≤ 32) :
    (s.setXb bytes).xbCnt.toNat = bytes.length := by
  simp only [State.setXb, BitVec.toNat_ofNat]; omega

/-- The bits of XB are those of the bytes written, then zeros. -/
theorem setXb_bits (bytes : List Byte) (h : bytes.length ≤ 32) (k : Nat) :
    (bitsOf (s.setXb bytes).xb).getD k false = (bitsOf bytes).getD k false := by
  rw [bitsOf_getD, bitsOf_getD, setXb_xb_getD _ _ h]

/-- XB of no bytes is all zero. -/
@[simp] theorem setXb_nil_xb : (s.setXb []).xb = List.replicate 32 0 := rfl

@[simp] theorem setXb_nil_xbCnt : (s.setXb []).xbCnt = 0 := rfl

/-! ## Frame buffer -/

@[simp] theorem pushBits_length (n : Nat) (d : Byte) : (pushBits n d).length = min n 8 := by
  simp [pushBits]

/-- FBPUSH appends or refuses (40_frame_buffer.md R152). -/
theorem execFbpush_cases (n : BitVec 4) (d : Byte) :
    ((1 ≤ n.toNat ∧ n.toNat ≤ 8 ∧ s.fb.length + n.toNat ≤ 256) ∧
      execFbpush n d s = .next (respond (s.setFb (s.fb ++ pushBits n.toNat d)) .ok
        (BitVec.ofNat 32 (s.fb.length + n.toNat)))) ∨
    (¬ (1 ≤ n.toNat ∧ n.toNat ≤ 8 ∧ s.fb.length + n.toNat ≤ 256) ∧
      execFbpush n d s = .next (respond s .badOperand 0)) := by
  by_cases h : 1 ≤ n.toNat ∧ n.toNat ≤ 8 ∧ s.fb.length + n.toNat ≤ 256
  · refine .inl ⟨h, ?_⟩
    simp [execFbpush, pushCountLegal, h.1, h.2.1, h.2.2, State.fbLen, Config.params, Config.withOpen]
  · refine .inr ⟨h, ?_⟩
    have : ¬ (pushCountLegal n.toNat = true ∧ s.fb.length + n.toNat ≤ Config.params.fbMaxBits) := by
      simp only [pushCountLegal, Config.params, Config.withOpen, Bool.and_eq_true, decide_eq_true_eq]; tauto
    rw [execFbpush, if_neg this]

/-! ## Bit utilities -/

/-- EXTF and EXTM copy a range into XB or clear it (41_bit_utilities.md R162). -/
theorem extractIntoXb_cases (source : List Bool) (off cnt : Nat) :
    (off + cnt ≤ source.length ∧ ∃ bytes, extract source off cnt = some bytes ∧
      extractIntoXb s source off cnt = .next (respond (s.setXb bytes) .ok (s.setXb bytes).xbCount)) ∨
    (source.length < off + cnt ∧ extract source off cnt = none ∧
      extractIntoXb s source off cnt = .next (respond (s.setXb []) .abortLength 0)) := by
  rcases extract_cases source off cnt with ⟨h, e⟩ | ⟨h, e⟩
  · exact .inl ⟨h, _, e, by simp [extractIntoXb, e]⟩
  · exact .inr ⟨h, e, by simp [extractIntoXb, e]⟩

/-- CRC8, CKSUM and XORF put a value in ACC or clear it (R167). -/
theorem foldIntoAcc_cases (count : Nat) (f : List Byte → Nat → Byte) :
    (count ≤ s.xbCnt.toNat ∧
      foldIntoAcc s count f = .next (respond (s.setAcc (f s.xb count)) .ok ((f s.xb count).setWidth 32))) ∨
    (s.xbCnt.toNat < count ∧ foldIntoAcc s count f = .next (respond (s.setAcc 0) .abortLength 0)) := by
  by_cases h : count ≤ s.xbCnt.toNat
  · exact .inl ⟨h, by simp [foldIntoAcc, xbHolds, h]⟩
  · exact .inr ⟨by omega, by simp [foldIntoAcc, xbHolds, h]⟩

/-! ## Pattern matcher and Manchester decoder -/

/-- FINDP sets FOUND and POS or clears them (42_pattern_manchester.md R191). -/
theorem execFindp_cases (hi lo win : Byte) :
    (∃ k, findPattern s.fb hi lo win.toNat = some k ∧
      execFindp hi lo win s = .next (respond (s.setFound k) .ok (BitVec.ofNat 32 k))) ∨
    (findPattern s.fb hi lo win.toNat = none ∧
      execFindp hi lo win s = .next (respond s.clearFound .notFound 0)) := by
  cases h : findPattern s.fb hi lo win.toNat with
  | none => exact .inr ⟨rfl, by simp [execFindp, h]⟩
  | some k => exact .inl ⟨k, rfl, by simp [execFindp, h]⟩

/-- MAND and MANDI decode into MB or empty it (R196). -/
theorem manchesterIntoMb_cases (pre nout : Nat) (inv : Bool) :
    (∃ bits, manDecode Config.params s.fb pre nout inv = .decoded bits ∧
      manchesterIntoMb s pre nout inv = .next (respond (s.setMb bits) .ok (BitVec.ofNat 32 nout))) ∨
    (manDecode Config.params s.fb pre nout inv = .failLength ∧
      manchesterIntoMb s pre nout inv = .next (respond (s.setMb []) .abortLength 0)) ∨
    (∃ j, manDecode Config.params s.fb pre nout inv = .violation j ∧
      manchesterIntoMb s pre nout inv = .next (respond (s.setMb []) .manViolation (BitVec.ofNat 32 j))) := by
  cases h : manDecode Config.params s.fb pre nout inv with
  | decoded bits =>
    have hl := (manDecode_length h).1
    exact .inl ⟨bits, rfl, by simp [manchesterIntoMb, h, State.mbLen, hl]⟩
  | failLength => exact .inr (.inl ⟨rfl, by simp [manchesterIntoMb, h]⟩)
  | violation j => exact .inr (.inr ⟨j, rfl, by simp [manchesterIntoMb, h]⟩)

/-! ## Decoders and dispatcher -/

/-- The decode commands write RES whole (43_variant_decoders.md R214). -/
theorem decodeIntoRes_cases (x : Except FailKind Reading) :
    (∃ r, x = .ok r ∧ decodeIntoRes s x = .next (respond (s.setRes r) .ok r.id)) ∨
    (∃ k, x = .error k ∧ decodeIntoRes s x = .next (respond (s.setRes .zero) (failCode k) 0)) := by
  cases x with
  | ok r => exact .inl ⟨r, rfl, rfl⟩
  | error k => exact .inr ⟨k, rfl, rfl⟩

/-- A reading of the dispatcher is one of its decoders' (44_dispatcher.md R250). -/
theorem firstReading_eq_some {p : Params} {f : List Bool} {order : List Variant} {r : Reading}
    (h : firstReading p f order = some r) : ∃ v ∈ order, decodeVariant p f v = .ok r := by
  induction order with
  | nil => simp [firstReading] at h
  | cons v vs ih =>
    cases hv : decodeVariant p f v with
    | ok x => exact ⟨v, by simp, by simpa [firstReading, hv] using h⟩
    | error k =>
      obtain ⟨w, hw, e⟩ := ih (by simpa [firstReading, hv] using h)
      exact ⟨w, by simp [hw], e⟩

/-- The dispatcher finds no reading exactly when every decoder refuses (R250). -/
theorem firstReading_eq_none_iff (p : Params) (f : List Bool) (order : List Variant) :
    firstReading p f order = none ↔ ∀ v ∈ order, ∃ k, decodeVariant p f v = .error k := by
  induction order with
  | nil => simp [firstReading]
  | cons v vs ih => cases hv : decodeVariant p f v <;> simp [firstReading, hv, ih]

/-- DISP writes RES whole (R251). -/
theorem dispatchIntoRes_cases (p : Params) :
    (∃ r, firstReading p s.fb p.dispatchOrder = some r ∧
      dispatchIntoRes p s = .next (respond (s.setRes r) .ok r.id)) ∨
    (firstReading p s.fb p.dispatchOrder = none ∧
      dispatchIntoRes p s = .next (respond (s.setRes .zero) .noMatch (noMatchData p s.fb))) := by
  cases h : firstReading p s.fb p.dispatchOrder with
  | none => exact .inr ⟨rfl, by simp [dispatchIntoRes, h]⟩
  | some r => exact .inl ⟨r, rfl, by simp [dispatchIntoRes, h]⟩

/-! ## Queue -/

/-- QADD without a reading, with a queue that takes it, with one that does not (45_queue.md R263). -/
theorem execQadd_cases :
    (s.res.valid = false ∧ execQadd s = .next (respond s .noReading 0)) ∨
    (s.res.valid = true ∧ ∃ q, addOrUpdate Config.params s.q (entryOf s.res s.now s.interval) = some q ∧
      execQadd s = .next (respond (s.setQ q) .ok (BitVec.ofNat 32 q.length))) ∨
    (s.res.valid = true ∧ addOrUpdate Config.params s.q (entryOf s.res s.now s.interval) = none ∧
      execQadd s = .next (respond s .queueFull s.qSize)) := by
  cases hv : s.res.valid with
  | false => exact .inl ⟨rfl, by simp [execQadd, hv]⟩
  | true =>
    cases h : addOrUpdate Config.params s.q (entryOf s.res s.now s.interval) with
    | none => exact .inr (.inr ⟨rfl, rfl, by simp [execQadd, hv, h]⟩)
    | some q => exact .inr (.inl ⟨rfl, q, rfl, by simp [execQadd, hv, h, State.qSize]⟩)

/-- QDUE services an entry or finds none due (R271). -/
theorem execQdue_cases :
    (∃ r, getNextDue s.now s.interval s.maxRetx s.q = some r ∧
      execQdue s = .next (respond ((s.setQ r.queue).setTx (transmitOf r)) .ok r.entry.id)) ∨
    (getNextDue s.now s.interval s.maxRetx s.q = none ∧
      execQdue s = .next (respond (s.setTx .zero) .noneDue 0)) := by
  cases h : getNextDue s.now s.interval s.maxRetx s.q with
  | none => exact .inr ⟨rfl, by simp [execQdue, h]⟩
  | some r => exact .inl ⟨r, rfl, by simp [execQdue, h]⟩

/-! ## Register access -/

/-- CSRR answers a register's value or BAD_OPERAND (46_csr_access.md R301). -/
theorem execCsrr_cases (a : Byte) :
    (∃ v, csrRead s a = some v ∧ execCsrr a s = .next (respond s .ok v)) ∨
    (csrRead s a = none ∧ execCsrr a s = .next (respond s .badOperand 0)) := by
  cases h : csrRead s a with
  | none => exact .inr ⟨rfl, by simp [execCsrr, h]⟩
  | some v => exact .inl ⟨v, rfl, by simp [execCsrr, h]⟩

/-- CSRW writes INTERVAL or MAX_RETX or nothing (R303). -/
theorem execCsrw_cases (a : Byte) (imm : BitVec 16) :
    (a = 0x01 ∧ execCsrw a imm s = .next (respond (s.setInterval imm) .ok (imm.setWidth 32))) ∨
    (a = 0x02 ∧ execCsrw a imm s =
      .next (respond (s.setMaxRetx (imm.setWidth 8)) .ok ((imm.setWidth 8).setWidth 32))) ∨
    (a ≠ 0x01 ∧ a ≠ 0x02 ∧ execCsrw a imm s = .next (respond s .badOperand 0)) := by
  by_cases h1 : a = 0x01
  · exact .inl ⟨h1, by simp [execCsrw, h1]⟩
  · by_cases h2 : a = 0x02
    · exact .inr (.inl ⟨h2, by simp [execCsrw, h2]⟩)
    · exact .inr (.inr ⟨h1, h2, by rw [execCsrw, if_neg h1, if_neg h2]⟩)

/-! ## Sequences of commands, one at a time -/

theorem execAll_cons {t : State} {i : Instr} (is : List Instr) (h : exec i s = .next t) :
    execAll s (i :: is) = execAll t is := by simp only [execAll, h]

theorem serial_cons {t : State} {c : Word × Time} (cs : List (Word × Time)) (h : accept s c.1 c.2 = .next t) :
    serial s (c :: cs) = serial (takeResponse t) cs := by simp only [serial, h]

theorem addAll_cons {t : State} {r : Reading × Time} (rs : List (Reading × Time))
    (h : exec .qadd { s with res := r.1, now := r.2 } = .next t) : addAll s (r :: rs) = addAll t rs := by
  simp only [addAll, h]

theorem pollAll_cons {t : State} {n : Time} (ns : List Time) (h : exec .qdue { s with now := n } = .next t) :
    pollAll s (n :: ns) = pollAll t ns := by simp only [pollAll, h]

/-- A poll counts when it serviced the id. -/
theorem services_cons {t : State} {n : Time} (id : Word) (ns : List Time)
    (h : exec .qdue { s with now := n } = .next t) :
    services id s (n :: ns) = (if t.rsp = some ⟨.ok, id⟩ then 1 else 0) + services id t ns := by
  simp only [services, h]

/-! ## Serial execution on the ports -/

/-- A step on a sample that offers a command while CMD_READY is 1 accepts it (10_state.md R31). -/
theorem step_of_offer {s : State} {p : PortSample} {rest : List PortSample} (hi : s.input = p :: rest)
    (hr : p.reset = false) (hv : p.cmdValid = true) (hn : s.rsp = none) :
    step s = accept (nextSample s rest) p.cmd p.now := by
  simp [step, hi, hr, hv, State.rspValid, hn]

/-- A step with a response pending takes it or waits. -/
theorem step_of_pending {s : State} {p : PortSample} {rest : List PortSample} {r : Response}
    (hi : s.input = p :: rest) (hr : p.reset = false) (hn : s.rsp = some r) :
    step s = .next (if p.rspReady then takeResponse (nextSample s rest) else nextSample s rest) := by
  simp [step, hi, hr, State.rspValid, hn]

/-- A run whose first step goes on. -/
theorem run_succ_of_step {s t : State} (k : Nat) (h : step s = .next t) :
    Host.Core.run Sys2Proof.core (k + 1) s = Host.Core.run Sys2Proof.core k t := by
  simp only [Host.Core.run, show Sys2Proof.core.step s = .next t from h]

/-- A run of one step is the step. -/
theorem run_one (s : State) : Host.Core.run Sys2Proof.core 1 s = step s := by
  simp only [Host.Core.run]
  cases h : step s <;> rw [show Sys2Proof.core.step s = _ from h] <;> rfl

end Sys2Proof.Machine
end

