-- ==== Sys2Proof/Laws/Decoders.lean ====
section
/-! SUPPORT. Everything the three variant decoders can do, in the order of their checks
(43_variant_decoders.md R211). -/

namespace Sys2Proof.Machine

variable (p : Params) (s : List Bool)

/-- The reading of an accepted classic frame with payload bytes `P` (R212, R216). -/
abbrev classicReading (P : List Byte) : Reading where
  valid := true
  variant := .classic
  integrity := .crc
  id := BitVec.ofNat 32 (valAt s (p.classicSyncBits + 12) 28)
  flags := BitVec.ofNat 32 (valAt s (p.classicSyncBits + 4) 8)
  press := (P.getD 5 0).setWidth 10
  temp := P.getD 6 0
  tempValid := true
  mic := P.getD 7 0
  diag := 0
  parityRx := 0

/-- The reading of an accepted extended-manufacturer frame with payload bytes `P` (R221, R222). -/
abbrev extReading (P : List Byte) : Reading where
  valid := true
  variant := .ext
  integrity := .checksum
  id := 0#8 ++ P.getD 4 0 ++ P.getD 5 0 ++ P.getD 6 0
  flags := P.getD 0 0 ++ P.getD 1 0 ++ P.getD 2 0 ++ P.getD 3 0
  press := (P.getD 7 0).setWidth 10
  temp := P.getD 8 0
  tempValid := true
  mic := P.getD 9 0
  diag := 0
  parityRx := 0

/-- The reading of an accepted Manchester/parity frame with decoded bits `d` (R231, R233). -/
abbrev manReading (d : List Bool) (B : List Byte) : Reading where
  valid := true
  variant := .man
  integrity := .unchecked
  id := BitVec.ofNat 32 (valAt d 3 24)
  flags := BitVec.ofNat 32 (valAt d 0 3)
  press := BitVec.ofNat 10 (valAt d 27 10)
  temp := 0
  tempValid := false
  mic := 0
  diag := xorFold B 5
  parityRx := BitVec.ofNat 2 (valAt d 37 2)

/-- `decodeClassic` where the sync nibble is not compared. -/
theorem decodeClassic_cases (hc : p.classicSyncCheck = false) (hl : p.classicSyncBits + 64 ≤ p.classicLen) :
    (s.length ≠ p.classicLen ∧ decodeClassic p s = .error .abortLength) ∨
    (s.length = p.classicLen ∧ ∃ P, extract s p.classicSyncBits 64 = some P ∧
      ((allZero P = true ∧ decodeClassic p s = .error .failSanity) ∨
       (allZero P = false ∧ crc8 P 7 p.crcPoly p.crcInit ≠ P.getD 7 0 ∧ decodeClassic p s = .error .failMic) ∨
       (allZero P = false ∧ crc8 P 7 p.crcPoly p.crcInit = P.getD 7 0 ∧
          decodeClassic p s = .ok (classicReading p s P)))) := by
  by_cases h : s.length = p.classicLen
  · right
    refine ⟨h, ?_⟩
    rcases extract_cases s p.classicSyncBits 64 with ⟨h1, e⟩ | ⟨h1, e⟩
    · refine ⟨_, e, ?_⟩
      generalize packBytes (slice s p.classicSyncBits 64) = P at e
      cases hz : allZero P with
      | true => exact .inl ⟨rfl, by simp [decodeClassic, h, hc, e, hz]⟩
      | false =>
        by_cases hm : crc8 P 7 p.crcPoly p.crcInit = P.getD 7 0
        · exact .inr (.inr ⟨rfl, hm, by simp [decodeClassic, h, hc, e, hz, hm]⟩)
        · refine .inr (.inl ⟨rfl, hm, ?_⟩)
          simp only [decodeClassic, h, hc, e, hz, ne_eq, hm, not_false_eq_true, if_true, not_true_eq_false, if_false,
            Bool.false_eq_true, false_and]
    · omega
  · exact .inl ⟨h, by simp [decodeClassic, h]⟩

/-- `decodeExt`. -/
theorem decodeExt_cases :
    (s.length < p.extMinLen ∧ decodeExt p s = .error .abortLength) ∨
    (p.extMinLen ≤ s.length ∧ findPattern s p.extMarkerHi p.extMarkerLo p.extSearchWindow = none ∧
      decodeExt p s = .error .failSanity) ∨
    (p.extMinLen ≤ s.length ∧ ∃ k, findPattern s p.extMarkerHi p.extMarkerLo p.extSearchWindow = some k ∧
      ((s.length < k + p.extPayloadSkip + 80 ∧ decodeExt p s = .error .abortLength) ∨
       (∃ P, extract s (k + p.extPayloadSkip) 80 = some P ∧
         ((allZero P = true ∧ decodeExt p s = .error .failSanity) ∨
          (allZero P = false ∧ checksum P 9 ≠ P.getD 9 0 ∧ decodeExt p s = .error .failMic) ∨
          (allZero P = false ∧ checksum P 9 = P.getD 9 0 ∧ decodeExt p s = .ok (extReading P)))))) := by
  by_cases h : s.length < p.extMinLen
  · exact .inl ⟨h, by simp [decodeExt, h]⟩
  · right
    cases hf : findPattern s p.extMarkerHi p.extMarkerLo p.extSearchWindow with
    | none => exact .inl ⟨by omega, rfl, by simp [decodeExt, h, hf]⟩
    | some k =>
      refine .inr ⟨by omega, k, rfl, ?_⟩
      rcases extract_cases s (k + p.extPayloadSkip) 80 with ⟨h1, e⟩ | ⟨h1, e⟩
      · refine .inr ⟨_, e, ?_⟩
        generalize packBytes (slice s (k + p.extPayloadSkip) 80) = P at e
        cases hz : allZero P with
        | true => exact .inl ⟨rfl, by simp [decodeExt, h, hf, e, hz]⟩
        | false =>
          by_cases hm : checksum P 9 = P.getD 9 0
          · exact .inr (.inr ⟨rfl, hm, by simp [decodeExt, h, hf, e, hz, hm]⟩)
          · refine .inr (.inl ⟨rfl, hm, ?_⟩)
            simp only [decodeExt, h, hf, e, hz, ne_eq, hm, not_false_eq_true, if_true, if_false, Bool.false_eq_true]
      · exact .inl ⟨h1, by simp [decodeExt, h, hf, e]⟩

/-- `decodeMan`. -/
theorem decodeMan_cases (hl : p.manPreambleBits + 2 * p.manPayloadBits ≤ p.manLen) :
    (s.length ≠ p.manLen ∧ decodeMan p s = .error .abortLength) ∨
    (s.length = p.manLen ∧ valAt s 0 p.manPreambleBits ≠ p.manPreamble.toNat ∧
      decodeMan p s = .error .failSanity) ∨
    (s.length = p.manLen ∧ valAt s 0 p.manPreambleBits = p.manPreamble.toNat ∧
      (slice s p.manPreambleBits (2 * p.manPayloadBits)).all (· == false) = true ∧
      decodeMan p s = .error .failSanity) ∨
    (s.length = p.manLen ∧ valAt s 0 p.manPreambleBits = p.manPreamble.toNat ∧
      (slice s p.manPreambleBits (2 * p.manPayloadBits)).all (· == false) = false ∧
      ((∃ j, manDecode p s p.manPreambleBits p.manPayloadBits p.manInvert = .violation j ∧
          decodeMan p s = .error .failMic) ∨
       (∃ d B, manDecode p s p.manPreambleBits p.manPayloadBits p.manInvert = .decoded d ∧
          extract d 0 p.manPayloadBits = some B ∧ decodeMan p s = .ok (manReading d B)))) := by
  by_cases h : s.length = p.manLen
  · right
    by_cases hv : valAt s 0 p.manPreambleBits = p.manPreamble.toNat
    · right
      cases hz : (slice s p.manPreambleBits (2 * p.manPayloadBits)).all (· == false) with
      | true =>
        refine .inl ⟨h, hv, rfl, ?_⟩
        simp only [decodeMan, h, hv, hz, ne_eq, not_true_eq_false, if_false, if_true]
      | false =>
        refine .inr ⟨h, hv, rfl, ?_⟩
        cases hd : manDecode p s p.manPreambleBits p.manPayloadBits p.manInvert with
        | failLength =>
          rcases manDecode_cases p s p.manPreambleBits p.manPayloadBits p.manInvert with ⟨hs, _⟩ | ⟨_, j, _, _, _, e⟩ | ⟨_, _, e⟩
          · omega
          · simp [hd] at e
          · simp [hd] at e
        | violation j =>
          refine .inl ⟨j, rfl, ?_⟩
          simp only [decodeMan, h, hv, hz, hd, ne_eq, not_true_eq_false, if_false, Bool.false_eq_true]
        | decoded d =>
          have hn := (manDecode_length hd).1
          rcases extract_cases d 0 p.manPayloadBits with ⟨h1, e⟩ | ⟨h1, e⟩
          · refine .inr ⟨d, _, rfl, e, ?_⟩
            simp only [decodeMan, h, hv, hz, hd, e, ne_eq, not_true_eq_false, if_false, Bool.false_eq_true]
          · omega
    · exact .inl ⟨h, hv, by simp [decodeMan, h, hv]⟩
  · exact .inl ⟨h, by simp [decodeMan, h]⟩

/-! ## The all-zero tests -/

/-- The bytes of a payload are all zero exactly when its bits are. -/
theorem allZero_packBytes (l : List Bool) : allZero (packBytes l) = true ↔ ∀ k, l.getD k false = false := by
  constructor
  · intro h k
    rw [← bitsOf_packBytes_getD, bitsOf_getD]
    simp only [allZero, List.all_eq_true, beq_iff_eq] at h
    by_cases hk : k / 8 < (packBytes l).length
    · rw [List.getD_eq_getElem _ _ hk, h _ (List.getElem_mem hk)]; simp
    · rw [List.getD_eq_default _ _ (by omega)]; simp
  · intro h
    simp only [allZero, List.all_eq_true, beq_iff_eq]
    intro b hb
    obtain ⟨j, hj, rfl⟩ := List.getElem_of_mem hb
    rw [← List.getD_eq_getElem _ 0 hj, packBytes_getD]
    apply BitVec.eq_of_getLsbD_eq
    intro i hi
    have e := packByte_getLsbD l j (7 - i) (by omega)
    rw [show 7 - (7 - i) = i by omega] at e
    rw [e, h]; simp

/-- A sequence of one length is all zero exactly when each of its bits is. -/
theorem eq_replicate_false_iff {l : List Bool} {n : Nat} (h : l.length = n) :
    l = List.replicate n false ↔ ∀ k, l.getD k false = false := by
  constructor
  · rintro rfl k
    simp only [List.getD_eq_getElem?_getD, List.getElem?_replicate]; split <;> rfl
  · intro hk
    apply List.ext_getElem (by simpa using h)
    intro i h1 h2
    have := hk i
    rw [List.getD_eq_getElem _ _ h1] at this
    simpa using this

/-! ## Payload bytes of frames built from fields -/

/-- A payload that is the bits of whole bytes is extracted as those bytes. -/
theorem extract_bitsOf (lead tail : List Bool) (B : List Byte) :
    extract (lead ++ bitsOf B ++ tail) lead.length (8 * B.length) = some B := by
  rcases extract_cases (lead ++ bitsOf B ++ tail) lead.length (8 * B.length) with ⟨_, e⟩ | ⟨h, _⟩
  · rw [e, ← bitsOf_length, slice_append, packBytes_bitsOf]
  · simp at h

/-- The payload of a classic frame is the bytes its CRC covers and the CRC (R216). -/
theorem classicPayload_eq (flags : BitVec 12) (id : BitVec 28) (press temp crc : Byte) :
    classicPayload flags id press temp crc = bitsOf (classicData flags id press temp ++ [crc]) := by
  have hf : fieldBits flags = fieldBits (flags.extractLsb' 4 8) ++ fieldBits (flags.extractLsb' 0 4) := by
    rw [← fieldBits_split flags 0 12 8 4 4 rfl rfl, extractLsb'_whole]
  have hi : fieldBits id = fieldBits (id.extractLsb' 24 4) ++ (fieldBits (id.extractLsb' 16 8) ++
      (fieldBits (id.extractLsb' 8 8) ++ fieldBits (id.extractLsb' 0 8))) := by
    rw [← fieldBits_split id 0 16 8 8 8 rfl rfl, ← fieldBits_split id 0 24 8 16 16 rfl rfl,
      ← fieldBits_split id 0 28 4 24 24 rfl rfl, extractLsb'_whole]
  have hm : byteBits (flags.extractLsb' 0 4 ++ id.extractLsb' 24 4) =
      fieldBits (flags.extractLsb' 0 4) ++ fieldBits (id.extractLsb' 24 4) := fieldBits_append _ _
  simp only [classicPayload, classicData, List.cons_append, List.nil_append, bitsOf_cons, bitsOf_nil, hf, hi, hm,
    byteBits_eq_fieldBits, List.append_assoc, List.append_nil]

/-- The payload of an extended-manufacturer frame is the bytes its sum covers and the sum (R221). -/
theorem extPayload_eq (flags : Word) (id : BitVec 24) (press temp sum : Byte) :
    extPayload flags id press temp sum = bitsOf (extData flags id press temp ++ [sum]) := by
  have hf : fieldBits flags = fieldBits (flags.extractLsb' 24 8) ++ (fieldBits (flags.extractLsb' 16 8) ++
      (fieldBits (flags.extractLsb' 8 8) ++ fieldBits (flags.extractLsb' 0 8))) := by
    rw [← fieldBits_split flags 0 16 8 8 8 rfl rfl, ← fieldBits_split flags 0 24 8 16 16 rfl rfl,
      ← fieldBits_split flags 0 32 8 24 24 rfl rfl, extractLsb'_whole]
  have hi : fieldBits id = fieldBits (id.extractLsb' 16 8) ++
      (fieldBits (id.extractLsb' 8 8) ++ fieldBits (id.extractLsb' 0 8)) := by
    rw [← fieldBits_split id 0 16 8 8 8 rfl rfl, ← fieldBits_split id 0 24 8 16 16 rfl rfl, extractLsb'_whole]
  simp only [extPayload, extData, List.cons_append, List.nil_append, bitsOf_cons, bitsOf_nil, hf, hi,
    byteBits_eq_fieldBits, List.append_assoc, List.append_nil]

end Sys2Proof.Machine
end

