-- ==== Sys2Proof/Laws/Inversion.lean ====
section
/-! SUPPORT. Once and for all: every way a command can end. -/

namespace Sys2Proof.Machine

/-- `Effect i s t`: `t` is one of the states in which command `i`, executed on `s`, can end, with the
condition under which it ends so. -/
inductive Effect : Instr → State → State → Prop where
  | fbclr (s) : Effect .fbclr s (respond (s.setFb []) .ok 0)
  | fbpush (n d s) (h : 1 ≤ n.toNat ∧ n.toNat ≤ 8 ∧ s.fb.length + n.toNat ≤ 256) :
      Effect (.fbpush n d) s (respond (s.setFb (s.fb ++ pushBits n.toNat d)) .ok
        (BitVec.ofNat 32 (s.fb.length + n.toNat)))
  | fbpushRefused (n d s) (h : ¬ (1 ≤ n.toNat ∧ n.toNat ≤ 8 ∧ s.fb.length + n.toNat ≤ 256)) :
      Effect (.fbpush n d) s (respond s .badOperand 0)
  | extf (cnt off s bytes) (h : extract s.fb off.toNat cnt.toNat = some bytes) :
      Effect (.extf cnt off) s (respond (s.setXb bytes) .ok (s.setXb bytes).xbCount)
  | extfShort (cnt off s) (h : extract s.fb off.toNat cnt.toNat = none) :
      Effect (.extf cnt off) s (respond (s.setXb []) .abortLength 0)
  | extm (cnt off s bytes) (h : extract s.mb off.toNat cnt.toNat = some bytes) :
      Effect (.extm cnt off) s (respond (s.setXb bytes) .ok (s.setXb bytes).xbCount)
  | extmShort (cnt off s) (h : extract s.mb off.toNat cnt.toNat = none) :
      Effect (.extm cnt off) s (respond (s.setXb []) .abortLength 0)
  | crc8 (count poly init s) (h : count.toNat ≤ s.xbCnt.toNat) :
      Effect (.crc8 count poly init) s (respond (s.setAcc (Machine.crc8 s.xb count.toNat poly init)) .ok
        ((Machine.crc8 s.xb count.toNat poly init).setWidth 32))
  | crc8Short (count poly init s) (h : s.xbCnt.toNat < count.toNat) :
      Effect (.crc8 count poly init) s (respond (s.setAcc 0) .abortLength 0)
  | cksum (count s) (h : count.toNat ≤ s.xbCnt.toNat) :
      Effect (.cksum count) s (respond (s.setAcc (checksum s.xb count.toNat)) .ok
        ((checksum s.xb count.toNat).setWidth 32))
  | cksumShort (count s) (h : s.xbCnt.toNat < count.toNat) :
      Effect (.cksum count) s (respond (s.setAcc 0) .abortLength 0)
  | xorf (count s) (h : count.toNat ≤ s.xbCnt.toNat) :
      Effect (.xorf count) s (respond (s.setAcc (xorFold s.xb count.toNat)) .ok
        ((xorFold s.xb count.toNat).setWidth 32))
  | xorfShort (count s) (h : s.xbCnt.toNat < count.toNat) :
      Effect (.xorf count) s (respond (s.setAcc 0) .abortLength 0)
  | findp (hi lo win s k) (h : findPattern s.fb hi lo win.toNat = some k) :
      Effect (.findp hi lo win) s (respond (s.setFound k) .ok (BitVec.ofNat 32 k))
  | findpNone (hi lo win s) (h : findPattern s.fb hi lo win.toNat = none) :
      Effect (.findp hi lo win) s (respond s.clearFound .notFound 0)
  | mand (pre nout s bits) (h : manDecode Config.params s.fb pre.toNat nout.toNat false = .decoded bits) :
      Effect (.mand pre nout) s (respond (s.setMb bits) .ok (BitVec.ofNat 32 nout.toNat))
  | mandShort (pre nout s) (h : manDecode Config.params s.fb pre.toNat nout.toNat false = .failLength) :
      Effect (.mand pre nout) s (respond (s.setMb []) .abortLength 0)
  | mandIllegal (pre nout s j) (h : manDecode Config.params s.fb pre.toNat nout.toNat false = .violation j) :
      Effect (.mand pre nout) s (respond (s.setMb []) .manViolation (BitVec.ofNat 32 j))
  | mandi (pre nout s bits) (h : manDecode Config.params s.fb pre.toNat nout.toNat true = .decoded bits) :
      Effect (.mandi pre nout) s (respond (s.setMb bits) .ok (BitVec.ofNat 32 nout.toNat))
  | mandiShort (pre nout s) (h : manDecode Config.params s.fb pre.toNat nout.toNat true = .failLength) :
      Effect (.mandi pre nout) s (respond (s.setMb []) .abortLength 0)
  | mandiIllegal (pre nout s j) (h : manDecode Config.params s.fb pre.toNat nout.toNat true = .violation j) :
      Effect (.mandi pre nout) s (respond (s.setMb []) .manViolation (BitVec.ofNat 32 j))
  | decc (s r) (h : decodeClassic Config.params s.fb = .ok r) :
      Effect .decc s (respond (s.setRes r) .ok r.id)
  | deccRefused (s k) (h : decodeClassic Config.params s.fb = .error k) :
      Effect .decc s (respond (s.setRes .zero) (failCode k) 0)
  | decx (s r) (h : decodeExt Config.params s.fb = .ok r) : Effect .decx s (respond (s.setRes r) .ok r.id)
  | decxRefused (s k) (h : decodeExt Config.params s.fb = .error k) :
      Effect .decx s (respond (s.setRes .zero) (failCode k) 0)
  | decm (s r) (h : decodeMan Config.params s.fb = .ok r) : Effect .decm s (respond (s.setRes r) .ok r.id)
  | decmRefused (s k) (h : decodeMan Config.params s.fb = .error k) :
      Effect .decm s (respond (s.setRes .zero) (failCode k) 0)
  | disp (s r) (h : firstReading Config.params s.fb Config.params.dispatchOrder = some r) :
      Effect .disp s (respond (s.setRes r) .ok r.id)
  | dispNone (s) (h : firstReading Config.params s.fb Config.params.dispatchOrder = none) :
      Effect .disp s (respond (s.setRes .zero) .noMatch (noMatchData Config.params s.fb))
  | qadd (s q) (hv : s.res.valid = true)
      (h : addOrUpdate Config.params s.q (entryOf s.res s.now s.interval) = some q) :
      Effect .qadd s (respond (s.setQ q) .ok (BitVec.ofNat 32 q.length))
  | qaddFull (s) (hv : s.res.valid = true)
      (h : addOrUpdate Config.params s.q (entryOf s.res s.now s.interval) = none) :
      Effect .qadd s (respond s .queueFull s.qSize)
  | qaddNoReading (s) (hv : s.res.valid = false) : Effect .qadd s (respond s .noReading 0)
  | qdue (s r) (h : getNextDue s.now s.interval s.maxRetx s.q = some r) :
      Effect .qdue s (respond ((s.setQ r.queue).setTx (transmitOf r)) .ok r.entry.id)
  | qdueNone (s) (h : getNextDue s.now s.interval s.maxRetx s.q = none) :
      Effect .qdue s (respond (s.setTx .zero) .noneDue 0)
  | qsize (s) : Effect .qsize s (respond s .ok s.qSize)
  | csrr (a s v) (h : csrRead s a = some v) : Effect (.csrr a) s (respond s .ok v)
  | csrrUnimplemented (a s) (h : csrRead s a = none) : Effect (.csrr a) s (respond s .badOperand 0)
  | csrwInterval (a imm s) (h : a = 0x01) :
      Effect (.csrw a imm) s (respond (s.setInterval imm) .ok (imm.setWidth 32))
  | csrwMaxRetx (a imm s) (h : a = 0x02) :
      Effect (.csrw a imm) s (respond (s.setMaxRetx (imm.setWidth 8)) .ok ((imm.setWidth 8).setWidth 32))
  | csrwRefused (a imm s) (h : a ≠ 0x01 ∧ a ≠ 0x02) : Effect (.csrw a imm) s (respond s .badOperand 0)

/-- Every command, on every state, ends in one of its effects. -/
theorem exec_effect (i : Instr) (s : State) : ∃ t, exec i s = .next t ∧ Effect i s t := by
  cases i with
  | fbclr => exact ⟨_, rfl, .fbclr s⟩
  | fbpush n d =>
    rcases execFbpush_cases s n d with ⟨h, e⟩ | ⟨h, e⟩
    · exact ⟨_, e, .fbpush n d s h⟩
    · exact ⟨_, e, .fbpushRefused n d s h⟩
  | extf cnt off =>
    rcases extractIntoXb_cases s s.fb off.toNat cnt.toNat with ⟨_, b, h, e⟩ | ⟨_, h, e⟩
    · exact ⟨_, e, .extf cnt off s b h⟩
    · exact ⟨_, e, .extfShort cnt off s h⟩
  | extm cnt off =>
    rcases extractIntoXb_cases s s.mb off.toNat cnt.toNat with ⟨_, b, h, e⟩ | ⟨_, h, e⟩
    · exact ⟨_, e, .extm cnt off s b h⟩
    · exact ⟨_, e, .extmShort cnt off s h⟩
  | crc8 count poly init =>
    rcases foldIntoAcc_cases s count.toNat (fun B n => crc8 B n poly init) with ⟨h, e⟩ | ⟨h, e⟩
    · exact ⟨_, e, .crc8 count poly init s h⟩
    · exact ⟨_, e, .crc8Short count poly init s h⟩
  | cksum count =>
    rcases foldIntoAcc_cases s count.toNat checksum with ⟨h, e⟩ | ⟨h, e⟩
    · exact ⟨_, e, .cksum count s h⟩
    · exact ⟨_, e, .cksumShort count s h⟩
  | xorf count =>
    rcases foldIntoAcc_cases s count.toNat xorFold with ⟨h, e⟩ | ⟨h, e⟩
    · exact ⟨_, e, .xorf count s h⟩
    · exact ⟨_, e, .xorfShort count s h⟩
  | findp hi lo win =>
    rcases execFindp_cases s hi lo win with ⟨k, h, e⟩ | ⟨h, e⟩
    · exact ⟨_, e, .findp hi lo win s k h⟩
    · exact ⟨_, e, .findpNone hi lo win s h⟩
  | mand pre nout =>
    rcases manchesterIntoMb_cases s pre.toNat nout.toNat false with ⟨b, h, e⟩ | ⟨h, e⟩ | ⟨j, h, e⟩
    · exact ⟨_, e, .mand pre nout s b h⟩
    · exact ⟨_, e, .mandShort pre nout s h⟩
    · exact ⟨_, e, .mandIllegal pre nout s j h⟩
  | mandi pre nout =>
    rcases manchesterIntoMb_cases s pre.toNat nout.toNat true with ⟨b, h, e⟩ | ⟨h, e⟩ | ⟨j, h, e⟩
    · exact ⟨_, e, .mandi pre nout s b h⟩
    · exact ⟨_, e, .mandiShort pre nout s h⟩
    · exact ⟨_, e, .mandiIllegal pre nout s j h⟩
  | decc =>
    rcases decodeIntoRes_cases s (decodeClassic Config.params s.fb) with ⟨r, h, e⟩ | ⟨k, h, e⟩
    · exact ⟨_, e, .decc s r h⟩
    · exact ⟨_, e, .deccRefused s k h⟩
  | decx =>
    rcases decodeIntoRes_cases s (decodeExt Config.params s.fb) with ⟨r, h, e⟩ | ⟨k, h, e⟩
    · exact ⟨_, e, .decx s r h⟩
    · exact ⟨_, e, .decxRefused s k h⟩
  | decm =>
    rcases decodeIntoRes_cases s (decodeMan Config.params s.fb) with ⟨r, h, e⟩ | ⟨k, h, e⟩
    · exact ⟨_, e, .decm s r h⟩
    · exact ⟨_, e, .decmRefused s k h⟩
  | disp =>
    rcases dispatchIntoRes_cases s Config.params with ⟨r, h, e⟩ | ⟨h, e⟩
    · exact ⟨_, e, .disp s r h⟩
    · exact ⟨_, e, .dispNone s h⟩
  | qadd =>
    rcases execQadd_cases s with ⟨hv, e⟩ | ⟨hv, q, h, e⟩ | ⟨hv, h, e⟩
    · exact ⟨_, e, .qaddNoReading s hv⟩
    · exact ⟨_, e, .qadd s q hv h⟩
    · exact ⟨_, e, .qaddFull s hv h⟩
  | qdue =>
    rcases execQdue_cases s with ⟨r, h, e⟩ | ⟨h, e⟩
    · exact ⟨_, e, .qdue s r h⟩
    · exact ⟨_, e, .qdueNone s h⟩
  | qsize => exact ⟨_, rfl, .qsize s⟩
  | csrr a =>
    rcases execCsrr_cases s a with ⟨v, h, e⟩ | ⟨h, e⟩
    · exact ⟨_, e, .csrr a s v h⟩
    · exact ⟨_, e, .csrrUnimplemented a s h⟩
  | csrw a imm =>
    rcases execCsrw_cases s a imm with ⟨h, e⟩ | ⟨h, e⟩ | ⟨h1, h2, e⟩
    · exact ⟨_, e, .csrwInterval a imm s h⟩
    · exact ⟨_, e, .csrwMaxRetx a imm s h⟩
    · exact ⟨_, e, .csrwRefused a imm s ⟨h1, h2⟩⟩

/-- The state a command leaves is one of its effects. -/
theorem effect_of_exec {i : Instr} {s t : State} (h : exec i s = .next t) : Effect i s t := by
  obtain ⟨u, e, hu⟩ := exec_effect i s
  cases e.symm.trans h
  exact hu

end Sys2Proof.Machine
end

