-- ==== Sys2Proof/Laws/PerInstr.lean ====
section
/-! SUPPORT. Per instruction: its word is in its own row of the opcode map, and in no other
(30_encoding.md R113). -/

namespace Sys2Proof.Laws.EncodeMatchesRow

/-- The rows of the opcode map that the word of a command matches are exactly those with its mnemonic. -/
def Statement (i : Instr) : Prop :=
  ∀ r ∈ opcodeRows, r.Matches (encode i) = true ↔ r.mnemonic = mnemonicOf i

end Sys2Proof.Laws.EncodeMatchesRow

namespace Sys2Proof.Laws

/-- The statement from the opcode of the word and its must-be-zero field. -/
theorem encodeMatchesRow_of_opcode {i : Instr} (w : Word) (hw : w = encode i) (op : Byte) (ho : opcodeOf w = op)
    (hrows : ∀ r ∈ opcodeRows, opcodeOf r.pattern = op ↔ r.mnemonic = mnemonicOf i)
    (hz : ∀ r ∈ opcodeRows, opcodeOf r.pattern = op →
      match r.format with
      | .z => w.extractLsb' 0 24 = 0#24
      | .p => w.extractLsb' 12 12 = 0#12
      | .c => w.extractLsb' 0 16 = 0#16
      | .x | .t | .w => True) : EncodeMatchesRow.Statement i := by
  intro r hr
  rw [← hw, opcodeRow_matches_iff hr, ho, ← hrows r hr]
  constructor
  · exact fun h => h.1.symm
  · exact fun h => ⟨h.symm, hz r hr h⟩

end Sys2Proof.Laws

namespace Sys2Proof.Laws.EncodeMatchesRow

theorem fbclr : Statement .fbclr :=
  encodeMatchesRow_of_opcode (wordZ 0x01) rfl 0x01 (opcodeOf_wordZ _)
    (by simp [opcodeRows, opcodeOf, mnemonicOf]) (by simp [opcodeRows, opcodeOf, mbz_wordZ])

theorem fbpush (n : BitVec 4) (d : Byte) : Statement (.fbpush n d) :=
  encodeMatchesRow_of_opcode (wordP 0x02 n d) rfl 0x02 (opcodeOf_wordP _ _ _)
    (by simp [opcodeRows, opcodeOf, mnemonicOf]) (by simp [opcodeRows, opcodeOf, mbz_wordP])

theorem extf (cnt : BitVec 12) (off : BitVec 12) : Statement (.extf cnt off) :=
  encodeMatchesRow_of_opcode (wordX 0x10 cnt off) rfl 0x10 (opcodeOf_wordX _ _ _)
    (by simp [opcodeRows, opcodeOf, mnemonicOf]) (by simp [opcodeRows, opcodeOf])

theorem extm (cnt : BitVec 12) (off : BitVec 12) : Statement (.extm cnt off) :=
  encodeMatchesRow_of_opcode (wordX 0x11 cnt off) rfl 0x11 (opcodeOf_wordX _ _ _)
    (by simp [opcodeRows, opcodeOf, mnemonicOf]) (by simp [opcodeRows, opcodeOf])

theorem crc8 (count : Byte) (poly : Byte) (init : Byte) : Statement (.crc8 count poly init) :=
  encodeMatchesRow_of_opcode (wordT 0x12 count poly init) rfl 0x12 (opcodeOf_wordT _ _ _ _)
    (by simp [opcodeRows, opcodeOf, mnemonicOf]) (by simp [opcodeRows, opcodeOf])

theorem cksum (count : Byte) : Statement (.cksum count) :=
  encodeMatchesRow_of_opcode (wordC 0x13 count) rfl 0x13 (opcodeOf_wordC _ _)
    (by simp [opcodeRows, opcodeOf, mnemonicOf]) (by simp [opcodeRows, opcodeOf, mbz_wordC])

theorem xorf (count : Byte) : Statement (.xorf count) :=
  encodeMatchesRow_of_opcode (wordC 0x14 count) rfl 0x14 (opcodeOf_wordC _ _)
    (by simp [opcodeRows, opcodeOf, mnemonicOf]) (by simp [opcodeRows, opcodeOf, mbz_wordC])

theorem findp (hi : Byte) (lo : Byte) (win : Byte) : Statement (.findp hi lo win) :=
  encodeMatchesRow_of_opcode (wordT 0x15 hi lo win) rfl 0x15 (opcodeOf_wordT _ _ _ _)
    (by simp [opcodeRows, opcodeOf, mnemonicOf]) (by simp [opcodeRows, opcodeOf])

theorem mand (pre : BitVec 12) (nout : BitVec 12) : Statement (.mand pre nout) :=
  encodeMatchesRow_of_opcode (wordX 0x16 pre nout) rfl 0x16 (opcodeOf_wordX _ _ _)
    (by simp [opcodeRows, opcodeOf, mnemonicOf]) (by simp [opcodeRows, opcodeOf])

theorem mandi (pre : BitVec 12) (nout : BitVec 12) : Statement (.mandi pre nout) :=
  encodeMatchesRow_of_opcode (wordX 0x17 pre nout) rfl 0x17 (opcodeOf_wordX _ _ _)
    (by simp [opcodeRows, opcodeOf, mnemonicOf]) (by simp [opcodeRows, opcodeOf])

theorem decc : Statement .decc :=
  encodeMatchesRow_of_opcode (wordZ 0x20) rfl 0x20 (opcodeOf_wordZ _)
    (by simp [opcodeRows, opcodeOf, mnemonicOf]) (by simp [opcodeRows, opcodeOf, mbz_wordZ])

theorem decx : Statement .decx :=
  encodeMatchesRow_of_opcode (wordZ 0x21) rfl 0x21 (opcodeOf_wordZ _)
    (by simp [opcodeRows, opcodeOf, mnemonicOf]) (by simp [opcodeRows, opcodeOf, mbz_wordZ])

theorem decm : Statement .decm :=
  encodeMatchesRow_of_opcode (wordZ 0x22) rfl 0x22 (opcodeOf_wordZ _)
    (by simp [opcodeRows, opcodeOf, mnemonicOf]) (by simp [opcodeRows, opcodeOf, mbz_wordZ])

theorem disp : Statement .disp :=
  encodeMatchesRow_of_opcode (wordZ 0x2F) rfl 0x2F (opcodeOf_wordZ _)
    (by simp [opcodeRows, opcodeOf, mnemonicOf]) (by simp [opcodeRows, opcodeOf, mbz_wordZ])

theorem qadd : Statement .qadd :=
  encodeMatchesRow_of_opcode (wordZ 0x30) rfl 0x30 (opcodeOf_wordZ _)
    (by simp [opcodeRows, opcodeOf, mnemonicOf]) (by simp [opcodeRows, opcodeOf, mbz_wordZ])

theorem qdue : Statement .qdue :=
  encodeMatchesRow_of_opcode (wordZ 0x31) rfl 0x31 (opcodeOf_wordZ _)
    (by simp [opcodeRows, opcodeOf, mnemonicOf]) (by simp [opcodeRows, opcodeOf, mbz_wordZ])

theorem qsize : Statement .qsize :=
  encodeMatchesRow_of_opcode (wordZ 0x32) rfl 0x32 (opcodeOf_wordZ _)
    (by simp [opcodeRows, opcodeOf, mnemonicOf]) (by simp [opcodeRows, opcodeOf, mbz_wordZ])

theorem csrr (a : Byte) : Statement (.csrr a) :=
  encodeMatchesRow_of_opcode (wordC 0x40 a) rfl 0x40 (opcodeOf_wordC _ _)
    (by simp [opcodeRows, opcodeOf, mnemonicOf]) (by simp [opcodeRows, opcodeOf, mbz_wordC])

theorem csrw (a : Byte) (imm : BitVec 16) : Statement (.csrw a imm) :=
  encodeMatchesRow_of_opcode (wordW 0x41 a imm) rfl 0x41 (opcodeOf_wordW _ _ _)
    (by simp [opcodeRows, opcodeOf, mnemonicOf]) (by simp [opcodeRows, opcodeOf])

end Sys2Proof.Laws.EncodeMatchesRow
end

