-- ==== Sys2Proof/Tests/Slice0.lean ====
section
/-! SUPPORT. The model's own tests: expected values from spec/, mostly 95_test_vectors.md (the vector is
named with each), and for every statement with hypotheses a state that meets them. -/

namespace Sys2Proof.Tests

open Sys2Proof Sys2Proof.Machine

/-! ## Helpers -/

/-- The state a command leaves. -/
def after (i : Instr) (s : State) : State :=
  match exec i s with
  | .next t => t
  | _ => s

/-- The state a step leaves. -/
def stepped (s : State) : State :=
  match step s with
  | .next t => t
  | _ => s

/-- What the host sees of a response. -/
def seen (s : State) : Option (Code × Nat) := s.rsp.map fun r => (r.code, r.data.toNat)

/-- The reset state with a frame loaded. -/
def loaded (f : List Bool) : State := { State.reset with fb := f }

/-- Frame V1, the source's classic example. -/
def v1 : List Bool := fieldBits 0xAF6703A38B2004949#68

/-- Frame V2, extended-manufacturer under EX1. -/
def v2 : List Bool := (fieldBits 0x14A782468ACF1579BDEB4C872#100).take 99

/-- Frame V3, Manchester/parity under EX1. -/
def v3 : List Bool := (fieldBits 0xF5555555E66A69A966A665A99A658#116).take 114

/-- The instantiation EX1 of the OPEN parameters (43_variant_decoders.md). -/
def ex1 : Params := Config.withOpen 0 0xA5 0x3C 0xF5555555E

/-- XB after `EXTF 64, 4` of V1 (V20). -/
def xbV20 : List Byte := [0xF6, 0x70, 0x3A, 0x38, 0xB2, 0x00, 0x49, 0x49]

/-- The reset state with bytes in XB. -/
def extracted (bytes : List Byte) : State := State.reset.setXb bytes

/-- V1's reading (V80). -/
def readingV1 : Reading := ⟨true, .classic, .crc, 0x3A38B2, 0x67, 0, 0x49, true, 0x49, 0, 0⟩

/-- A queue entry with an id and a due time. -/
def entry (id next : Nat) (count : BitVec 16) : Entry := ⟨BitVec.ofNat 32 id, 0x67, 0, 0x49, 0x49, BitVec.ofNat 32 next, count⟩

/-- Entries 1, …, n, all due at 30. -/
def queueOf (n : Nat) : List Entry := (List.range n).map fun j => entry (j + 1) 30 0

/-- The reset state with V1's reading in RES, at a time. -/
def sighted (now : Nat) (q : List Entry) : State := { State.reset with res := readingV1, now := BitVec.ofNat 32 now, q := q }

/-! ## Well-formedness: every operand check refuses a value too large (30_encoding.md R140, R141) -/

theorem test_wellFormed_fbpush_n : AsmLine.wellFormed (.fbpush 16 0) = false := by decide
theorem test_wellFormed_fbpush_d : AsmLine.wellFormed (.fbpush 8 256) = false := by decide
theorem test_wellFormed_extf_cnt : AsmLine.wellFormed (.extf 4096 0) = false := by decide
theorem test_wellFormed_extf_off : AsmLine.wellFormed (.extf 0 4096) = false := by decide
theorem test_wellFormed_extm_cnt : AsmLine.wellFormed (.extm 4096 0) = false := by decide
theorem test_wellFormed_extm_off : AsmLine.wellFormed (.extm 0 4096) = false := by decide
theorem test_wellFormed_crc8_count : AsmLine.wellFormed (.crc8 256 7 0) = false := by decide
theorem test_wellFormed_crc8_poly : AsmLine.wellFormed (.crc8 7 256 0) = false := by decide
theorem test_wellFormed_crc8_init : AsmLine.wellFormed (.crc8 7 7 256) = false := by decide
theorem test_wellFormed_cksum : AsmLine.wellFormed (.cksum 256) = false := by decide
theorem test_wellFormed_xorf : AsmLine.wellFormed (.xorf 256) = false := by decide
theorem test_wellFormed_findp_hi : AsmLine.wellFormed (.findp 256 0 1) = false := by decide
theorem test_wellFormed_findp_lo : AsmLine.wellFormed (.findp 0 256 1) = false := by decide
theorem test_wellFormed_findp_win : AsmLine.wellFormed (.findp 0 0 256) = false := by decide
theorem test_wellFormed_mand_pre : AsmLine.wellFormed (.mand 4096 0) = false := by decide
theorem test_wellFormed_mand_nout : AsmLine.wellFormed (.mand 0 4096) = false := by decide
theorem test_wellFormed_mandi_pre : AsmLine.wellFormed (.mandi 4096 0) = false := by decide
theorem test_wellFormed_mandi_nout : AsmLine.wellFormed (.mandi 0 4096) = false := by decide
theorem test_wellFormed_csrr : AsmLine.wellFormed (.csrr 256) = false := by decide
theorem test_wellFormed_csrw_a : AsmLine.wellFormed (.csrw 256 0) = false := by decide
theorem test_wellFormed_csrw_imm : AsmLine.wellFormed (.csrw 1 65536) = false := by decide
theorem test_wellFormed_fbpushb : AsmLine.wellFormed (.fbpushb 256) = false := by decide
theorem test_wellFormed_fbload : AsmLine.wellFormed (.fbload 9 [0xA, 0xF]) = false := by decide
theorem test_wellFormed_setint : AsmLine.wellFormed (.setint 65536) = false := by decide
theorem test_wellFormed_setmax : AsmLine.wellFormed (.setmax 65536) = false := by decide

/-! ## Decoding: a word of every command, from the words of 95_test_vectors.md -/

theorem test_decode_fbclr : decode 0x01000000 = .ok .fbclr := by decide
theorem test_decode_fbpush : decode 0x02000490 = .ok (.fbpush 4 0x90) := by decide
theorem test_decode_extf : decode 0x1001C010 = .ok (.extf 28 16) := by decide
theorem test_decode_extm : decode 0x1100A01B = .ok (.extm 10 27) := by decide
theorem test_decode_crc8 : decode 0x120807F0 = .ok (.crc8 8 0x07 0xF0) := by decide
theorem test_decode_cksum : decode 0x13070000 = .ok (.cksum 7) := by decide
theorem test_decode_xorf : decode 0x14050000 = .ok (.xorf 5) := by decide
theorem test_decode_findp : decode 0x15AF6701 = .ok (.findp 0xAF 0x67 1) := by decide
theorem test_decode_mand : decode 0x16023027 = .ok (.mand 35 39) := by decide
theorem test_decode_mandi : decode 0x17004005 = .ok (.mandi 4 5) := by decide
theorem test_decode_decc : decode 0x20000000 = .ok .decc := by decide
theorem test_decode_decx : decode 0x21000000 = .ok .decx := by decide
theorem test_decode_decm : decode 0x22000000 = .ok .decm := by decide
theorem test_decode_disp : decode 0x2F000000 = .ok .disp := by decide
theorem test_decode_qadd : decode 0x30000000 = .ok .qadd := by decide
theorem test_decode_qdue : decode 0x31000000 = .ok .qdue := by decide
theorem test_decode_qsize : decode 0x32000000 = .ok .qsize := by decide
theorem test_decode_csrr : decode 0x401E0000 = .ok (.csrr 0x1E) := by decide
theorem test_decode_csrw : decode 0x410200FF = .ok (.csrw 0x02 0x00FF) := by decide

/-- Illegal words of 95_test_vectors.md 2.9 with an undefined opcode byte. -/
theorem test_decode_undefined_opcode :
    decode 0x00000000 = .error .undefinedOpcode ∧ decode 0xFF000000 = .error .undefinedOpcode ∧
    decode 0x03000000 = .error .undefinedOpcode ∧ decode 0x0F000000 = .error .undefinedOpcode ∧
    decode 0x18000000 = .error .undefinedOpcode ∧ decode 0x2E000000 = .error .undefinedOpcode ∧
    decode 0x33000000 = .error .undefinedOpcode ∧ decode 0x42000000 = .error .undefinedOpcode := by decide

/-- Illegal words of 95_test_vectors.md 2.9 with a must-be-zero bit set. -/
theorem test_decode_must_be_zero :
    decode 0x01000001 = .error .mustBeZero ∧ decode 0x2F800000 = .error .mustBeZero ∧
    decode 0x31000100 = .error .mustBeZero ∧ decode 0x32010000 = .error .mustBeZero ∧
    decode 0x02001000 = .error .mustBeZero ∧ decode 0x02010800 = .error .mustBeZero ∧
    decode 0x13070001 = .error .mustBeZero ∧ decode 0x14000100 = .error .mustBeZero ∧
    decode 0x4001FFFF = .error .mustBeZero := by decide

/-- Words of 95_test_vectors.md 2.9 that are legal whatever their operand field. -/
theorem test_decode_all_ones_operands :
    decode 0x10FFFFFF = .ok (.extf 0xFFF 0xFFF) ∧ decode 0x12FFFFFF = .ok (.crc8 0xFF 0xFF 0xFF) ∧
    decode 0x15FFFFFF = .ok (.findp 0xFF 0xFF 0xFF) ∧ decode 0x41FFFFFF = .ok (.csrw 0xFF 0xFFFF) := by decide

/-- The words of program P1 and P2, encoded. -/
theorem test_encode_programs :
    [Instr.fbclr, .fbpush 8 0xAF, .extf 64 4, .crc8 7 7 0xF0, .csrr 0x21, .decc, .qadd, .qsize, .disp, .qdue].map encode =
      [0x01000000, 0x020008AF, 0x10040004, 0x120707F0, 0x40210000, 0x20000000, 0x30000000, 0x32000000, 0x2F000000,
        0x31000000] := by decide

/-- The opcode map's own patterns are words of its rows. -/
theorem test_opcode_rows : opcodeRows.length = 19 ∧ ∀ r ∈ opcodeRows, (decode r.pattern).toOption.map mnemonicOf = some r.mnemonic := by
  decide

theorem test_decodeTableWord : decodeTableWord 32 0x41010001 = some (.csrw 1 1) ∧ decodeTableWord 32 0x31000100 = none := by
  decide

/-- `SETINT 1` and `SETMAX 255` of V140, `RD TX_COUNT` of P2. -/
theorem test_assemble_pseudo :
    [AsmLine.setint 1, .setmax 255, .rd .txCount].map (fun l => (assemble l).map (List.map encode)) =
      [some [0x41010001], some [0x410200FF], some [0x401E0000]] := by decide

/-- P1: the last line of `FBLOAD 68 : …9490…` is `FBPUSH 4, 0x90`, word 0x02000490. -/
theorem test_assemble_fbload :
    (assemble (.fbload 12 [9, 4, 9])).map (List.map encode) = some [0x01000000, 0x02000894, 0x02000490] := by decide

/-- R140: a line without `@ t` takes the NOW of the line before it, the first one 0. -/
theorem test_assembleProgram :
    assembleProgram 0 [(.qsize, none), (.qadd, some 7), (.qdue, none)] =
      some [(0x32000000, 0), (0x30000000, 7), (0x31000000, 7)] := by decide

/-! ## Configuration and reset -/

theorem test_params_consistent : Config.params.Consistent := by
  simp [Params.Consistent, Config.params, Config.withOpen]

/-- R6: the row TIME_BITS, and the width of a time. -/
theorem test_timeBits : Config.params.timeBits = 32 ∧ Time = BitVec Config.params.timeBits := ⟨rfl, rfl⟩

/-- R59: what the reset state holds. -/
theorem test_reset :
    (State.reset.interval, State.reset.maxRetx, State.reset.fb, State.reset.q, State.reset.xb.length) = (30, 2, [], [], 32) := by
  decide

/-! ## Commands -/

/-- V12. -/
theorem test_fbpush : (after (.fbpush 3 0xFF) State.reset).fb = [true, true, true] ∧
    seen (after (.fbpush 3 0xFF) State.reset) = some (.ok, 3) := by decide
/-- V11. -/
theorem test_fbpush_nine : seen (after (.fbpush 9 0xFF) State.reset) = some (.badOperand, 0) := by decide
/-- V15. -/
theorem test_fbclr : (after .fbclr (loaded v1)).fb = [] ∧ seen (after .fbclr (loaded v1)) = some (.ok, 0) := by decide
/-- V36. -/
theorem test_extf : (after (.extf 12 4) (loaded v1)).xb.take 3 = [0xF6, 0x70, 0] ∧
    seen (after (.extf 12 4) (loaded v1)) = some (.ok, 2) := by decide
/-- V42. -/
theorem test_extf_short : seen (after (.extf 1 68) (loaded v1)) = some (.abortLength, 0) := by decide
/-- V64: MB of V61 holds 0xA2468AC5, 0x2C…; its first three bits are the flags. -/
theorem test_extm : (after (.extm 3 0) { State.reset with mb := fieldBits 0xA2#8 }).xb.take 2 = [0xA0, 0] := by decide
/-- V44. -/
theorem test_extm_empty : seen (after (.extm 1 0) State.reset) = some (.abortLength, 0) := by decide
/-- V21. -/
theorem test_crc8 : seen (after (.crc8 7 0x07 0xF0) (extracted xbV20)) = some (.ok, 0x49) := by decide +kernel
/-- V24. -/
theorem test_crc8_short : seen (after (.crc8 9 0x07 0xF0) (extracted xbV20)) = some (.abortLength, 0) := by decide
/-- V26. -/
theorem test_cksum : (after (.cksum 7) (extracted xbV20)).acc = 0xD3 := by decide
/-- V29. -/
theorem test_cksum_short : seen (after (.cksum 9) (extracted xbV20)) = some (.abortLength, 0) := by decide
/-- V34. -/
theorem test_xorf_short : seen (after (.xorf 9) (extracted xbV20)) = some (.abortLength, 0) := by decide
/-- V31. -/
theorem test_xorf : (after (.xorf 7) (extracted xbV20)).acc = 0x7F := by decide
/-- V52. -/
theorem test_findp : seen (after (.findp 0xF6 0x70 5) (loaded v1)) = some (.ok, 4) ∧
    (after (.findp 0xF6 0x70 5) (loaded v1)).pos = 4 := by decide +kernel
/-- V51. -/
theorem test_findp_window : seen (after (.findp 0xF6 0x70 4) (loaded v1)) = some (.notFound, 0) := by decide +kernel
/-- The 14-bit example of 2.4: `MAND 4, 5` gives 10110. -/
theorem test_mand : (after (.mand 4 5) (loaded (fieldBits 0x3E69#14))).mb = [true, false, true, true, false] := by decide
/-- The 14-bit example of 2.4: `MAND 0, 2` stops at pair 0. -/
theorem test_mand_illegal : seen (after (.mand 0 2) (loaded (fieldBits 0x3E69#14))) = some (.manViolation, 0) := by decide
/-- The 14-bit example of 2.4: `MANDI 4, 5` gives 01001. -/
theorem test_mandi : (after (.mandi 4 5) (loaded (fieldBits 0x3E69#14))).mb = [false, true, false, false, true] := by decide
/-- `MAND 4, 6` reaches beyond the frame; so does MANDI. -/
theorem test_mandi_short : seen (after (.mandi 4 6) (loaded (fieldBits 0x3E69#14))) = some (.abortLength, 0) := by decide
/-- V80. -/
theorem test_decc : (after .decc (loaded v1)).res = readingV1 ∧ seen (after .decc (loaded v1)) = some (.ok, 0x3A38B2) := by
  decide +kernel
/-- V85. -/
theorem test_decc_zero : seen (after .decc (loaded (List.replicate 68 false))) = some (.failSanity, 0) := by decide +kernel
/-- V88. -/
theorem test_decodeExt : (decodeExt ex1 v2).toOption =
    some ⟨true, .ext, .checksum, 0xABCDEF, 0x12345678, 0x5A, 0x64, true, 0x39, 0, 0⟩ := by decide +kernel
/-- V92: the length is checked before the marker, whatever the marker is. -/
theorem test_decx_short : seen (after .decx (loaded (v2.take 79))) = some (.abortLength, 0) := by decide +kernel
/-- V98. -/
theorem test_decodeMan : (decodeMan ex1 v3).toOption =
    some ⟨true, .man, .unchecked, 0x123456, 5, 0xA5, 0, false, 0, 0x87, 2⟩ := by decide +kernel
/-- V101: 113 bits, whatever the preamble is. -/
theorem test_decm_short : seen (after .decm (loaded (v3.take 113))) = some (.abortLength, 0) := by decide +kernel
/-- V110 to V112: each decoder's frame through the dispatcher. -/
theorem test_firstReading : [v1, v2, v3].map (fun f => (firstReading ex1 f ex1.dispatchOrder).map (·.id)) =
    [some 0x3A38B2, some 0xABCDEF, some 0x123456] := by decide +kernel
/-- V110. -/
theorem test_disp : (after .disp (loaded v1)).res = readingV1 := by decide +kernel
/-- V113. -/
theorem test_disp_empty : seen (after .disp State.reset) = some (.noMatch, 0x15) := by decide
/-- V118: kinds 1, 3, 1. -/
theorem test_noMatch : noMatchData ex1 ((fieldBits 0x14A782C68ACF1579BDEB4C872#100).take 99) = 0x1D := by decide +kernel
/-- V131. -/
theorem test_qadd : (after .qadd (sighted 1000 [])).q = [entry 0x3A38B2 1030 0] ∧
    seen (after .qadd (sighted 1000 [])) = some (.ok, 1) := by decide
/-- V7p: the queue holds twelve other ids. -/
theorem test_qadd_full : seen (after .qadd (sighted 0 (queueOf 12))) = some (.queueFull, 12) := by decide
/-- V131: the frame at 1030. -/
theorem test_qdue : (after .qdue (sighted 1030 [entry 0x3A38B2 1030 0])).tx =
    ⟨[0, 0, 0, 0, 0, 0, 0, 0, 0x67, 0x3A, 0x38, 0xB2, 0, 0x49, 0x49], 0x3A38B2, 1060, 1, true, false⟩ := by decide
/-- V6p: the third service evicts. -/
theorem test_qdue_evicts : (after .qdue (sighted 1090 [entry 0x3A38B2 1090 2])).q = [] ∧
    statusWord (after .qdue (sighted 1090 [entry 0x3A38B2 1090 2])) = 0xD := by decide
/-- V7p. -/
theorem test_qsize : seen (after .qsize (sighted 0 (queueOf 12))) = some (.ok, 12) := by decide
/-- V153. -/
theorem test_csrr : seen (after (.csrr 0x09) State.reset) = some (.ok, 12) := by decide
/-- V154. -/
theorem test_csrr_unimplemented : ∀ a ∈ ([0x0A, 0x0F, 0x15, 0x1F, 0x34, 0x3F, 0x48, 0xFF] : List Byte),
    seen (after (.csrr a) State.reset) = some (.badOperand, 0) := by decide
/-- V157. -/
theorem test_csrw : (after (.csrw 0x02 0x01FF) State.reset).maxRetx = 0xFF ∧
    seen (after (.csrw 0x02 0x01FF) State.reset) = some (.ok, 255) := by decide
/-- V159. -/
theorem test_csrw_read_only : seen (after (.csrw 0x09 5) State.reset) = some (.badOperand, 0) := by decide

/-! ## The ports -/

/-- The instruction `withFetchWord` places is the one the next step runs (V12's word). -/
theorem test_withFetchWord : (stepped (State.reset.withFetchWord 32 0x020003FF)).fb = [true, true, true] := by decide
/-- 2.9: an illegal word is answered and changes nothing. -/
theorem test_step_illegal : seen (stepped (State.reset.withFetchWord 32 0x20000001)) = some (.illegalCmd, 0) := by decide
/-- R31: the response is taken. -/
theorem test_step_take : (stepped { State.reset with rsp := some ⟨.ok, 1⟩, input := [takeSample] }).rsp = none := by decide
/-- R59: RESET abandons what is pending. -/
theorem test_step_reset :
    stepped { sighted 5 (queueOf 3) with rsp := some ⟨.ok, 1⟩, input := [⟨true, true, 0x32000000, 9, true⟩] } = State.reset := by
  decide

/-! ## Witnesses: for every statement with hypotheses, states and operands that meet them, clause by clause -/

/-- A command's result is the state `after` names. -/
theorem exec_eq_after (i : Instr) (s : State) : exec i s = .next (after i s) := by
  obtain ⟨t, e, _⟩ := exec_effect i s
  simp [after, e]

theorem witness_EncodeOfDecode : decode 0x410201FF = .ok (.csrw 0x02 0x01FF) := by decide

/-- A row and a word that matches it; a word that matches none and is refused. -/
theorem witness_DecodingFollowsOpcodeMap :
    (∃ r ∈ opcodeRows, r.Matches 0x020008AF = true) ∧ (∃ e, decode 0x20000001 = .error e) ∧
    ∀ r ∈ opcodeRows, r.Matches 0x20000001 = false :=
  ⟨⟨⟨"FBPUSH", .p, 0x02000000, 0xFFFFF000⟩, by decide, by decide⟩, ⟨.mustBeZero, by decide⟩, by decide⟩

/-- The largest operands of every line, and the least that do not fit. -/
theorem witness_AssemblerFormulas :
    (assemble (.fbpush 15 255)).isSome = true ∧ (assemble (.extf 4095 4095)).isSome = true ∧
    (assemble (.crc8 255 255 255)).isSome = true ∧ (assemble (.csrr 255)).isSome = true ∧
    (assemble (.csrw 255 65535)).isSome = true ∧ assemble (.fbpush 16 0) = none ∧ assemble (.csrw 0 65536) = none ∧
    assemble (.extf 0 4096) = none ∧ assemble (.crc8 0 256 0) = none ∧ assemble (.csrr 256) = none := by
  decide

theorem witness_StepRunsDecodedCommand :
    ∃ (s : State) (p : PortSample) (rest : List PortSample) (i : Instr),
      s.input = p :: rest ∧ p.reset = false ∧ p.cmdValid = true ∧ s.rsp = none ∧ decode p.cmd = .ok i :=
  ⟨{ State.reset with input := [offerSample 0x020008AF 7] }, offerSample 0x020008AF 7, [], .fbpush 8 0xAF,
    rfl, rfl, rfl, rfl, by decide⟩

theorem witness_IllegalWordChangesNothing :
    ∃ (s : State) (p : PortSample) (rest : List PortSample),
      s.input = p :: rest ∧ p.reset = false ∧ p.cmdValid = true ∧ s.rsp = none ∧
      ∀ r ∈ opcodeRows, r.Matches p.cmd = false :=
  ⟨{ State.reset with input := [offerSample 0x20000001 7] }, offerSample 0x20000001 7, [], rfl, rfl, rfl, rfl, by decide⟩

/-- A pending response; no response and no command. -/
theorem witness_HandshakeHoldsCommands :
    (∃ (s : State) (p : PortSample) (r : Response), s.input = [p] ∧ p.reset = false ∧ s.rsp = some r) ∧
    (∃ (s : State) (p : PortSample), s.input = [p] ∧ p.reset = false ∧ s.rsp = none ∧ p.cmdValid = false) :=
  ⟨⟨{ State.reset with rsp := some ⟨.ok, 1⟩, input := [offerSample 0x31000000 5] }, offerSample 0x31000000 5, ⟨.ok, 1⟩,
      rfl, rfl, rfl⟩,
    ⟨{ State.reset with input := [takeSample] }, takeSample, rfl, rfl, rfl, rfl⟩⟩

theorem witness_ResetOverridesEverything :
    ∃ (s : State) (p : PortSample), s.input = [p] ∧ p.reset = true ∧ p.cmdValid = true ∧ s.rsp.isSome = true :=
  ⟨{ State.reset with rsp := some ⟨.ok, 1⟩, input := [⟨true, true, 0x31000000, 5, true⟩] },
    ⟨true, true, 0x31000000, 5, true⟩, rfl, rfl, rfl, rfl⟩

/-- A command that answers OK and one that does not. -/
theorem witness_WriteSetFrame :
    (∃ t r, exec .fbclr State.reset = .next t ∧ t.rsp = some r ∧ r.code = .ok) ∧
    (∃ t r, exec (.extf 1 0) State.reset = .next t ∧ t.rsp = some r ∧ r.code ≠ .ok) :=
  ⟨⟨_, ⟨.ok, 0⟩, rfl, rfl, rfl⟩, ⟨_, ⟨.abortLength, 0⟩, rfl, rfl, by decide⟩⟩

/-- Two states that agree on what EXTF reads and on nothing else it could see. -/
theorem witness_ReadSetDeterminesEffect :
    ∃ s s' t t' : State, AgreeOnReads s s' (.extf 12 4) ∧ s.acc ≠ s'.acc ∧ exec (.extf 12 4) s = .next t ∧
      exec (.extf 12 4) s' = .next t' :=
  ⟨loaded v1, { loaded v1 with acc := 7 }, _, _, rfl, by decide, exec_eq_after _ _, exec_eq_after _ _⟩

/-- A failure that clears a destination; one that changes nothing. -/
theorem witness_FailureClearsDestination :
    (∃ t r, exec (.mand 0 1) State.reset = .next t ∧ t.rsp = some r ∧ r.code ≠ .ok ∧ Dest.mb ∈ writesOnFailure (.mand 0 1)) ∧
    (∃ t r, exec .qadd State.reset = .next t ∧ t.rsp = some r ∧ r.code ∈ [Code.badOperand, .noReading, .queueFull]) :=
  ⟨⟨_, ⟨.abortLength, 0⟩, rfl, rfl, by decide, by decide⟩, ⟨_, ⟨.noReading, 0⟩, rfl, rfl, by decide⟩⟩

/-- A state with a full queue, all due, and a QDUE offered. -/
theorem witness_StepKeepsInvariant :
    ∃ s t : State, s.Inv ∧ step s = .next t ∧ s.q.length = 12 :=
  ⟨{ sighted 30 (queueOf 12) with input := [offerSample 0x31000000 30] }, _,
    ⟨by decide, by decide, by decide, ⟨by decide, by decide, by decide, by decide⟩, by decide, by decide⟩, rfl, by decide⟩

theorem witness_NowReadByQueueOnly :
    ∃ (i : Instr) (s t : State), i ≠ .qadd ∧ i ≠ .qdue ∧ exec i s = .next t :=
  ⟨.decc, loaded v1, _, by decide, by decide, exec_eq_after _ _⟩

theorem witness_RepeatedCommandIdempotent :
    ∃ (i : Instr) (s t : State), (∀ n d, i ≠ .fbpush n d) ∧ i ≠ .qdue ∧ exec i s = .next t :=
  ⟨.qadd, sighted 1000 [], _, by simp, by decide, exec_eq_after _ _⟩

theorem witness_ProgramRunsSerially : (sighted 1000 (queueOf 2)).rsp = none := rfl

/-- 1 and 8 bits that just fit; none, nine, and eight bits that do not. -/
theorem witness_FbpushAppendsTopBits :
    (1 ≤ (1#4).toNat ∧ (1#4).toNat ≤ 8 ∧ (loaded (List.replicate 255 true)).fb.length + (1#4).toNat ≤ 256) ∧
    (1 ≤ (8#4).toNat ∧ (8#4).toNat ≤ 8 ∧ (loaded (List.replicate 248 true)).fb.length + (8#4).toNat ≤ 256) ∧
    (0#4).toNat < 1 ∧ 8 < (9#4).toNat ∧ 256 < (loaded (List.replicate 249 true)).fb.length + (8#4).toNat := by
  decide +kernel

/-- 32 pushes of 8 bits fill the buffer. -/
theorem witness_AnySplitLoadsTheFrame :
    (∀ p ∈ List.replicate 32 (8#4, 0xFF#8), 1 ≤ p.1.toNat ∧ p.1.toNat ≤ 8) ∧
    ((List.replicate 32 (8#4, 0xFF#8)).map fun p => p.1.toNat).sum ≤ 256 :=
  ⟨fun p hp => by rw [List.eq_of_mem_replicate hp]; decide, by decide⟩

theorem witness_FbloadLoadsDigits :
    (256 ≤ 4 * (List.replicate 64 (5#4)).length ∧ 256 ≤ 256) ∧ 0 ≤ 4 * ([] : List (BitVec 4)).length := by
  simp

/-- The whole buffer; the empty range at its end; a range one bit too long, in FB and in the empty MB. -/
theorem witness_ExtractCopiesBits :
    (loaded (List.replicate 256 true)).fb.length ≤ 256 ∧ (loaded (List.replicate 256 true)).mb.length ≤ 128 ∧
    (0#12).toNat + (256#12).toNat ≤ (loaded (List.replicate 256 true)).fb.length ∧
    (256#12).toNat + (0#12).toNat ≤ (loaded (List.replicate 256 true)).fb.length ∧
    (loaded (List.replicate 256 true)).fb.length < (1#12).toNat + (256#12).toNat ∧
    (loaded (List.replicate 256 true)).mb.length < (0#12).toNat + (1#12).toNat := by
  decide +kernel

/-- No bytes, all thirty-two, and one too many; also for CKSUM and XORF. -/
theorem witness_Crc8FoldsBytes_CksumSumsBytes_XorfFoldsParity :
    31 < (extracted (List.replicate 32 0xFF)).xb.length ∧
    (0#8).toNat ≤ (extracted (List.replicate 32 0xFF)).xbCnt.toNat ∧
    ((32#8).toNat ≤ (extracted (List.replicate 32 0xFF)).xbCnt.toNat ∧
      (32#8).toNat ≤ (extracted (List.replicate 32 0xFF)).xb.length) ∧
    (extracted (List.replicate 32 0xFF)).xbCnt.toNat < (33#8).toNat := by
  decide

/-- Messages whose differences agree; a message and its CRC, and positions of a flip. -/
theorem witness_Crc8DetectsChanges :
    (∃ B B' C C' : List Byte, B.length = B'.length ∧ B.length = C.length ∧ B.length = C'.length ∧
      ∀ j, B.getD j 0 ^^^ B'.getD j 0 = C.getD j 0 ^^^ C'.getD j 0) ∧
    (∃ (B : List Byte) (i check : Byte) (j k : Nat), crc8 B B.length 0x07 i = check ∧ k < 8 ∧ j < B.length) :=
  ⟨⟨[1], [3], [4], [6], rfl, rfl, rfl, fun j => by cases j <;> simp⟩, ⟨[0xF6, 0x70], 0xF0, _, 1, 7, rfl, by decide, by decide⟩⟩

/-- The marker at the last offset at which a window fits in the full buffer; an empty window. -/
theorem witness_FindpReportsLeastOffset :
    let hit : Byte → Nat → Prop := fun win k =>
      k < win.toNat ∧ k + 16 ≤ (List.replicate 240 false ++ fieldBits 0xA53C#16).length ∧
        ∀ t, t < 16 → (List.replicate 240 false ++ fieldBits 0xA53C#16).getD (k + t) false =
          if t < 8 then (0xA5#8).getLsbD (7 - t) else (0x3C#8).getLsbD (15 - t)
    (List.replicate 240 false ++ fieldBits 0xA53C#16).length ≤ 256 ∧
    (hit 241 240 ∧ ∀ j, j < 240 → ¬ hit 241 j) ∧ ∀ k, ¬ hit 0 k := by
  have hl : (List.replicate 240 false ++ fieldBits 0xA53C#16).length = 256 := by
    rw [List.length_append, List.length_replicate, fieldBits_length]
  refine ⟨hl.le, ⟨⟨by decide, hl.ge, ?_⟩, ?_⟩, fun k h => absurd h.1 (by simp)⟩
  · intro t ht
    rw [List.getD_append_right _ _ _ _ (by rw [List.length_replicate]; omega), List.length_replicate, Nat.add_sub_cancel_left, fieldBits_getD _ _ ht]
    interval_cases t <;> decide
  · intro j hj h
    have h0 := h.2.2 0 (by omega)
    rw [List.getD_append _ _ _ _ (by rw [List.length_replicate]; omega), List.getD_replicate _ (by omega)] at h0
    exact absurd h0 (by decide)

/-- Fifteen zero bits before a marker that begins with 1. -/
theorem witness_PaddedMarkerFoundAtOffset :
    15 < 16 ∧ 15 < (16#8).toNat ∧ (0xA5#8).getLsbD 7 = true ∧
    (loaded (List.replicate 15 false ++ markerBits 0xA5 0x3C ++ [])).fb =
      List.replicate 15 false ++ markerBits 0xA5 0x3C ++ [] := by
  decide

/-- The 14-bit example of 2.4: a pair too many; five legal pairs; no pair at the
end; a legal pair before an illegal one; an illegal first pair. -/
theorem witness_ManchesterDecodesPairs :
    let f := fieldBits 0x3E69#14
    let legal : Nat → Nat → Prop := fun pre j => f.getD (pre + 2 * j) false ≠ f.getD (pre + 2 * j + 1) false
    f.length < 4 + 2 * 6 ∧ (4 + 2 * 5 ≤ f.length ∧ ∀ j, j < 5 → legal 4 j) ∧ (14 + 2 * 0 ≤ f.length) ∧
    (9 + 2 * 2 ≤ f.length ∧ legal 9 0 ∧ ¬ legal 9 1) ∧ (2 + 2 * 1 ≤ f.length ∧ ¬ legal 2 0) := by
  decide

/-- A MAND that answers OK, its first and last symbol, its first and last pair. -/
theorem witness_SymbolErrorDetected :
    ∃ (t : State) (d : Word), exec (.mand 4 5) (loaded (fieldBits 0x3E69#14)) = .next t ∧ t.rsp = some ⟨.ok, d⟩ ∧
      (4#12).toNat ≤ 4 ∧ 13 < (4#12).toNat + 2 * (5#12).toNat ∧ 4 < (5#12).toNat :=
  ⟨_, 5, exec_eq_after _ _, by decide, by decide, by decide, by decide⟩

/-- V1. -/
theorem witness_DeccDecodesClassicFrame :
    (loaded v1).fb = fieldBits 0xA#4 ++ classicPayload 0xF67 0x03A38B2 0x00 0x49 0x49 ∧
    0x49#8 = crc8 (classicData 0xF67 0x03A38B2 0x00 0x49) 7 0x07 0xF0 := by
  decide +kernel

/-- Lengths 67 and 69; V84; V86. -/
theorem witness_DeccRefusesInOrder :
    (loaded (v1.take 67)).fb.length ≠ 68 ∧ (loaded (v1 ++ [false])).fb.length ≠ 68 ∧
    (loaded (fieldBits 0xA0000000000000000#68)).fb = fieldBits 0xA#4 ++ List.replicate 64 false ∧
    ((loaded (fieldBits 0xA0000000000000001#68)).fb = fieldBits 0xA#4 ++ classicPayload 0 0 0 0 1 ∧
      classicPayload 0 0 0 0 1 ≠ List.replicate 64 false ∧ 1#8 ≠ crc8 (classicData 0 0 0 0) 7 0x07 0xF0) := by
  decide +kernel

/-- V1 is accepted; its first and last payload bit leave a bit set; its last sync bit. -/
theorem witness_DeccCatchesSingleBitFlips :
    ∃ t : State, exec .decc (loaded v1) = .next t ∧ t.res.valid = true ∧
      (∃ k, 4 ≤ k ∧ k < 68 ∧ (flipBit v1 4).getD k false = true) ∧
      (∃ k, 4 ≤ k ∧ k < 68 ∧ (flipBit v1 67).getD k false = true) ∧ 3 < 4 :=
  ⟨_, exec_eq_after _ _, by decide +kernel, ⟨5, by decide +kernel⟩, ⟨5, by decide +kernel⟩, by decide⟩

/-- A lead of bits unlike the marker's first bit holds the marker nowhere before its end. -/
theorem no_marker_in_lead (m tail : List Bool) (n k : Nat) (hm : m ≠ []) (hk : k < n) :
    ((List.replicate n (!m.headD false) ++ m ++ tail).drop k).take 16 ≠ m := by
  intro h
  cases m with
  | nil => exact hm rfl
  | cons b bs =>
    have h0 := congrArg (fun l => l.headD false) h
    obtain ⟨r, rfl⟩ : ∃ r, n = k + (r + 1) := ⟨n - k - 1, by omega⟩
    simp [List.drop_append, List.replicate_succ] at h0

/-- The marker and its parts, whatever it is. -/
theorem marker_ne_nil (hi lo : Byte) : markerBits hi lo ≠ [] := by
  intro h
  have := congrArg List.length h
  simp at this

/-- The longest lead the search window allows, with a payload that is not all zero and its sum. -/
theorem witness_DecxDecodesExtendedFrame :
    ∃ (lead : List Bool) (s : State),
      s.fb = lead ++ markerBits Config.extMarkerHi Config.extMarkerLo ++ extPayload 0x12345678 0xABCDEF 0x5A 0x64 0x39 ++ [] ∧
      lead.length = 160 ∧ lead.length < 161 ∧ s.fb.length = 256 ∧
      (∀ k, k < lead.length → (s.fb.drop k).take 16 ≠ markerBits Config.extMarkerHi Config.extMarkerLo) ∧
      extPayload 0x12345678 0xABCDEF 0x5A 0x64 0x39 ≠ List.replicate 80 false ∧
      (0x39#8).toNat = ((extData 0x12345678 0xABCDEF 0x5A 0x64).map BitVec.toNat).sum % 256 := by
  have hl : (List.replicate 160 (!(markerBits Config.extMarkerHi Config.extMarkerLo).headD false)).length = 160 :=
    List.length_replicate
  refine ⟨List.replicate 160 (!(markerBits Config.extMarkerHi Config.extMarkerLo).headD false), loaded _, rfl, hl,
    by rw [hl]; decide, ?_, ?_, by decide +kernel, by decide +kernel⟩
  · simp only [loaded, List.length_append, hl, markerBits_length, extPayload, fieldBits_length, List.length_nil]
  · intro k hk
    rw [hl] at hk
    rw [show (loaded _).fb = _ from rfl, List.append_assoc _ (extPayload _ _ _ _ _)]
    exact no_marker_in_lead _ _ 160 k (marker_ne_nil _ _) hk

/-- 79 bits; 80 bits without the marker; the marker first, then 79 bits, then 80 zeros, then a wrong sum. -/
theorem witness_DecxRefusesInOrder :
    (loaded (List.replicate 79 true)).fb.length < 80 ∧
    (∃ s : State, 80 ≤ s.fb.length ∧
      ∀ k, k < 161 → (s.fb.drop k).take 16 ≠ markerBits Config.extMarkerHi Config.extMarkerLo) ∧
    (∃ (s : State) (tail : List Bool), 80 ≤ s.fb.length ∧
      s.fb = [] ++ markerBits Config.extMarkerHi Config.extMarkerLo ++ tail ∧ tail.length < 80) ∧
    (∃ (s : State) (tail : List Bool), 80 ≤ s.fb.length ∧
      s.fb = [] ++ markerBits Config.extMarkerHi Config.extMarkerLo ++ tail ∧ 80 ≤ tail.length ∧
      tail.take 80 = List.replicate 80 false) ∧
    (∃ (s : State) (tail : List Bool), 80 ≤ s.fb.length ∧
      s.fb = [] ++ markerBits Config.extMarkerHi Config.extMarkerLo ++ tail ∧
      tail = extPayload 0x12345678 0xABCDEF 0x5A 0x64 0x3A ++ [] ∧
      extPayload 0x12345678 0xABCDEF 0x5A 0x64 0x3A ≠ List.replicate 80 false ∧
      (0x3A#8).toNat ≠ ((extData 0x12345678 0xABCDEF 0x5A 0x64).map BitVec.toNat).sum % 256) := by
  refine ⟨by decide +kernel, ?_, ?_, ?_, ?_⟩
  · refine ⟨loaded (List.replicate 80 (!(markerBits Config.extMarkerHi Config.extMarkerLo).headD false)),
      by simp only [loaded, List.length_replicate]; omega, fun k _ h => ?_⟩
    have hlen := congrArg List.length h
    have h0 := congrArg (fun l => l.headD false) h
    simp only [loaded, List.drop_replicate, List.take_replicate] at h0 hlen
    rw [List.length_replicate, markerBits_length] at hlen
    rw [hlen] at h0
    simp [List.replicate_succ] at h0
  · exact ⟨loaded _, List.replicate 79 true, by simp only [loaded, List.length_append, markerBits_length, List.length_replicate, List.length_nil]; omega,
      rfl, by rw [List.length_replicate]; omega⟩
  · exact ⟨loaded _, List.replicate 80 false, by simp only [loaded, List.length_append, markerBits_length, List.length_replicate, List.length_nil]; omega,
      rfl, by rw [List.length_replicate], by decide⟩
  · exact ⟨loaded _, _, by simp only [loaded, List.length_append, markerBits_length, extPayload, fieldBits_length, List.length_nil]; omega,
      rfl, rfl, by decide +kernel, by decide +kernel⟩

/-- Any preamble and fields make such a frame. -/
theorem witness_DecmDecodesManchesterFrame :
    ∃ s : State, s.fb = fieldBits Config.manPreamble ++ manSymbols (manFields 5 0x123456 0x2A5 2) :=
  ⟨loaded _, rfl⟩

/-- V62: the five bytes of V3's decoded bits. -/
theorem witness_DecmDiagIsXorOfBytes :
    ∃ (B : List Byte) (s t : State), s.fb = fieldBits Config.manPreamble ++ manSymbols (manFields 5 0x123456 0xA5 2) ∧
      bitsOf B = manFields 5 0x123456 0xA5 2 ++ [false] ∧ exec .decm s = .next t :=
  ⟨[0xA2, 0x46, 0x8A, 0xC5, 0x2C], loaded _, _, rfl, by decide, exec_eq_after _ _⟩

/-- Length 113; a preamble with every bit wrong; 78 zero symbols; 78 one symbols, illegal at both ends. -/
theorem witness_DecmRefusesInOrder :
    (loaded (List.replicate 113 true)).fb.length ≠ 114 ∧
    (∃ s : State, s.fb.length = 114 ∧ s.fb.take 36 ≠ fieldBits Config.manPreamble) ∧
    (∃ s : State, s.fb = fieldBits Config.manPreamble ++ List.replicate 78 false) ∧
    (∃ (s : State) (symbols : List Bool), s.fb = fieldBits Config.manPreamble ++ symbols ∧ symbols.length = 78 ∧
      symbols ≠ List.replicate 78 false ∧
      ∀ j ∈ [0, 38], j < 39 ∧ symbols.getD (2 * j) false = symbols.getD (2 * j + 1) false) := by
  refine ⟨by decide +kernel, ?_, ⟨loaded _, rfl⟩, ⟨loaded _, List.replicate 78 true, rfl, by decide, by decide, by decide⟩⟩
  refine ⟨loaded ((fieldBits Config.manPreamble).map not ++ List.replicate 78 false), ?_, ?_⟩
  · simp only [loaded, List.length_append, List.length_map, fieldBits_length, List.length_replicate]
  · intro h
    have h' : ((fieldBits Config.manPreamble).map not ++ List.replicate 78 false).take 36 =
        fieldBits Config.manPreamble := h
    rw [List.take_left' (by rw [List.length_map, fieldBits_length])] at h'
    have h0 := congrArg (fun l => l.getD 0 false) h'
    simp [List.getD_eq_getElem?_getD, fieldBits] at h0

/-- A marker and a preamble for which one frame is accepted by both decoders; EX1, where V2 is not. -/
theorem witness_DispatchOrderSeldomMatters :
    (let p := Config.withOpen 0 0xF5 0x55 0xF55552000
     let f := fieldBits 0xF55552000#36 ++ manSymbols (List.replicate 39 true)
     (decodeVariant p f .ext).toOption.isSome = true ∧ (decodeVariant p f .man).toOption.isSome = true) ∧
    (decodeVariant ex1 v2 .ext).toOption.isSome = true ∧ (decodeVariant ex1 v2 .man).toOption.isSome = false ∧
    [Variant.man, .ext, .classic].Perm [.classic, .ext, .man] := by
  decide +kernel

theorem witness_NoMatchQueuesNothing :
    ∃ t : State, exec .disp State.reset = .next t ∧ t.rsp = some ⟨.noMatch, 0x15⟩ :=
  ⟨_, exec_eq_after _ _, by decide⟩

/-- No reading; an id in the middle of a full queue; eleven other ids; twelve other ids. -/
theorem witness_QaddAddsOrUpdates :
    (∃ e : Entry, e.id = readingV1.id ∧ e.flags = readingV1.flags ∧ e.press = readingV1.press ∧
      e.temp = (if readingV1.tempValid then readingV1.temp else 0) ∧ e.mic = readingV1.mic ∧
      e.next.toNat = ((sighted 0xFFFFFFF0 []).now.toNat + (sighted 0xFFFFFFF0 []).interval.toNat) % 2 ^ 32 ∧ e.count = 0) ∧
    State.reset.res.valid = false ∧ (sighted 0 []).res.valid = true ∧
    ((sighted 0 (queueOf 5 ++ entry 0x3A38B2 30 1 :: queueOf 6)).q = queueOf 5 ++ entry 0x3A38B2 30 1 :: queueOf 6 ∧
      ∀ y ∈ queueOf 5, y.id ≠ readingV1.id) ∧
    ((∀ y ∈ queueOf 11, y.id ≠ readingV1.id) ∧ (queueOf 11).length < 12) ∧
    ((∀ y ∈ queueOf 12, y.id ≠ readingV1.id) ∧ 12 ≤ (queueOf 12).length) :=
  ⟨⟨entry 0x3A38B2 0xE 0, by decide⟩, by decide⟩

/-- A first sighting, and a second one after a service that evicted another entry. -/
theorem witness_SecondSightingUpdates :
    ∃ (s t u : State) (d : Word), exec .qadd s = .next t ∧ t.rsp = some ⟨.ok, d⟩ ∧
      exec .qdue { t with now := 40 } = .next u ∧ u.q.length < t.q.length ∧ s.res.id ∈ u.q.map Entry.id ∧
      u.res.valid = true ∧ u.res.id = s.res.id :=
  ⟨sighted 35 [entry 1 30 2], _, _, 2, exec_eq_after _ _, by decide, exec_eq_after _ _, by decide, by decide, by decide,
    by decide⟩

/-- Twelve readings with ids 1 to 12, each at a time of its own, the thirteenth, and one of the twelve again. -/
theorem witness_ThirteenthIdRejected :
    let rs : List (Reading × Time) :=
      (List.range 12).map fun j => ({ readingV1 with id := BitVec.ofNat 32 (j + 1) }, BitVec.ofNat 32 (100 + j))
    State.reset.q = [] ∧ (∀ r ∈ rs, r.1.valid = true) ∧ (rs.map fun r => r.1.id).Nodup ∧ rs.length = 12 ∧
      ((13 : Word) ∉ rs.map fun r => r.1.id) ∧ (12 : Word) ∈ rs.map fun r => r.1.id := by
  decide

/-- The second of three entries is the first due, at the very moment; the service that evicts; nothing due. -/
theorem witness_QdueServicesFirstDue :
    (∃ e : Entry, (∀ y ∈ [entry 1 31 0], (30#32).toNat < y.next.toNat) ∧ (entry 2 30 2).next.toNat ≤ (30#32).toNat ∧
      (entry 2 30 2).count.toNat < 65535 ∧ e = { entry 2 30 2 with count := e.count, next := e.next } ∧
      e.count.toNat = (entry 2 30 2).count.toNat + 1 ∧ e.next.toNat = ((30#32).toNat + (30#16).toNat) % 2 ^ 32 ∧
      State.reset.maxRetx.toNat < (entry 2 30 2).count.toNat + 1) ∧
    ∀ y ∈ [entry 1 31 0, entry 3 31 0], (30#32).toNat < y.next.toNat :=
  ⟨⟨entry 2 60 3, by decide⟩, by decide⟩

/-- An entry renewed between two others, which fall due right after its last deadline. -/
theorem witness_EntryLivesMaxRetxPlusOne :
    let s := sighted 1000 [entry 1 1091 1, entry 0x3A38B2 1000 2, entry 2 1091 0]
    (s.q.map Entry.id).Nodup ∧ (∃ a d, exec .qadd s = .next a ∧ a.rsp = some ⟨.ok, d⟩) ∧
    (∀ y ∈ s.q, y.id ≠ s.res.id → ∀ j, j ≤ s.maxRetx.toNat →
      (s.now + BitVec.ofNat 32 ((j + 1) * s.interval.toNat)).toNat < y.next.toNat) ∧ 2 ≤ s.maxRetx.toNat :=
  ⟨by decide, ⟨_, 3, exec_eq_after _ _, by decide⟩, by decide, by decide⟩

/-- R274's lifecycle among two other entries: three services, and a poll in which another entry is served. -/
theorem test_services :
    services 0x3A38B2 (after .qadd (sighted 1000 [entry 1 1095 1, entry 2 1096 0])) [1030, 1060, 1090, 1095] = 3 := by
  decide

theorem witness_QueueOrderPreserved :
    ∃ t : State, exec .qdue (sighted 30 (queueOf 12)) = .next t ∧ t.q ≠ queueOf 12 :=
  ⟨_, exec_eq_after _ _, by decide⟩

theorem witness_TelemetrySecondsAreInterval :
    ∃ t : State, exec .qdue (sighted 30 (queueOf 2)) = .next t ∧ t.rsp = some ⟨.ok, 1⟩ :=
  ⟨_, exec_eq_after _ _, by decide⟩

/-- The ends of every range of R93, and of every implemented range. -/
theorem witness_CsrrReadsImplemented :
    (∀ a ∈ ([0x0A, 0x0F, 0x15, 0x17, 0x1F, 0x34, 0x3F, 0x48, 0x4F, 0xF8, 0xFF] : List Byte), UnimplementedCsr a) ∧
    ∀ a ∈ ([0x00, 0x09, 0x10, 0x14, 0x18, 0x1E, 0x20, 0x33, 0x40, 0x47, 0xF0, 0xF7] : List Byte), ¬ UnimplementedCsr a := by
  decide

theorem witness_CsrMapRegisters : (sighted 30 (queueOf 12)).Inv ∧ ¬ UnimplementedCsr (BitVec.ofNat 8 0x33) :=
  ⟨⟨by decide, by decide, by decide, ⟨by decide, by decide, by decide, by decide⟩, by decide, by decide⟩, by decide⟩

/-- The last slot, held by an entry in a full queue and empty in one with eleven; the fields' ends. -/
theorem witness_QueueWindowShowsSlots :
    11 < 12 ∧ 7 < 8 ∧ 8 ≤ 8 ∧ 15 < 16 ∧ (sighted 0 (queueOf 12)).q[11]? = some (entry 12 30 0) ∧ (sighted 0 (queueOf 11)).q.length ≤ 11 := by
  decide

theorem witness_CsrWindowsPackBuffers : 31 < 32 ∧ 7 < 8 ∧ 3 < 4 := by decide

theorem witness_CsrwWritesTwoRegisters : (0x03 : Byte) ≠ 0x01 ∧ (0x03 : Byte) ≠ 0x02 ∧ (0x00 : Byte) ≠ 0x01 := by decide

theorem witness_ResetSeenThroughCsrs : ¬ UnimplementedCsr 0xF7 ∧ ¬ UnimplementedCsr 0x09 := by decide

end Sys2Proof.Tests
end

section
/-! PROOFS of the family 10_state.md (1): what one sample of the ports does (10_state.md R31, R59). -/

namespace Sys2Proof.Machine

/-- A sample with RESET asserted gives the reset block, whatever else it presents (R59). -/
theorem step_of_reset {s : State} {p : PortSample} {rest : List PortSample} (hi : s.input = p :: rest)
    (hr : p.reset = true) : step s = .next (resetBlock rest) := by
  simp [step, hi, hr]

/-- A sample that offers nothing while no response is pending is only consumed (60_exceptions.md R320). -/
theorem step_of_idle {s : State} {p : PortSample} {rest : List PortSample} (hi : s.input = p :: rest)
    (hr : p.reset = false) (hn : s.rsp = none) (hv : p.cmdValid = false) : step s = .next (nextSample s rest) := by
  simp [step, hi, hr, hv, State.rspValid, hn]

theorem step_of_no_input {s : State} (hi : s.input = []) : step s = .next s := by
  simp [step, hi]

/-- Accepting the word of a command executes it at the NOW sampled. -/
theorem accept_of_decode {cmd : Word} {i : Instr} (hd : decode cmd = .ok i) (s : State) (now : Time) :
    accept s cmd now = exec i (sampleNow s now) := by
  simp [accept, hd]

/-- Everything accepting a word can do: execute a command or answer ILLEGAL_CMD (30_encoding.md R120). -/
theorem accept_cases (s : State) (cmd : Word) (now : Time) :
    (∃ i, decode cmd = .ok i ∧ accept s cmd now = exec i (sampleNow s now)) ∨
    (∃ e, decode cmd = .error e ∧ accept s cmd now = .next (answerIllegal (sampleNow s now))) := by
  cases hd : decode cmd with
  | ok i => exact .inl ⟨i, rfl, accept_of_decode hd s now⟩
  | error e => exact .inr ⟨e, rfl, by simp [accept, hd]⟩

/-- Everything a step can do, by what the next sample presents and whether a response is pending (R31, R59). -/
theorem step_cases (s : State) :
    (s.input = [] ∧ step s = .next s) ∨
    ∃ p rest, s.input = p :: rest ∧
      (step s = .next (resetBlock rest) ∨ step s = .next (nextSample s rest) ∨
       step s = .next (takeResponse (nextSample s rest)) ∨ step s = accept (nextSample s rest) p.cmd p.now) := by
  cases hi : s.input with
  | nil => exact .inl ⟨rfl, step_of_no_input hi⟩
  | cons p rest =>
    refine .inr ⟨p, rest, rfl, ?_⟩
    cases hr : p.reset with
    | true => exact .inl (step_of_reset hi hr)
    | false =>
      cases hn : s.rsp with
      | some r =>
        rw [step_of_pending hi hr hn]
        cases p.rspReady with
        | true => exact .inr (.inr (.inl rfl))
        | false => exact .inr (.inl rfl)
      | none =>
        cases hv : p.cmdValid with
        | true => exact .inr (.inr (.inr (step_of_offer hi hr hv hn)))
        | false => exact .inr (.inl (step_of_idle hi hr hn hv))

/-- Settles O6: the offered word is accepted, and it decodes to the command. -/
theorem stepRunsDecodedCommand : Obligations.StepRunsDecodedCommand := by
  intro s p rest i hi hr hv hn hd
  rw [step_of_offer hi hr hv hn, accept_of_decode hd]
  rfl

/-- Settles O8, by the two ways a sample without RESET is consumed. -/
theorem handshakeHoldsCommands : Obligations.HandshakeHoldsCommands := by
  intro s p rest hi hr
  constructor
  · intro r hn
    rw [step_of_pending hi hr hn]
    cases p.rspReady with
    | true => rfl
    | false => simp [nextSample, hn]
  · intro hn hv
    exact step_of_idle hi hr hn hv

/-- Settles O9: the reset block, its parameters evaluated. -/
theorem resetOverridesEverything : Obligations.ResetOverridesEverything := by
  intro s p rest hi hr
  rw [step_of_reset hi hr]
  rfl

end Sys2Proof.Machine
end

section
/-! PROOFS of the family 10_state.md (2): the invariants of R60. One rule per update of the state, one lemma for
each value a command computes, and the step assembled from them. -/

namespace Sys2Proof.Machine

/-! ## What each update of the state needs to keep the invariants -/

section Updates

variable {s : State}

theorem inv_respond (h : s.Inv) (c : Code) (d : Word) : (respond s c d).Inv := h

theorem inv_answerIllegal (h : s.Inv) : (answerIllegal s).Inv := h

theorem inv_nextSample (h : s.Inv) (rest : List PortSample) : (nextSample s rest).Inv := h

theorem inv_takeResponse (h : s.Inv) : (takeResponse s).Inv := h

theorem inv_sampleNow (h : s.Inv) (now : Time) : (sampleNow s now).Inv := h

theorem inv_setAcc (h : s.Inv) (v : Byte) : (s.setAcc v).Inv := h

theorem inv_setInterval (h : s.Inv) (v : BitVec 16) : (s.setInterval v).Inv := h

theorem inv_setMaxRetx (h : s.Inv) (v : Byte) : (s.setMaxRetx v).Inv := h

theorem inv_setFb (h : s.Inv) {bits : List Bool} (hb : bits.length ≤ 256) : (s.setFb bits).Inv := by
  obtain ⟨⟨_, hmb⟩, hrest⟩ := h
  exact ⟨⟨hb, hmb⟩, hrest⟩

theorem inv_setMb (h : s.Inv) {bits : List Bool} (hb : bits.length ≤ 128) : (s.setMb bits).Inv := by
  obtain ⟨⟨hfb, _⟩, hrest⟩ := h
  exact ⟨⟨hfb, hb⟩, hrest⟩

/-- Behind the bytes written to XB there are only zeros (R38). -/
theorem xbZeroBeyondCount_setXb (s : State) {bytes : List Byte} (hb : bytes.length ≤ 32) :
    XbZeroBeyondCount (s.setXb bytes) := by
  have hcnt := setXb_xbCnt_toNat s bytes hb
  refine ⟨setXb_xb_length s bytes, by omega, fun b hmem => ?_⟩
  rw [hcnt, setXb_xb, List.drop_take, List.drop_left] at hmem
  exact List.eq_of_mem_replicate (List.mem_of_mem_take hmem)

theorem inv_setXb (h : s.Inv) {bytes : List Byte} (hb : bytes.length ≤ 32) : (s.setXb bytes).Inv := by
  obtain ⟨hbuf, _, hrest⟩ := h
  exact ⟨hbuf, xbZeroBeyondCount_setXb s hb, hrest⟩

theorem inv_setFound (h : s.Inv) {k : Nat} (hk : k ≤ 240) : (s.setFound k).Inv := by
  obtain ⟨hbuf, hxb, _, hrest⟩ := h
  refine ⟨hbuf, hxb, ⟨by simp, ?_⟩, hrest⟩
  rw [setFound_pos, BitVec.toNat_ofNat]
  omega

theorem inv_clearFound (h : s.Inv) : s.clearFound.Inv := by
  obtain ⟨hbuf, hxb, _, hrest⟩ := h
  exact ⟨hbuf, hxb, ⟨fun _ => rfl, by simp⟩, hrest⟩

theorem inv_setRes (h : s.Inv) {r : Reading} (hr : ReadingByVariant r) : (s.setRes r).Inv := by
  obtain ⟨hbuf, hxb, hpos, _, hrest⟩ := h
  exact ⟨hbuf, hxb, hpos, hr, hrest⟩

theorem inv_setQ (h : s.Inv) {q : List Entry} (hq : QueueSound q) : (s.setQ q).Inv := by
  obtain ⟨hbuf, hxb, hpos, hres, _, htx⟩ := h
  exact ⟨hbuf, hxb, hpos, hres, hq, htx⟩

theorem inv_setTx (h : s.Inv) {t : Transmit} (ht : TransmitSound t) : (s.setTx t).Inv := by
  obtain ⟨hbuf, hxb, hpos, hres, hq, _⟩ := h
  exact ⟨hbuf, hxb, hpos, hres, hq, ht⟩

end Updates

/-! ## Buffers and the match register -/

/-- An extract of a range of at most 256 bits has at most the thirty-two bytes of XB. -/
theorem extract_length_le {f : List Bool} {off cnt : Nat} {bytes : List Byte}
    (h : extract f off cnt = some bytes) (hf : f.length ≤ 256) : bytes.length ≤ 32 := by
  have hfit := (extract_eq_some h).1
  rw [length_of_extract h]
  omega

/-- A marker wholly inside 256 bits begins at offset 240 or before (R40). -/
theorem findPattern_le {f : List Bool} {hi lo : Byte} {win k : Nat} (h : findPattern f hi lo win = some k)
    (hf : f.length ≤ 256) : k ≤ 240 := by
  obtain ⟨_, hslice, _⟩ := (findPattern_eq_some_iff f hi lo win k).1 h
  have hfit := ((window_iff f hi lo k).2 hslice).1
  omega

/-- Two symbols give one bit, so 256 symbols give at most 128 (R37). -/
theorem manDecode_length_le {p : Params} {f bits : List Bool} {pre n : Nat} {inv : Bool}
    (h : manDecode p f pre n inv = .decoded bits) (hf : f.length ≤ 256) : bits.length ≤ 128 := by
  obtain ⟨hlen, hfit⟩ := manDecode_length h
  omega

/-! ## Readings (R46) -/

theorem readingByVariant_zero : ReadingByVariant .zero := by
  refine ⟨fun _ => rfl, ?_, ?_, ?_⟩ <;> intro hv <;> exact absurd hv (by decide)

theorem toNat_ofNat_valAt_lt (w : Nat) (f : List Bool) (a n : Nat) : (BitVec.ofNat w (valAt f a n)).toNat < 2 ^ n := by
  rw [BitVec.toNat_ofNat]
  exact lt_of_le_of_lt (Nat.mod_le _ _) (valAt_lt f a n)

theorem toNat_setWidth_byte_lt (b : Byte) (w : Nat) : (b.setWidth w).toNat < 2 ^ 8 := by
  rw [BitVec.toNat_setWidth]
  exact lt_of_le_of_lt (Nat.mod_le _ _) b.isLt

/-- A field below a small one is small itself. -/
theorem toNat_append_lt {v w n : Nat} {a : BitVec v} (b : BitVec w) (h : a.toNat < 2 ^ n) :
    (a ++ b).toNat < 2 ^ (n + w) := by
  rw [BitVec.toNat_append, ← Nat.shiftLeft_add_eq_or_of_lt b.isLt, Nat.shiftLeft_eq, Nat.pow_add]
  have hmul := Nat.mul_le_mul_right (2 ^ w) (Nat.succ_le_of_lt h)
  have hb := b.isLt
  rw [Nat.succ_mul] at hmul
  omega

theorem readingByVariant_classic (p : Params) (f : List Bool) (P : List Byte) :
    ReadingByVariant (classicReading p f P) := by
  refine ⟨by simp, fun _ _ => ?_, by simp, by simp⟩
  exact ⟨rfl, toNat_ofNat_valAt_lt .., toNat_ofNat_valAt_lt .., toNat_setWidth_byte_lt .., rfl, rfl, rfl⟩

theorem readingByVariant_ext (P : List Byte) : ReadingByVariant (extReading P) := by
  refine ⟨by simp, by simp, fun _ _ => ?_, by simp⟩
  have hid : (extReading P).id.toNat < 2 ^ (0 + 8 + 8 + 8) :=
    toNat_append_lt _ (toNat_append_lt _ (toNat_append_lt _ (by simp)))
  exact ⟨rfl, hid, toNat_setWidth_byte_lt .., rfl, rfl, rfl⟩

theorem readingByVariant_man (d : List Bool) (B : List Byte) : ReadingByVariant (manReading d B) := by
  refine ⟨by simp, by simp, by simp, fun _ _ => ?_⟩
  exact ⟨rfl, toNat_ofNat_valAt_lt .., toNat_ofNat_valAt_lt .., rfl, rfl, rfl⟩

/-- Every reading of a decoder has the contents of its variant (R46). -/
theorem readingByVariant_of_decode {f : List Bool} {v : Variant} {r : Reading}
    (h : decodeVariant Config.params f v = .ok r) : ReadingByVariant r := by
  cases v with
  | classic =>
    change decodeClassic Config.params f = .ok r at h
    rcases decodeClassic_cases Config.params f rfl (by decide) with
      ⟨_, e⟩ | ⟨_, P, _, ⟨_, e⟩ | ⟨_, _, e⟩ | ⟨_, _, e⟩⟩
    · cases e.symm.trans h
    · cases e.symm.trans h
    · cases e.symm.trans h
    · cases e.symm.trans h
      exact readingByVariant_classic _ f P
  | ext =>
    change decodeExt Config.params f = .ok r at h
    rcases decodeExt_cases Config.params f with
      ⟨_, e⟩ | ⟨_, _, e⟩ | ⟨_, k, _, ⟨_, e⟩ | ⟨P, _, ⟨_, e⟩ | ⟨_, _, e⟩ | ⟨_, _, e⟩⟩⟩
    · cases e.symm.trans h
    · cases e.symm.trans h
    · cases e.symm.trans h
    · cases e.symm.trans h
    · cases e.symm.trans h
    · cases e.symm.trans h
      exact readingByVariant_ext P
  | man =>
    change decodeMan Config.params f = .ok r at h
    rcases decodeMan_cases Config.params f (by decide) with
      ⟨_, e⟩ | ⟨_, _, e⟩ | ⟨_, _, _, e⟩ | ⟨_, _, _, ⟨_, _, e⟩ | ⟨d, B, _, _, e⟩⟩
    · cases e.symm.trans h
    · cases e.symm.trans h
    · cases e.symm.trans h
    · cases e.symm.trans h
    · cases e.symm.trans h
      exact readingByVariant_man d B

/-! ## Queue and transmit registers (R53, R56) -/

/-- Exchanging an entry for one with its id, in its place, keeps the queue sound. -/
theorem queueSound_replace {before after : List Entry} {x e : Entry} (h : QueueSound (before ++ x :: after))
    (hid : x.id = e.id) (hc : e.count.toNat ≤ 255) : QueueSound (before ++ e :: after) := by
  obtain ⟨hlen, hnodup, hcount⟩ := h
  refine ⟨by simpa using hlen, by simpa [hid] using hnodup, ?_⟩
  simp only [List.mem_append, List.mem_cons] at hcount ⊢
  rintro y (hy | rfl | hy)
  · exact hcount y (.inl hy)
  · exact hc
  · exact hcount y (.inr (.inr hy))

/-- An entry with a new id may be appended where there is room. -/
theorem queueSound_append {q : List Entry} {e : Entry} (h : QueueSound q) (hlt : q.length < 12)
    (hnew : ∀ y ∈ q, y.id ≠ e.id) (hc : e.count.toNat ≤ 255) : QueueSound (q ++ [e]) := by
  obtain ⟨_, hnodup, hcount⟩ := h
  refine ⟨by simpa using hlt, ?_, ?_⟩
  · rw [List.map_append, List.nodup_append]
    refine ⟨hnodup, by simp, ?_⟩
    simpa using hnew
  · simp only [List.mem_append, List.mem_singleton]
    rintro y (hy | rfl)
    · exact hcount y hy
    · exact hc

/-- Removing entries keeps the queue sound. -/
theorem queueSound_sublist {q q' : List Entry} (h : QueueSound q) (hsub : q'.Sublist q) : QueueSound q' := by
  obtain ⟨hlen, hnodup, hcount⟩ := h
  exact ⟨hsub.length_le.trans hlen, hnodup.sublist (hsub.map _), fun e he => hcount e (hsub.subset he)⟩

theorem queueSound_of_addOrUpdate {q q' : List Entry} {e : Entry} (h : QueueSound q) (hc : e.count.toNat ≤ 255)
    (ha : addOrUpdate Config.params q e = some q') : QueueSound q' := by
  rcases addOrUpdate_cases Config.params q e with ⟨before, x, after, rfl, hx, _, ea⟩ | ⟨hnew, hlt, ea⟩ | ⟨_, _, ea⟩
  · cases ea.symm.trans ha
    exact queueSound_replace h hx hc
  · cases ea.symm.trans ha
    exact queueSound_append h hlt hnew hc
  · cases ea.symm.trans ha

/-- A service counts one up from at most 255 (R53 (d)). -/
theorem afterService_count_le {now : Time} {interval : BitVec 16} {x : Entry} (hx : x.count.toNat ≤ 255) :
    (afterService now interval x).count.toNat ≤ 256 := by
  rw [afterService_count, BitVec.toNat_add]
  exact le_trans (Nat.mod_le _ _) (Nat.add_le_add_right hx 1)

/-- What stays in the queue after a service has a count of at most MAX_RETX; what is sent, one of at most 256. -/
theorem queueSound_of_getNextDue {now : Time} {interval : BitVec 16} {maxRetx : Byte} {q : List Entry} {r : Serviced}
    (h : QueueSound q) (hd : getNextDue now interval maxRetx q = some r) :
    QueueSound r.queue ∧ r.entry.count.toNat ≤ 256 := by
  rcases getNextDue_cases now interval maxRetx q with ⟨before, x, after, rfl, _, _, ed⟩ | ⟨_, ed⟩
  · cases ed.symm.trans hd
    have ⟨_, _, hcount⟩ := h
    refine ⟨?_, afterService_count_le (hcount x (by simp))⟩
    cases hx : exceeds maxRetx (afterService now interval x) with
    | true => exact queueSound_sublist h ((List.sublist_cons_self x after).append_left before)
    | false =>
      have hle : (afterService now interval x).count.toNat ≤ maxRetx.toNat := by
        simpa [exceeds] using hx
      have hmax := maxRetx.isLt
      exact queueSound_replace h rfl (by omega)
  · cases ed.symm.trans hd

theorem transmitSound_zero : TransmitSound .zero := ⟨fun _ => rfl, fun hv => absurd hv (by decide)⟩

/-- A frame sent begins with the sync word and has the bytes of TX_ID in its place (R56). -/
theorem transmitSound_transmitOf {r : Serviced} (hc : r.entry.count.toNat ≤ 256) : TransmitSound (transmitOf r) :=
  ⟨fun hv => absurd hv (by simp [transmitOf]), fun _ => ⟨rfl, rfl, rfl, hc⟩⟩

/-! ## Commands and steps -/

/-- Every command keeps the invariants. -/
theorem inv_of_effect {i : Instr} {s t : State} (hs : s.Inv) (h : Effect i s t) : t.Inv := by
  have ⟨⟨hfb, hmb⟩, _, _, _, hq, _⟩ := hs
  cases h with
  | fbclr => exact inv_respond (inv_setFb hs (by simp)) ..
  | fbpush n d s h =>
    obtain ⟨_, _, hfit⟩ := h
    exact inv_respond (inv_setFb hs (by simp; omega)) ..
  | extf cnt off s bytes h => exact inv_respond (inv_setXb hs (extract_length_le h hfb)) ..
  | extm cnt off s bytes h => exact inv_respond (inv_setXb hs (extract_length_le h (hmb.trans (by decide)))) ..
  | extfShort | extmShort => exact inv_respond (inv_setXb hs (by simp)) ..
  | crc8 | cksum | xorf | crc8Short | cksumShort | xorfShort => exact inv_respond (inv_setAcc hs _) ..
  | findp hi lo win s k h => exact inv_respond (inv_setFound hs (findPattern_le h hfb)) ..
  | findpNone => exact inv_respond (inv_clearFound hs) ..
  | mand pre nout s bits h | mandi pre nout s bits h =>
    exact inv_respond (inv_setMb hs (manDecode_length_le h hfb)) ..
  | mandShort | mandiShort | mandIllegal | mandiIllegal => exact inv_respond (inv_setMb hs (by simp)) ..
  | decc s r h => exact inv_respond (inv_setRes hs (readingByVariant_of_decode (v := .classic) h)) ..
  | decx s r h => exact inv_respond (inv_setRes hs (readingByVariant_of_decode (v := .ext) h)) ..
  | decm s r h => exact inv_respond (inv_setRes hs (readingByVariant_of_decode (v := .man) h)) ..
  | disp s r h =>
    obtain ⟨v, _, hv⟩ := firstReading_eq_some h
    exact inv_respond (inv_setRes hs (readingByVariant_of_decode hv)) ..
  | deccRefused | decxRefused | decmRefused | dispNone =>
    exact inv_respond (inv_setRes hs readingByVariant_zero) ..
  | qadd s q _ h => exact inv_respond (inv_setQ hs (queueSound_of_addOrUpdate hq (by simp) h)) ..
  | qdue s r h =>
    obtain ⟨hqueue, hcount⟩ := queueSound_of_getNextDue hq h
    exact inv_respond (inv_setTx (inv_setQ hs hqueue) (transmitSound_transmitOf hcount)) ..
  | qdueNone => exact inv_respond (inv_setTx hs transmitSound_zero) ..
  | csrwInterval => exact inv_respond (inv_setInterval hs _) ..
  | csrwMaxRetx => exact inv_respond (inv_setMaxRetx hs _) ..
  | fbpushRefused | qaddFull | qaddNoReading | qsize | csrr | csrrUnimplemented | csrwRefused =>
    exact inv_respond hs ..

/-- Accepting a word, legal or not, keeps the invariants. -/
theorem inv_of_accept {s t : State} {cmd : Word} {now : Time} (hs : s.Inv) (h : accept s cmd now = .next t) :
    t.Inv := by
  rcases accept_cases s cmd now with ⟨i, _, e⟩ | ⟨_, _, e⟩
  · exact inv_of_effect (inv_sampleNow hs now) (effect_of_exec (e.symm.trans h))
  · cases e.symm.trans h
    exact inv_answerIllegal (inv_sampleNow hs now)

/-- Settles O16: empty buffers, and XB all zero. -/
theorem resetMeetsInvariant : Obligations.ResetMeetsInvariant := by
  have hxb : XbZeroBeyondCount State.reset := xbZeroBeyondCount_setXb State.reset (bytes := []) (by simp)
  have hq : QueueSound State.reset.q := ⟨by decide, by decide, by decide⟩
  exact ⟨⟨by decide, by decide⟩, hxb, ⟨fun _ => rfl, by decide⟩, readingByVariant_zero, hq, transmitSound_zero⟩

/-- Settles O15, by the ways a step can go. -/
theorem stepKeepsInvariant : Obligations.StepKeepsInvariant := by
  intro s t hs h
  rcases step_cases s with ⟨_, e⟩ | ⟨p, rest, _, e | e | e | e⟩
  · cases e.symm.trans h
    exact hs
  · cases e.symm.trans h
    exact resetMeetsInvariant
  · cases e.symm.trans h
    exact inv_nextSample hs rest
  · cases e.symm.trans h
    exact inv_takeResponse (inv_nextSample hs rest)
  · exact inv_of_accept (inv_nextSample hs rest) (e.symm.trans h)

end Sys2Proof.Machine
end

section
/-! PROOFS of the family 10_state.md (3): the read and write sets of R62. What a command writes and answers is
one value, the same for all states that agree on what the command reads; the frame of a command, the independence
from everything else, and serial execution follow from that alone. -/

namespace Sys2Proof.Machine

/-! ## What two states hold in a unit -/

section SameIn

variable (s t : State)

/-- A response changes no unit. -/
theorem sameIn_respond_right (c : Code) (x : Word) (d : Dest) : SameIn s (respond t c x) d ↔ SameIn s t d := by
  cases d <;> rfl

theorem sameIn_respond_left (c : Code) (x : Word) (d : Dest) : SameIn (respond s c x) t d ↔ SameIn s t d := by
  cases d <;> rfl

theorem sameIn_refl (d : Dest) : SameIn s s d := by cases d <;> simp [SameIn]

end SameIn

/-! ## Writes -/

/-- What one command writes: nothing, or new contents for its destinations (R62). FBPUSH alone does not write
its destination whole: it appends. -/
inductive Write where
  | none
  | clearFb
  | appendFb (bits : List Bool)
  | mb (bits : List Bool)
  | xb (bytes : List Byte)
  | acc (v : Byte)
  | find (pos : Byte) (found : Bool)
  | res (r : Reading)
  | interval (v : BitVec 16)
  | maxRetx (v : Byte)
  | q (entries : List Entry)
  | tx (t : Transmit)
  | service (entries : List Entry) (t : Transmit)

namespace Write

/-- The state after a write. -/
def apply (s : State) : Write → State
  | none => s
  | clearFb => s.setFb []
  | appendFb bits => s.setFb (s.fb ++ bits)
  | mb bits => s.setMb bits
  | xb bytes => s.setXb bytes
  | acc v => s.setAcc v
  | find pos found => { s with pos := pos, found := found }
  | res r => s.setRes r
  | interval v => s.setInterval v
  | maxRetx v => s.setMaxRetx v
  | .q entries => s.setQ entries
  | tx t => s.setTx t
  | service entries t => (s.setQ entries).setTx t

/-- The destinations of a write. -/
def dests : Write → List Dest
  | none => []
  | clearFb | appendFb _ => [.fb]
  | mb _ => [.mb]
  | xb _ => [.xb]
  | acc _ => [.acc]
  | find _ _ => [.find]
  | res _ => [.res]
  | interval _ => [.interval]
  | maxRetx _ => [.maxRetx]
  | q _ => [.q]
  | tx _ => [.tx]
  | service _ _ => [.q, .tx]

@[simp] theorem apply_now (s : State) (w : Write) : (w.apply s).now = s.now := by cases w <;> rfl

@[simp] theorem apply_input (s : State) (w : Write) : (w.apply s).input = s.input := by cases w <;> rfl

/-- A write passes over NOW. -/
theorem apply_sampleNow (s : State) (w : Write) (n : Time) :
    w.apply (sampleNow s n) = sampleNow (w.apply s) n := by cases w <;> rfl

/-- A write passes over the samples to come. -/
theorem apply_nextSample (s : State) (w : Write) (l : List PortSample) :
    w.apply (nextSample s l) = nextSample (w.apply s) l := by cases w <;> rfl

/-- A write leaves every unit that is not one of its destinations. -/
theorem sameIn_apply_of_not_mem (s : State) {w : Write} {d : Dest} (h : d ∉ w.dests) : SameIn s (w.apply s) d := by
  cases w with
  | none => exact sameIn_refl s d
  | clearFb | appendFb | mb | xb | acc | find | res | interval | maxRetx | q | tx | service =>
    cases d <;> simp_all [dests, apply, SameIn]

/-- A destination written whole holds the same after a write, whatever it held before. -/
theorem sameIn_apply_of_mem (s s' : State) {w : Write} {d : Dest} (h : d ∈ w.dests)
    (hfb : d ≠ .fb ∨ w = .clearFb) : SameIn (w.apply s) (w.apply s') d := by
  cases w with
  | none => simp [dests] at h
  | appendFb => simp_all [dests]
  | xb bytes =>
    obtain rfl : d = .xb := by simpa [dests] using h
    exact ⟨rfl, rfl⟩
  | service =>
    obtain rfl | rfl : d = .q ∨ d = .tx := by simpa [dests] using h
    · rfl
    · rfl
  | clearFb | mb | acc | find | res | interval | maxRetx | q | tx =>
    obtain rfl := List.mem_singleton.1 h
    simp [SameIn, apply]

/-- A write that does not clear FB appends to it, none or some bits. -/
theorem apply_fb_of_ne_clearFb {w : Write} (h : w ≠ .clearFb) : ∃ bits, ∀ s : State, (w.apply s).fb = s.fb ++ bits := by
  cases w with
  | clearFb => exact absurd rfl h
  | appendFb bits => exact ⟨bits, fun s => rfl⟩
  | none | mb | xb | acc | find | res | interval | maxRetx | q | tx | service =>
    exact ⟨[], fun s => by simp [apply]⟩

end Write

/-! ## The shared operations write and answer one value -/

theorem extractIntoXb_uniform (read : State → List Bool) (source : List Bool) (off cnt : Nat) :
    ∃ bytes c x, ∀ s, source = read s → extractIntoXb s (read s) off cnt = .next (respond (s.setXb bytes) c x) := by
  cases h : extract source off cnt with
  | none =>
    refine ⟨[], .abortLength, 0, ?_⟩
    rintro s rfl
    simp [extractIntoXb, h]
  | some bytes =>
    refine ⟨bytes, .ok, (BitVec.ofNat 6 bytes.length).setWidth 32, ?_⟩
    rintro s rfl
    simp [extractIntoXb, h, State.xbCount, setXb_xbCnt]

theorem foldIntoAcc_uniform (B : List Byte) (n : BitVec 6) (count : Nat) (f : List Byte → Nat → Byte) :
    ∃ v c x, ∀ s, B = s.xb ∧ n = s.xbCnt → foldIntoAcc s count f = .next (respond (s.setAcc v) c x) := by
  by_cases h : count ≤ n.toNat
  · refine ⟨f B count, .ok, (f B count).setWidth 32, ?_⟩
    rintro s ⟨rfl, rfl⟩
    simp [foldIntoAcc, xbHolds, h]
  · refine ⟨0, .abortLength, 0, ?_⟩
    rintro s ⟨rfl, rfl⟩
    simp [foldIntoAcc, xbHolds, h]

theorem manchesterIntoMb_uniform (f : List Bool) (pre nout : Nat) (inv : Bool) :
    ∃ bits c x, ∀ s, f = s.fb → manchesterIntoMb s pre nout inv = .next (respond (s.setMb bits) c x) := by
  cases h : manDecode Config.params f pre nout inv with
  | failLength =>
    refine ⟨[], .abortLength, 0, ?_⟩
    rintro s rfl
    simp [manchesterIntoMb, h]
  | violation j =>
    refine ⟨[], .manViolation, BitVec.ofNat 32 j, ?_⟩
    rintro s rfl
    simp [manchesterIntoMb, h]
  | decoded bits =>
    refine ⟨bits, .ok, BitVec.ofNat 32 bits.length, ?_⟩
    rintro s rfl
    simp [manchesterIntoMb, h, State.mbLen]

theorem decodeIntoRes_uniform (decoder : List Bool → Except FailKind Reading) (f : List Bool) :
    ∃ r c x, ∀ s, f = s.fb → decodeIntoRes s (decoder s.fb) = .next (respond (s.setRes r) c x) := by
  cases h : decoder f with
  | ok r =>
    refine ⟨r, .ok, r.id, ?_⟩
    rintro s rfl
    rw [h]
    rfl
  | error k =>
    refine ⟨.zero, failCode k, 0, ?_⟩
    rintro s rfl
    rw [h]
    rfl

theorem dispatchIntoRes_uniform (p : Params) (f : List Bool) :
    ∃ r c x, ∀ s, f = s.fb → dispatchIntoRes p s = .next (respond (s.setRes r) c x) := by
  cases h : firstReading p f p.dispatchOrder with
  | none =>
    refine ⟨.zero, .noMatch, noMatchData p f, ?_⟩
    rintro s rfl
    simp [dispatchIntoRes, h]
  | some r =>
    refine ⟨r, .ok, r.id, ?_⟩
    rintro s rfl
    simp [dispatchIntoRes, h]

/-- `csr_read` reads the registers and nothing of the ports. -/
theorem csrRead_congr {s s' : State} (h : ∀ u, SameIn s s' u) (a : Byte) : csrRead s a = csrRead s' a := by
  have hs : s' = { s with now := s'.now, rsp := s'.rsp, input := s'.input } := by
    obtain ⟨hxb, hcnt⟩ := h .xb
    obtain ⟨hpos, hfound⟩ := h .find
    rw [show s.fb = s'.fb from h .fb, show s.mb = s'.mb from h .mb, hxb, hcnt, show s.acc = s'.acc from h .acc, hpos,
      hfound, show s.res = s'.res from h .res, show s.interval = s'.interval from h .interval,
      show s.maxRetx = s'.maxRetx from h .maxRetx, show s.q = s'.q from h .q, show s.tx = s'.tx from h .tx]
  rw [hs]
  rfl

/-! ## Every command writes and answers one value, given what it reads -/

/-- `Ends i s w c x`: on every state that agrees with `s` on what `i` reads, `i` makes the write `w`, within its row
of R62, and answers `(c, x)`. -/
structure Ends (i : Instr) (s : State) (w : Write) (c : Code) (x : Word) : Prop where
  exec_eq : ∀ s', AgreeOnReads s s' i → exec i s' = .next (respond (w.apply s') c x)
  within : ∀ d ∈ w.dests, d ∈ if c = .ok then writesOnSuccess i else writesOnFailure i
  clears : w = .clearFb ↔ i = .fbclr

theorem ends_fbpush (n : BitVec 4) (d : Byte) (s : State) : ∃ w c x, Ends (.fbpush n d) s w c x := by
  by_cases hfit : 1 ≤ n.toNat ∧ n.toNat ≤ 8 ∧ s.fb.length + n.toNat ≤ 256
  · refine ⟨.appendFb (pushBits n.toNat d), .ok, BitVec.ofNat 32 (s.fb.length + n.toNat), fun s' h => ?_, ?_, by simp⟩
    · replace h : s.fb.length = s'.fb.length := h
      rcases execFbpush_cases s' n d with ⟨_, e⟩ | ⟨hno, _⟩
      · rw [h]; exact e
      · exact absurd (h ▸ hfit) hno
    · simp [Write.dests, writesOnSuccess]
  · refine ⟨.none, .badOperand, 0, fun s' h => ?_, by simp [Write.dests], by simp⟩
    replace h : s.fb.length = s'.fb.length := h
    rcases execFbpush_cases s' n d with ⟨hyes, _⟩ | ⟨_, e⟩
    · exact absurd (h ▸ hyes) hfit
    · exact e

theorem ends_findp (hi lo win : Byte) (s : State) : ∃ w c x, Ends (.findp hi lo win) s w c x := by
  cases hf : findPattern s.fb hi lo win.toNat with
  | none =>
    refine ⟨.find 0 false, .notFound, 0, fun s' h => ?_, by simp [Write.dests, writesOnFailure], by simp⟩
    replace h : s.fb = s'.fb := h
    rw [h] at hf
    simp only [exec, execFindp, hf]
    rfl
  | some k =>
    refine ⟨.find (BitVec.ofNat 8 k) true, .ok, BitVec.ofNat 32 k, fun s' h => ?_,
      by simp [Write.dests, writesOnSuccess], by simp⟩
    replace h : s.fb = s'.fb := h
    rw [h] at hf
    simp only [exec, execFindp, hf]
    rfl

theorem ends_qadd (s : State) : ∃ w c x, Ends .qadd s w c x := by
  cases hv : s.res.valid with
  | false =>
    refine ⟨.none, .noReading, 0, ?_, by simp [Write.dests], by simp⟩
    rintro s' ⟨hres, _⟩
    rw [hres] at hv
    simp [exec, execQadd, hv, Write.apply]
  | true =>
    cases ha : addOrUpdate Config.params s.q (entryOf s.res s.now s.interval) with
    | none =>
      refine ⟨.none, .queueFull, s.qSize, ?_, by simp [Write.dests], by simp⟩
      rintro s' ⟨hres, hq, hint, hnow⟩
      rw [hres, hq, hint, hnow] at ha
      rw [hres] at hv
      simp [exec, execQadd, hv, ha, State.qSize, hq, Write.apply]
    | some q =>
      refine ⟨.q q, .ok, BitVec.ofNat 32 q.length, ?_, by simp [Write.dests, writesOnSuccess], by simp⟩
      rintro s' ⟨hres, hq, hint, hnow⟩
      rw [hres, hq, hint, hnow] at ha
      rw [hres] at hv
      simp [exec, execQadd, hv, ha, State.qSize, Write.apply]

theorem ends_qdue (s : State) : ∃ w c x, Ends .qdue s w c x := by
  cases hd : getNextDue s.now s.interval s.maxRetx s.q with
  | none =>
    refine ⟨.tx .zero, .noneDue, 0, ?_, by simp [Write.dests, writesOnFailure], by simp⟩
    rintro s' ⟨hq, hint, hmax, hnow⟩
    rw [hq, hint, hmax, hnow] at hd
    simp [exec, execQdue, hd, Write.apply]
  | some r =>
    refine ⟨.service r.queue (transmitOf r), .ok, r.entry.id, ?_, by simp [Write.dests, writesOnSuccess], by simp⟩
    rintro s' ⟨hq, hint, hmax, hnow⟩
    rw [hq, hint, hmax, hnow] at hd
    simp [exec, execQdue, hd, Write.apply]

theorem ends_csrr (a : Byte) (s : State) : ∃ w c x, Ends (.csrr a) s w c x := by
  cases hr : csrRead s a with
  | none =>
    refine ⟨.none, .badOperand, 0, fun s' h => ?_, by simp [Write.dests], by simp⟩
    rw [csrRead_congr h] at hr
    simp [exec, execCsrr, hr, Write.apply]
  | some v =>
    refine ⟨.none, .ok, v, fun s' h => ?_, by simp [Write.dests], by simp⟩
    rw [csrRead_congr h] at hr
    simp [exec, execCsrr, hr, Write.apply]

theorem ends_csrw (a : Byte) (imm : BitVec 16) (s : State) : ∃ w c x, Ends (.csrw a imm) s w c x := by
  by_cases h1 : a = 0x01
  · exact ⟨.interval imm, .ok, imm.setWidth 32, fun s' _ => by simp [exec, execCsrw, h1, Write.apply],
      by simp [Write.dests, writesOnSuccess], by simp⟩
  · by_cases h2 : a = 0x02
    · exact ⟨.maxRetx (imm.setWidth 8), .ok, (imm.setWidth 8).setWidth 32,
        fun s' _ => by simp [exec, execCsrw, h2, Write.apply], by simp [Write.dests, writesOnSuccess], by simp⟩
    · exact ⟨.none, .badOperand, 0, fun s' _ => by rw [exec, execCsrw, if_neg h1, if_neg h2]; rfl,
        by simp [Write.dests], by simp⟩

/-- Every command, on every state, makes one write and gives one answer that its read set determines (R62). -/
theorem exec_ends (i : Instr) (s : State) : ∃ w c x, Ends i s w c x := by
  cases i with
  | fbclr => exact ⟨.clearFb, .ok, 0, fun _ _ => rfl, by simp [Write.dests, writesOnSuccess], by simp⟩
  | fbpush n d => exact ends_fbpush n d s
  | extf cnt off =>
    obtain ⟨bytes, c, x, e⟩ := extractIntoXb_uniform State.fb s.fb off.toNat cnt.toNat
    exact ⟨.xb bytes, c, x, e, by simp [Write.dests, writesOnSuccess, writesOnFailure], by simp⟩
  | extm cnt off =>
    obtain ⟨bytes, c, x, e⟩ := extractIntoXb_uniform State.mb s.mb off.toNat cnt.toNat
    exact ⟨.xb bytes, c, x, e, by simp [Write.dests, writesOnSuccess, writesOnFailure], by simp⟩
  | crc8 count poly init =>
    obtain ⟨v, c, x, e⟩ := foldIntoAcc_uniform s.xb s.xbCnt count.toNat fun B n => crc8 B n poly init
    exact ⟨.acc v, c, x, e, by simp [Write.dests, writesOnSuccess, writesOnFailure], by simp⟩
  | cksum count =>
    obtain ⟨v, c, x, e⟩ := foldIntoAcc_uniform s.xb s.xbCnt count.toNat checksum
    exact ⟨.acc v, c, x, e, by simp [Write.dests, writesOnSuccess, writesOnFailure], by simp⟩
  | xorf count =>
    obtain ⟨v, c, x, e⟩ := foldIntoAcc_uniform s.xb s.xbCnt count.toNat xorFold
    exact ⟨.acc v, c, x, e, by simp [Write.dests, writesOnSuccess, writesOnFailure], by simp⟩
  | findp hi lo win => exact ends_findp hi lo win s
  | mand pre nout =>
    obtain ⟨bits, c, x, e⟩ := manchesterIntoMb_uniform s.fb pre.toNat nout.toNat false
    exact ⟨.mb bits, c, x, e, by simp [Write.dests, writesOnSuccess, writesOnFailure], by simp⟩
  | mandi pre nout =>
    obtain ⟨bits, c, x, e⟩ := manchesterIntoMb_uniform s.fb pre.toNat nout.toNat true
    exact ⟨.mb bits, c, x, e, by simp [Write.dests, writesOnSuccess, writesOnFailure], by simp⟩
  | decc =>
    obtain ⟨r, c, x, e⟩ := decodeIntoRes_uniform (decodeClassic Config.params) s.fb
    exact ⟨.res r, c, x, e, by simp [Write.dests, writesOnSuccess, writesOnFailure], by simp⟩
  | decx =>
    obtain ⟨r, c, x, e⟩ := decodeIntoRes_uniform (decodeExt Config.params) s.fb
    exact ⟨.res r, c, x, e, by simp [Write.dests, writesOnSuccess, writesOnFailure], by simp⟩
  | decm =>
    obtain ⟨r, c, x, e⟩ := decodeIntoRes_uniform (decodeMan Config.params) s.fb
    exact ⟨.res r, c, x, e, by simp [Write.dests, writesOnSuccess, writesOnFailure], by simp⟩
  | disp =>
    obtain ⟨r, c, x, e⟩ := dispatchIntoRes_uniform Config.params s.fb
    exact ⟨.res r, c, x, e, by simp [Write.dests, writesOnSuccess, writesOnFailure], by simp⟩
  | qadd => exact ends_qadd s
  | qdue => exact ends_qdue s
  | qsize =>
    refine ⟨.none, .ok, s.qSize, fun s' h => ?_, by simp [Write.dests], by simp⟩
    replace h : s.q = s'.q := h
    simp [exec, execQsize, State.qSize, h, Write.apply]
  | csrr a => exact ends_csrr a s
  | csrw a imm => exact ends_csrw a imm s

/-! ## The obligations on read and write sets -/

theorem agreeOnReads_refl (s : State) (i : Instr) : AgreeOnReads s s i := by
  cases i with
  | csrr a => exact sameIn_refl s
  | _ => simp [AgreeOnReads]

/-- Settles O12: the write of a command is within its row. -/
theorem writeSetFrame : Obligations.WriteSetFrame := by
  intro i s t r h hr
  obtain ⟨w, c, x, hw⟩ := exec_ends i s
  cases (hw.exec_eq s (agreeOnReads_refl s i)).symm.trans h
  obtain rfl : ⟨c, x⟩ = r := by simpa using hr
  refine ⟨by simp, by simp, fun d hd => ?_⟩
  rw [sameIn_respond_right]
  exact Write.sameIn_apply_of_not_mem s (mt (hw.within d) hd)

/-- Settles O13: two states that agree on the read set make the same write and give the same answer. -/
theorem readSetDeterminesEffect : Obligations.ReadSetDeterminesEffect := by
  intro i s s' t t' hagree h h'
  obtain ⟨w, c, x, hw⟩ := exec_ends i s
  cases (hw.exec_eq s (agreeOnReads_refl s i)).symm.trans h
  cases (hw.exec_eq s' hagree).symm.trans h'
  refine ⟨rfl, fun d hd => ?_, fun hi => ?_⟩
  · rw [sameIn_respond_right, sameIn_respond_right, sameIn_respond_right, sameIn_respond_left]
    by_cases hmem : d ∈ w.dests
    · exact .inr (Write.sameIn_apply_of_mem s s' hmem (hd.imp_right hw.clears.2))
    · exact .inl ⟨Write.sameIn_apply_of_not_mem s hmem, Write.sameIn_apply_of_not_mem s' hmem⟩
  · obtain ⟨bits, hbits⟩ := Write.apply_fb_of_ne_clearFb (mt hw.clears.1 hi)
    exact ⟨bits, hbits s, hbits s'⟩

/-- NOW is outside the read set of every command but QADD and QDUE. -/
theorem agreeOnReads_sampleNow (s : State) (n : Time) {i : Instr} (hadd : i ≠ .qadd) (hdue : i ≠ .qdue) :
    AgreeOnReads s (sampleNow s n) i := by
  cases i with
  | qadd => exact absurd rfl hadd
  | qdue => exact absurd rfl hdue
  | csrr a => exact fun u => by cases u <;> simp [SameIn]
  | _ => simp [AgreeOnReads]

/-- Settles O17: states that differ in NOW agree on the read set. -/
theorem nowReadByQueueOnly : Obligations.NowReadByQueueOnly := by
  intro i s t n hadd hdue h
  obtain ⟨w, c, x, hw⟩ := exec_ends i s
  cases (hw.exec_eq s (agreeOnReads_refl s i)).symm.trans h
  have he := hw.exec_eq _ (agreeOnReads_sampleNow s n hadd hdue)
  rw [Write.apply_sampleNow] at he
  exact he

/-! ## Serial execution (20_memory.md R101) -/

/-- The samples to come are outside every read set. -/
theorem agreeOnReads_nextSample (s : State) (l : List PortSample) (i : Instr) : AgreeOnReads s (nextSample s l) i := by
  cases i with
  | csrr a => exact fun u => by cases u <;> simp [SameIn]
  | _ => simp [AgreeOnReads]

/-- No command sees the samples to come, and none changes them. -/
theorem exec_nextSample {i : Instr} {s t : State} (l : List PortSample) (h : exec i s = .next t) :
    exec i (nextSample s l) = .next (nextSample t l) := by
  obtain ⟨w, c, x, hw⟩ := exec_ends i s
  cases (hw.exec_eq s (agreeOnReads_refl s i)).symm.trans h
  rw [hw.exec_eq _ (agreeOnReads_nextSample s l i), Write.apply_nextSample]
  rfl

/-- An accepted word ends in a state with a response to take; the samples to come have no part in it. -/
theorem accept_nextSample (s : State) (cmd : Word) (now : Time) :
    ∃ (t : State) (r : Response), t.rsp = some r ∧
      ∀ l, accept (nextSample s l) cmd now = .next (nextSample t l) := by
  cases hd : decode cmd with
  | ok i =>
    obtain ⟨w, c, x, hw⟩ := exec_ends i (sampleNow s now)
    refine ⟨respond (w.apply (sampleNow s now)) c x, ⟨c, x⟩, rfl, fun l => ?_⟩
    rw [accept_of_decode hd]
    exact exec_nextSample l (hw.exec_eq _ (agreeOnReads_refl (sampleNow s now) i))
  | error e =>
    refine ⟨answerIllegal (sampleNow s now), ⟨.illegalCmd, 0⟩, rfl, fun l => ?_⟩
    simp only [accept, hd]
    rfl

theorem present_cons (c : Word × Time) (program : List (Word × Time)) :
    present (c :: program) = offerSample c.1 c.2 :: takeSample :: present program := rfl

/-- The sample that offers a command, with no response pending, accepts it. -/
theorem step_offerSample {s : State} (hn : s.rsp = none) (cmd : Word) (now : Time) (rest : List PortSample) :
    step (nextSample s (offerSample cmd now :: rest)) = accept (nextSample s rest) cmd now :=
  step_of_offer (s := nextSample s (offerSample cmd now :: rest)) (p := offerSample cmd now) rfl rfl rfl hn

/-- The sample that takes a response takes the one pending. -/
theorem step_takeSample {s : State} {r : Response} (hr : s.rsp = some r) (rest : List PortSample) :
    step (nextSample s (takeSample :: rest)) = .next (nextSample (takeResponse s) rest) :=
  step_of_pending (s := nextSample s (takeSample :: rest)) (p := takeSample) rfl rfl hr

/-- A program presented runs up to any of its commands as `serial` runs the commands before it. -/
theorem run_present (before after : List (Word × Time)) (cmd : Word) (now : Time) {s : State} (hn : s.rsp = none) :
    ∃ u, serial (nextSample s []) before = .next u ∧
      Host.Core.run Sys2Proof.core (2 * before.length + 1) (nextSample s (present (before ++ (cmd, now) :: after))) =
        accept (nextSample u (takeSample :: present after)) cmd now := by
  induction before generalizing s with
  | nil =>
    refine ⟨nextSample s [], rfl, ?_⟩
    rw [List.nil_append, present_cons, List.length_nil, Nat.mul_zero, Nat.zero_add, run_one, step_offerSample hn]
    rfl
  | cons c before ih =>
    obtain ⟨t, r, hr, ha⟩ := accept_nextSample s c.1 c.2
    obtain ⟨u, hserial, hrun⟩ := ih (s := takeResponse t) rfl
    have hoffer := (step_offerSample hn c.1 c.2 _).trans
      (ha (takeSample :: present (before ++ (cmd, now) :: after)))
    refine ⟨u, (serial_cons _ before (ha [])).trans hserial, ?_⟩
    rw [List.cons_append, present_cons, List.length_cons,
      show 2 * (before.length + 1) + 1 = 2 * before.length + 1 + 1 + 1 by omega, run_succ_of_step _ hoffer,
      run_succ_of_step _ (step_takeSample hr _), hrun]

/-- Settles O19, by induction on the commands before: each leaves what `serial` leaves. -/
theorem programRunsSerially : Obligations.ProgramRunsSerially := by
  intro before after cmd now s hn
  exact run_present before after cmd now hn

end Sys2Proof.Machine
end

section
/-! PROOFS of the family 10_state.md (4): the order of the queue (R49, R53). -/

namespace Sys2Proof.Machine

/-- Adding a reading keeps the ids, or appends its own. -/
theorem map_id_of_addOrUpdate {p : Params} {q q' : List Entry} {e : Entry} (h : addOrUpdate p q e = some q') :
    q'.map Entry.id = q.map Entry.id ∨ q'.map Entry.id = q.map Entry.id ++ [e.id] := by
  rcases addOrUpdate_cases p q e with ⟨before, x, after, rfl, hx, _, ea⟩ | ⟨_, _, ea⟩ | ⟨_, _, ea⟩
  · cases ea.symm.trans h
    exact .inl (by simp [hx])
  · cases ea.symm.trans h
    exact .inr (by simp)
  · cases ea.symm.trans h

/-- A service keeps the ids, or removes one. -/
theorem map_id_sublist_of_getNextDue {now : Time} {interval : BitVec 16} {maxRetx : Byte} {q : List Entry}
    {r : Serviced} (h : getNextDue now interval maxRetx q = some r) :
    (r.queue.map Entry.id).Sublist (q.map Entry.id) := by
  rcases getNextDue_cases now interval maxRetx q with ⟨before, x, after, rfl, _, _, ed⟩ | ⟨_, ed⟩
  · cases ed.symm.trans h
    cases exceeds maxRetx (afterService now interval x) with
    | true => exact ((List.sublist_cons_self x after).append_left before).map _
    | false => simp
  · cases ed.symm.trans h

/-- Settles O52: only QADD and QDUE write the queue. -/
theorem queueOrderPreserved : Obligations.QueueOrderPreserved := by
  intro i s t h
  cases effect_of_exec h with
  | qadd s q _ ha =>
    rcases map_id_of_addOrUpdate ha with hkept | hnew
    · exact .inl (hkept ▸ List.Sublist.refl _)
    · exact .inr hnew
  | qdue s r hd => exact .inl (map_id_sublist_of_getNextDue hd)
  | _ => exact .inl (List.Sublist.refl _)

end Sys2Proof.Machine
end

section
/-! PROOFS of the family 20_memory.md (1): a command issued twice (R99). A command that appends nothing makes
the same write again, and reads nothing of what it wrote: QADD alone does, and finds its own entry. -/

namespace Sys2Proof.Machine

/-- The destinations a command writes on a failure are among those it writes on success (R62). -/
theorem mem_writesOnSuccess_of_mem_writesOnFailure {i : Instr} {d : Dest} (h : d ∈ writesOnFailure i) :
    d ∈ writesOnSuccess i := by
  cases i with
  | fbclr | fbpush | qadd | qsize | csrr | csrw => simp [writesOnFailure] at h
  | qdue => simp_all [writesOnFailure, writesOnSuccess]
  | _ => exact h

/-- Success or not, a command writes within its success column of R62. -/
theorem Ends.mem_writesOnSuccess {i : Instr} {s : State} {w : Write} {c : Code} {x : Word} (h : Ends i s w c x)
    {d : Dest} (hd : d ∈ w.dests) : d ∈ writesOnSuccess i := by
  have hrow := h.within d hd
  split at hrow
  · exact hrow
  · exact mem_writesOnSuccess_of_mem_writesOnFailure hrow

/-- Where a command ends, the units outside its success column of R62 hold what they held. -/
theorem Ends.sameIn {i : Instr} {s : State} {w : Write} {c : Code} {x : Word} (h : Ends i s w c x) {d : Dest}
    (hd : d ∉ writesOnSuccess i) : SameIn s (respond (w.apply s) c x) d :=
  (sameIn_respond_right s _ c x d).2 (Write.sameIn_apply_of_not_mem s (mt h.mem_writesOnSuccess hd))

/-- The commands other than FBPUSH, QADD and QDUE read nothing they write (R62). -/
theorem agreeOnReads_of_sameIn {i : Instr} {s t : State} (hpush : ∀ n d, i ≠ .fbpush n d) (hadd : i ≠ .qadd)
    (hdue : i ≠ .qdue) (h : ∀ d, d ∉ writesOnSuccess i → SameIn s t d) : AgreeOnReads s t i := by
  cases i with
  | fbpush n d => exact absurd rfl (hpush n d)
  | qadd => exact absurd rfl hadd
  | qdue => exact absurd rfl hdue
  | fbclr | csrw => trivial
  | csrr => exact fun d => h d (by simp [writesOnSuccess])
  | extm => exact h .mb (by simp [writesOnSuccess])
  | crc8 | cksum | xorf => exact h .xb (by simp [writesOnSuccess])
  | qsize => exact h .q (by simp [writesOnSuccess])
  | extf | findp | mand | mandi | decc | decx | decm | disp => exact h .fb (by simp [writesOnSuccess])

/-- Only FBPUSH makes a write that appends. -/
theorem Ends.ne_appendFb {i : Instr} {s : State} {w : Write} {c : Code} {x : Word} (h : Ends i s w c x)
    (hpush : ∀ n d, i ≠ .fbpush n d) (bits : List Bool) : w ≠ .appendFb bits := by
  rintro rfl
  have hmem : Dest.fb ∈ writesOnSuccess i := h.mem_writesOnSuccess (by simp [Write.dests])
  cases i with
  | fbclr => cases h.clears.2 rfl
  | fbpush n d => exact hpush n d rfl
  | _ => simp [writesOnSuccess] at hmem

/-- A write that does not append leaves the same when it is made again, and so does the answer. -/
theorem Write.respond_apply_twice (s : State) {w : Write} (h : ∀ bits, w ≠ .appendFb bits) (c : Code) (x : Word) :
    respond (w.apply (respond (w.apply s) c x)) c x = respond (w.apply s) c x := by
  cases w with
  | appendFb bits => exact absurd rfl (h bits)
  | _ => rfl

/-- An entry just added is overwritten by itself in its place (45_queue.md R262). -/
theorem addOrUpdate_again {p : Params} {q q' : List Entry} {e : Entry} (h : addOrUpdate p q e = some q') :
    addOrUpdate p q' e = some q' := by
  rcases addOrUpdate_cases p q e with ⟨before, x, after, _, _, hb, ea⟩ | ⟨hnew, _, ea⟩ | ⟨_, _, ea⟩
  · cases ea.symm.trans h
    simp [addOrUpdate, overwrite_append rfl hb]
  · cases ea.symm.trans h
    simp [addOrUpdate, overwrite_append rfl hnew]
  · cases ea.symm.trans h

@[simp] theorem respond_respond (s : State) (c c' : Code) (x x' : Word) :
    respond (respond s c x) c' x' = respond s c' x' := rfl

@[simp] theorem setQ_respond (s : State) (c : Code) (x : Word) (q : List Entry) :
    (respond s c x).setQ q = respond (s.setQ q) c x := rfl

@[simp] theorem setQ_setQ (s : State) (q q' : List Entry) : (s.setQ q).setQ q' = s.setQ q' := rfl

/-- QADD again, at the same NOW, adds nothing to what it left. -/
theorem exec_qadd_again {s t : State} (h : exec .qadd s = .next t) : exec .qadd t = .next t := by
  cases effect_of_exec h with
  | qadd s q hv ha => simp [exec, execQadd, hv, addOrUpdate_again ha, State.qSize]
  | qaddFull s hv ha => simp [exec, execQadd, hv, ha, State.qSize]
  | qaddNoReading s hv => simp [exec, execQadd, hv]

/-- A command other than FBPUSH and QDUE, issued again at the same NOW, leaves and answers the same (R99). -/
theorem exec_again {i : Instr} {s t : State} (hpush : ∀ n d, i ≠ .fbpush n d) (hdue : i ≠ .qdue)
    (h : exec i s = .next t) : exec i t = .next t := by
  by_cases hadd : i = .qadd
  · subst hadd
    exact exec_qadd_again h
  · obtain ⟨w, c, x, hw⟩ := exec_ends i s
    cases (hw.exec_eq s (agreeOnReads_refl s i)).symm.trans h
    rw [hw.exec_eq _ (agreeOnReads_of_sameIn hpush hadd hdue fun d => hw.sameIn),
      Write.respond_apply_twice s (hw.ne_appendFb hpush)]

/-- CSRR answers, and leaves everything else (46_csr_access.md R301). -/
theorem exec_csrr_respond (a : Byte) (s : State) : ∃ c x, exec (.csrr a) s = .next (respond s c x) := by
  rcases execCsrr_cases s a with ⟨v, _, e⟩ | ⟨_, e⟩
  · exact ⟨_, _, e⟩
  · exact ⟨_, _, e⟩

/-- Settles O18: a read is a command issued again with nothing written. -/
theorem repeatedCommandIdempotent : Obligations.RepeatedCommandIdempotent := by
  refine ⟨fun a s => ?_, fun s => ⟨_, rfl⟩, fun i s t => exec_again⟩
  obtain ⟨c, x, e⟩ := exec_csrr_respond a s
  exact ⟨⟨c, x⟩, e, exec_again (by simp) (by simp) e⟩

end Sys2Proof.Machine
end

section
/-! PROOFS of the family 20_memory.md (2): the registers of the CSR map (R88 to R93). -/

namespace Sys2Proof.Machine

/-! ## Which address shows what -/

section Addresses

variable (s : State)

theorem csrRead_txWindow {w : Nat} (hw : w < 4) :
    csrRead s (BitVec.ofNat 8 (0x18 + w)) = some (byteWindow s.tx.frame w) := by
  interval_cases w <;> rfl

theorem csrRead_xbWindow {w : Nat} (hw : w < 8) :
    csrRead s (BitVec.ofNat 8 (0x20 + w)) = some (byteWindow s.xb w) := by
  interval_cases w <;> rfl

theorem csrRead_fbWindow {w : Nat} (hw : w < 8) :
    csrRead s (BitVec.ofNat 8 (0x28 + w)) = some (bitWindow s.fb w) := by
  interval_cases w <;> rfl

theorem csrRead_mbWindow {w : Nat} (hw : w < 4) :
    csrRead s (BitVec.ofNat 8 (0x30 + w)) = some (bitWindow s.mb w) := by
  interval_cases w <;> rfl

/-- From 0x40 on there is nothing but the queue window (R92). -/
theorem csrRead_of_ge {a : Byte} (h : 0x40 ≤ a.toNat) :
    csrRead s a = queueWindow s.q (windowSlot a.toNat) (windowField a.toNat) := by
  unfold csrRead
  split
  case h_19 => simp (disch := omega) only [if_neg, if_pos]
  all_goals omega

theorem csrRead_queueWindow {i j : Nat} (hi : i < 12) (hj : j < 16) :
    csrRead s (BitVec.ofNat 8 (0x40 + 16 * i + j)) = queueWindow s.q i j := by
  have ha : (BitVec.ofNat 8 (0x40 + 16 * i + j)).toNat = 0x40 + 16 * i + j := by
    rw [BitVec.toNat_ofNat]
    omega
  have hslot : windowSlot (0x40 + 16 * i + j) = i := by
    unfold windowSlot
    omega
  have hfield : windowField (0x40 + 16 * i + j) = j := by
    unfold windowField
    omega
  rw [csrRead_of_ge s (by omega), ha, hslot, hfield]

end Addresses

/-! ## The queue window (R92) -/

/-- The fields of an occupied slot as numbers. -/
theorem slotField_eq_some (e : Entry) {j : Nat} (hj : j < 8) :
    ∃ v, slotField e j = some v ∧
      v.toNat = [e.id.toNat, e.flags.toNat, e.press.toNat, e.temp.toNat, e.mic.toNat, e.next.toNat,
        e.count.toNat, 1].getD j 0 := by
  interval_cases j
  · exact ⟨e.id, rfl, rfl⟩
  · exact ⟨e.flags, rfl, rfl⟩
  · exact ⟨e.press.setWidth 32, rfl, BitVec.toNat_setWidth_of_le (by decide)⟩
  · exact ⟨e.temp.setWidth 32, rfl, BitVec.toNat_setWidth_of_le (by decide)⟩
  · exact ⟨e.mic.setWidth 32, rfl, BitVec.toNat_setWidth_of_le (by decide)⟩
  · exact ⟨e.next.setWidth 32, rfl, BitVec.toNat_setWidth_of_le (by decide)⟩
  · exact ⟨e.count.setWidth 32, rfl, BitVec.toNat_setWidth_of_le (by decide)⟩
  · exact ⟨1, rfl, rfl⟩

theorem slotField_eq_none {e : Entry} {j : Nat} (hj : 8 ≤ j) : slotField e j = none := by
  unfold slotField
  split
  case h_9 => rfl
  all_goals omega

theorem queueWindow_of_occupied {q : List Entry} {i : Nat} {e : Entry} (h : q[i]? = some e) (j : Nat) :
    queueWindow q i j = slotField e j := by
  simp [queueWindow, h]

theorem queueWindow_of_empty {q : List Entry} {i : Nat} (h : q.length ≤ i) (j : Nat) :
    queueWindow q i j = if j < 8 then some 0 else none := by
  simp [queueWindow, h]

/-- The fields 8 to 15 of every slot are unimplemented, the others are not (R93). -/
theorem queueWindow_eq_none_iff (q : List Entry) (i j : Nat) : queueWindow q i j = none ↔ 8 ≤ j := by
  cases h : q[i]? with
  | none => simp [queueWindow_of_empty (List.getElem?_eq_none_iff.1 h)]
  | some e =>
    rw [queueWindow_of_occupied h]
    refine ⟨fun hn => ?_, slotField_eq_none⟩
    by_contra hj
    obtain ⟨v, hv, _⟩ := slotField_eq_some e (by omega : j < 8)
    cases hn.symm.trans hv

/-- Settles O58, by whether the slot is occupied. -/
theorem queueWindowShowsSlots : Obligations.QueueWindowShowsSlots := by
  intro s i j hi
  refine ⟨fun hj => ?_, fun hj hj' => ?_⟩
  · rw [csrRead_queueWindow s hi (by omega)]
    cases h : s.q[i]? with
    | none =>
      rw [queueWindow_of_empty (List.getElem?_eq_none_iff.1 h), if_pos hj]
      exact ⟨0, rfl, by simp, fun _ => rfl⟩
    | some e =>
      obtain ⟨hlt, _⟩ := List.getElem?_eq_some_iff.1 h
      obtain ⟨v, hv, hval⟩ := slotField_eq_some e hj
      rw [queueWindow_of_occupied h]
      refine ⟨v, hv, ?_, fun hle => by omega⟩
      rintro _ ⟨⟩
      exact hval
  · rw [csrRead_queueWindow s hi hj', queueWindow_eq_none_iff]
    exact hj

/-! ## The windows on the buffers (R86, R87, R90) -/

theorem bitWindow_getLsbD (f : List Bool) (w : Nat) {t : Nat} (ht : t < 32) :
    (bitWindow f w).getLsbD (31 - t) = f.getD (32 * w + t) false := by
  rw [bitWindow, getLsbD_ofNat_val _ (by simp) _ (by omega), show 32 - 1 - (31 - t) = t by omega]
  simp [List.getD_eq_getElem?_getD, ht]

theorem byteWindow_extractLsb' (B : List Byte) (w : Nat) {k : Nat} (hk : k < 4) :
    (byteWindow B w).extractLsb' (8 * (3 - k)) 8 = B.getD (4 * w + k) 0 := by
  unfold byteWindow
  interval_cases k
  · rw [BitVec.extractLsb'_append_eq_of_le (by decide), BitVec.extractLsb'_append_eq_of_le (by decide)]
    exact BitVec.extractLsb'_append_eq_left
  · rw [BitVec.extractLsb'_append_eq_of_le (by decide), BitVec.extractLsb'_append_eq_of_le (by decide)]
    exact BitVec.extractLsb'_append_eq_right
  · rw [BitVec.extractLsb'_append_eq_of_le (by decide)]
    exact BitVec.extractLsb'_append_eq_right
  · exact BitVec.extractLsb'_append_eq_right

/-- Settles O57: each window is read at its addresses and packs its buffer. -/
theorem csrWindowsPackBuffers : Obligations.CsrWindowsPackBuffers := by
  intro s
  refine ⟨fun w t ht => ⟨fun hw => ?_, fun hw => ?_⟩, fun w k hk => ⟨fun hw => ?_, fun hw => ?_⟩⟩
  · exact ⟨_, csrRead_fbWindow s hw, bitWindow_getLsbD s.fb w ht⟩
  · exact ⟨_, csrRead_mbWindow s hw, bitWindow_getLsbD s.mb w ht⟩
  · exact ⟨_, csrRead_xbWindow s hw, byteWindow_extractLsb' s.xb w hk⟩
  · exact ⟨_, csrRead_txWindow s hw, byteWindow_extractLsb' s.tx.frame w hk⟩

/-! ## The single registers (R88, R89) -/

/-- A concatenation as a number. -/
theorem toNat_append_eq_add {v w : Nat} (a : BitVec v) (b : BitVec w) :
    (a ++ b).toNat = a.toNat * 2 ^ w + b.toNat := by
  rw [BitVec.toNat_append, ← Nat.shiftLeft_add_eq_or_of_lt b.isLt, Nat.shiftLeft_eq]

theorem xbCount_toNat (s : State) : s.xbCount.toNat = s.xbCnt.toNat := BitVec.toNat_setWidth_of_le (by decide)

theorem statusWord_toNat (s : State) : (statusWord s).toNat =
    s.res.valid.toNat + 2 * s.found.toNat + 4 * s.tx.valid.toNat + 8 * s.tx.evicted.toNat := by
  simp only [statusWord, State.resValid, State.txValid, State.txEvicted, toNat_append_eq_add, BitVec.toNat_ofBool,
    BitVec.toNat_ofNat]
  omega

theorem resTemp_toNat (r : Reading) : (resTemp r).toNat = r.temp.toNat + 256 * r.tempValid.toNat := by
  simp only [resTemp, toNat_append_eq_add, BitVec.toNat_ofBool, BitVec.toNat_ofNat]
  omega

theorem resMeta_toNat (r : Reading) : (resMeta r).toNat =
    (variantCode r.variant).toNat + 4 * (integrityCode r.integrity).toNat + 2 ^ 8 * r.mic.toNat +
      2 ^ 16 * r.diag.toNat + 2 ^ 24 * r.parityRx.toNat := by
  simp only [resMeta, toNat_append_eq_add, BitVec.toNat_ofNat]
  omega

/-- The addresses that answer no value are those R93 lists. -/
theorem csrRead_eq_none_iff (s : State) (a : Byte) : csrRead s a = none ↔ UnimplementedCsr a := by
  by_cases hq : 0x40 ≤ a.toNat
  · rw [csrRead_of_ge s hq, queueWindow_eq_none_iff]
    simp only [UnimplementedCsr, windowField]
    omega
  · simp only [UnimplementedCsr]
    unfold csrRead
    split
    case h_19 =>
      rw [if_neg hq]
      split_ifs
      case neg =>
        simp only [true_iff, imp_false] at *
        omega
      all_goals simp only [false_iff]; omega
    all_goals simp only [reduceCtorEq, false_iff]; omega

theorem toNat_ofNat_length {α : Type} {l : List α} {n : Nat} (h : l.length ≤ n) (hn : n < 2 ^ 32) :
    (BitVec.ofNat 32 l.length).toNat = l.length := by
  rw [BitVec.toNat_ofNat]
  omega

/-- What a CSR address shows; 0 where it is unimplemented. -/
def registerAt (s : State) (a : Nat) : Word := (csrRead s (BitVec.ofNat 8 a)).getD 0

theorem csrRead_eq_registerAt (s : State) {a : Nat} (h : ¬ UnimplementedCsr (BitVec.ofNat 8 a)) :
    csrRead s (BitVec.ofNat 8 a) = some (registerAt s a) := by
  obtain ⟨v, hv⟩ := Option.ne_none_iff_exists'.1 (mt (csrRead_eq_none_iff s _).1 h)
  simp [registerAt, hv]

/-- Settles O56: the register at each address, and its fields as a number; the lengths need the bounds of R36, R37
and R53. -/
theorem csrMapRegisters : Obligations.CsrMapRegisters := by
  rintro s ⟨⟨hfb, hmb⟩, _, _, _, ⟨hq, _⟩, _⟩
  exact ⟨registerAt s, fun a _ => csrRead_eq_registerAt s,
    statusWord_toNat s,
    BitVec.toNat_setWidth_of_le (b := s.interval) (by decide),
    BitVec.toNat_setWidth_of_le (b := s.maxRetx) (by decide),
    toNat_ofNat_length hq (by decide),
    toNat_ofNat_length hfb (by decide),
    toNat_ofNat_length hmb (by decide),
    xbCount_toNat s,
    BitVec.toNat_setWidth_of_le (b := s.acc) (by decide),
    BitVec.toNat_setWidth_of_le (b := s.pos) (by decide),
    rfl, rfl, rfl,
    BitVec.toNat_setWidth_of_le (b := s.res.press) (by decide),
    resTemp_toNat s.res,
    resMeta_toNat s.res,
    rfl,
    BitVec.setWidth_eq s.tx.next,
    BitVec.toNat_setWidth_of_le (b := s.tx.count) (by decide)⟩

end Sys2Proof.Machine
end

section
/-! PROOFS of the family 30_encoding.md (1): command words. Reading the fields of a word and writing them back is
the same word, format by format; the opcode map's rows are the arms of the decoder (R111, R113, R114). -/

namespace Sys2Proof

/-! ## A word that a format reads is the word of its fields -/

section Formats

variable {w : Word} {op : Byte} {i : Instr}

theorem eq_wordZ_of_formatZ {f : Instr} (ho : opcodeOf w = op) (h : formatZ w f = .ok i) : i = f ∧ wordZ op = w := by
  unfold formatZ at h
  split at h
  · cases h
    refine ⟨rfl, BitVec.eq_of_toNat_eq ?_⟩
    rw [wordZ_toNat, word_split w, ho]
    have hz := (field_eq_iff w 0#24).1 ‹_›
    simp only [BitVec.toNat_ofNat] at hz
    omega
  · cases h

theorem eq_wordP_of_formatP {f : BitVec 4 → Byte → Instr} (ho : opcodeOf w = op) (h : formatP w f = .ok i) :
    ∃ n d, i = f n d ∧ wordP op n d = w := by
  unfold formatP at h
  split at h
  · cases h
    refine ⟨_, _, rfl, BitVec.eq_of_toNat_eq ?_⟩
    rw [wordP_toNat, word_split w, ho]
    have hz := (field_eq_iff w 0#12).1 ‹_›
    simp only [BitVec.toNat_ofNat, BitVec.extractLsb'_toNat, Nat.shiftRight_eq_div_pow] at hz ⊢
    omega
  · cases h

theorem eq_wordX_of_formatX {f : BitVec 12 → BitVec 12 → Instr} (ho : opcodeOf w = op) (h : formatX w f = .ok i) :
    ∃ hi lo, i = f hi lo ∧ wordX op hi lo = w := by
  cases h
  refine ⟨_, _, rfl, BitVec.eq_of_toNat_eq ?_⟩
  rw [wordX_toNat, word_split w, ho]
  simp only [BitVec.extractLsb'_toNat, Nat.shiftRight_eq_div_pow]
  omega

theorem eq_wordT_of_formatT {f : Byte → Byte → Byte → Instr} (ho : opcodeOf w = op) (h : formatT w f = .ok i) :
    ∃ a b c, i = f a b c ∧ wordT op a b c = w := by
  cases h
  refine ⟨_, _, _, rfl, BitVec.eq_of_toNat_eq ?_⟩
  rw [wordT_toNat, word_split w, ho]
  simp only [BitVec.extractLsb'_toNat, Nat.shiftRight_eq_div_pow]
  omega

theorem eq_wordC_of_formatC {f : Byte → Instr} (ho : opcodeOf w = op) (h : formatC w f = .ok i) :
    ∃ a, i = f a ∧ wordC op a = w := by
  unfold formatC at h
  split at h
  · cases h
    refine ⟨_, rfl, BitVec.eq_of_toNat_eq ?_⟩
    rw [wordC_toNat, word_split w, ho]
    have hz := (field_eq_iff w 0#16).1 ‹_›
    simp only [BitVec.toNat_ofNat, BitVec.extractLsb'_toNat, Nat.shiftRight_eq_div_pow] at hz ⊢
    omega
  · cases h

theorem eq_wordW_of_formatW {f : Byte → BitVec 16 → Instr} (ho : opcodeOf w = op) (h : formatW w f = .ok i) :
    ∃ a imm, i = f a imm ∧ wordW op a imm = w := by
  cases h
  refine ⟨_, _, rfl, BitVec.eq_of_toNat_eq ?_⟩
  rw [wordW_toNat, word_split w, ho]
  simp only [BitVec.extractLsb'_toNat, Nat.shiftRight_eq_div_pow]
  omega

end Formats

/-! ## Encoding and decoding -/

/-- The word of a command decodes to the command, by its format. -/
theorem decode_encode (i : Instr) : decode (encode i) = .ok i := by
  cases i with
  | fbclr | decc | decx | decm | disp | qadd | qdue | qsize => simp [encode, decode, formatZ_wordZ]
  | fbpush => simp [encode, decode, formatP_wordP]
  | extf | extm | mand | mandi => simp [encode, decode, formatX_wordX]
  | crc8 | findp => simp [encode, decode, formatT_wordT]
  | cksum | xorf | csrr => simp [encode, decode, formatC_wordC]
  | csrw => simp [encode, decode, formatW_wordW]

/-- A word that decodes is the word of its command, by the format of the decoder's arm. -/
theorem encode_of_decode {w : Word} {i : Instr} (h : decode w = .ok i) : encode i = w := by
  unfold decode at h
  split at h
  -- Format Z
  case h_1 ho | h_11 ho | h_12 ho | h_13 ho | h_14 ho | h_15 ho | h_16 ho | h_17 ho =>
    obtain ⟨rfl, hw⟩ := eq_wordZ_of_formatZ ho h
    exact hw
  -- Format P
  case h_2 ho =>
    obtain ⟨n, d, rfl, hw⟩ := eq_wordP_of_formatP ho h
    exact hw
  -- Format X
  case h_3 ho | h_4 ho | h_9 ho | h_10 ho =>
    obtain ⟨hi, lo, rfl, hw⟩ := eq_wordX_of_formatX ho h
    exact hw
  -- Format T
  case h_5 ho | h_8 ho =>
    obtain ⟨a, b, c, rfl, hw⟩ := eq_wordT_of_formatT ho h
    exact hw
  -- Format C
  case h_6 ho | h_7 ho | h_18 ho =>
    obtain ⟨a, rfl, hw⟩ := eq_wordC_of_formatC ho h
    exact hw
  -- Format W
  case h_19 ho =>
    obtain ⟨a, imm, rfl, hw⟩ := eq_wordW_of_formatW ho h
    exact hw
  -- No opcode of the map
  case h_20 => cases h

/-- Settles O2: every format reads back the fields of its words. -/
theorem decodeOfEncode : Obligations.DecodeOfEncode := decode_encode

/-- Settles O3: every format reads only words made of the fields it reads. -/
theorem encodeOfDecode : Obligations.EncodeOfDecode := fun _ _ => encode_of_decode

/-- Settles O1: the legal words are those of their commands; of the other two, one has a must-be-zero bit set and
one an opcode that is not in the map. -/
theorem specWordsDecode : Obligations.SpecWordsDecode :=
  ⟨decode_encode (.fbpush 8 0xAF), decode_encode (.extf 64 4), decode_encode (.crc8 7 0x07 0xF0),
    decode_encode (.findp 0xA5 0x3C 161), decode_encode (.mandi 36 39), decode_encode .disp, decode_encode .qdue,
    decode_encode (.csrr 0x1A), decode_encode (.csrw 0x02 0x01FF), rfl, rfl⟩

/-! ## The opcode map -/

/-- The word of a command is in the row with its mnemonic, and in no other (R113). -/
theorem matches_encode_iff {r : OpcodeRow} (hr : r ∈ opcodeRows) (i : Instr) :
    r.Matches (encode i) = true ↔ r.mnemonic = mnemonicOf i := by
  open Laws.EncodeMatchesRow in
  cases i with
  | fbclr => exact fbclr r hr
  | fbpush n d => exact fbpush n d r hr
  | extf cnt off => exact extf cnt off r hr
  | extm cnt off => exact extm cnt off r hr
  | crc8 count poly init => exact crc8 count poly init r hr
  | cksum count => exact cksum count r hr
  | xorf count => exact xorf count r hr
  | findp hi lo win => exact findp hi lo win r hr
  | mand pre nout => exact mand pre nout r hr
  | mandi pre nout => exact mandi pre nout r hr
  | decc => exact decc r hr
  | decx => exact decx r hr
  | decm => exact decm r hr
  | disp => exact disp r hr
  | qadd => exact qadd r hr
  | qdue => exact qdue r hr
  | qsize => exact qsize r hr
  | csrr a => exact csrr a r hr
  | csrw a imm => exact csrw a imm r hr

/-- Every command has its row. -/
theorem exists_row_of_instr (i : Instr) : ∃ r ∈ opcodeRows, r.mnemonic = mnemonicOf i := by
  cases i <;> simp [opcodeRows, mnemonicOf]

/-- A word that decodes matches the rows with its command's mnemonic. -/
theorem matches_iff_of_decode {w : Word} {i : Instr} (h : decode w = .ok i) {r : OpcodeRow} (hr : r ∈ opcodeRows) :
    r.Matches w = true ↔ r.mnemonic = mnemonicOf i := by
  rw [← encode_of_decode h]
  exact matches_encode_iff hr i

/-- No two rows have one opcode (R114). -/
theorem row_eq_of_opcode_eq :
    ∀ r ∈ opcodeRows, ∀ r' ∈ opcodeRows, opcodeOf r.pattern = opcodeOf r'.pattern → r = r' := by decide

/-- A word that matches a row is decoded: the row's opcode selects an arm of the decoder, and the row's
must-be-zero field is all that arm's format asks for. -/
theorem exists_decode_of_matches {w : Word} {r : OpcodeRow} (hr : r ∈ opcodeRows) (h : r.Matches w = true) :
    ∃ i, decode w = .ok i := by
  obtain ⟨ho, hz⟩ := (opcodeRow_matches_iff hr w).1 h
  fin_cases hr <;> simp_all [opcodeOf, decode, formatZ, formatP, formatX, formatT, formatC, formatW]

/-- A word is refused exactly when it matches no row (R120). -/
theorem decode_error_iff (w : Word) : (∃ e, decode w = .error e) ↔ ∀ r ∈ opcodeRows, r.Matches w = false := by
  constructor
  · rintro ⟨e, he⟩ r hr
    by_contra hm
    obtain ⟨i, hi⟩ := exists_decode_of_matches hr (by simpa using hm)
    cases he.symm.trans hi
  · intro hno
    cases hd : decode w with
    | error e => exact ⟨e, rfl⟩
    | ok i =>
      obtain ⟨r, hr, hi⟩ := exists_row_of_instr i
      cases (hno r hr).symm.trans ((matches_iff_of_decode hd hr).2 hi)

/-- Settles O4: the rows' opcodes differ, a row's word is decoded, and a decoded word is its command's. -/
theorem decodingFollowsOpcodeMap : Obligations.DecodingFollowsOpcodeMap := by
  refine fun w => ⟨fun r hr r' hr' h h' => ?_, fun r hr h => ?_, decode_error_iff w⟩
  · have ho := ((opcodeRow_matches_iff hr w).1 h).1
    have ho' := ((opcodeRow_matches_iff hr' w).1 h').1
    exact row_eq_of_opcode_eq r hr r' hr' (ho.symm.trans ho')
  · obtain ⟨i, hi⟩ := exists_decode_of_matches hr h
    exact ⟨i, hi, ((matches_iff_of_decode hi hr).1 h).symm⟩

end Sys2Proof

namespace Sys2Proof.Machine

/-- Settles O7: a word that matches no row is refused, and a refused word is answered with ILLEGAL_CMD. -/
theorem illegalWordChangesNothing : Obligations.IllegalWordChangesNothing := by
  intro s p rest hi hr hv hn hno
  obtain ⟨e, he⟩ := (decode_error_iff p.cmd).2 hno
  rw [step_of_offer hi hr hv hn]
  rcases accept_cases (nextSample s rest) p.cmd p.now with ⟨i, hd, _⟩ | ⟨_, _, ha⟩
  · cases he.symm.trans hd
  · exact ⟨ha, rfl⟩

end Sys2Proof.Machine
end

section
/-! PROOFS of the family 30_encoding.md (2): the lines of the assembler that stand for one command (R140). -/

namespace Sys2Proof

/-! ## Words from operands that fit their fields -/

theorem wordP_ofNat_toNat (op : Byte) {n d : Nat} (hn : n ≤ 15) (hd : d ≤ 255) :
    (wordP op (BitVec.ofNat 4 n) (BitVec.ofNat 8 d)).toNat = op.toNat * 0x1000000 + n * 0x100 + d := by
  rw [wordP_toNat, BitVec.toNat_ofNat, BitVec.toNat_ofNat]
  omega

theorem wordX_ofNat_toNat (op : Byte) {hi lo : Nat} (hh : hi ≤ 4095) (hl : lo ≤ 4095) :
    (wordX op (BitVec.ofNat 12 hi) (BitVec.ofNat 12 lo)).toNat = op.toNat * 0x1000000 + hi * 0x1000 + lo := by
  rw [wordX_toNat, BitVec.toNat_ofNat, BitVec.toNat_ofNat]
  omega

theorem wordT_ofNat_toNat (op : Byte) {a b c : Nat} (ha : a ≤ 255) (hb : b ≤ 255) (hc : c ≤ 255) :
    (wordT op (BitVec.ofNat 8 a) (BitVec.ofNat 8 b) (BitVec.ofNat 8 c)).toNat =
      op.toNat * 0x1000000 + a * 0x10000 + b * 0x100 + c := by
  rw [wordT_toNat, BitVec.toNat_ofNat, BitVec.toNat_ofNat, BitVec.toNat_ofNat]
  omega

theorem wordC_ofNat_toNat (op : Byte) {a : Nat} (ha : a ≤ 255) :
    (wordC op (BitVec.ofNat 8 a)).toNat = op.toNat * 0x1000000 + a * 0x10000 := by
  rw [wordC_toNat, BitVec.toNat_ofNat]
  omega

theorem wordW_ofNat_toNat (op : Byte) {a imm : Nat} (ha : a ≤ 255) (hi : imm ≤ 65535) :
    (wordW op (BitVec.ofNat 8 a) (BitVec.ofNat 16 imm)).toNat = op.toNat * 0x1000000 + a * 0x10000 + imm := by
  rw [wordW_toNat, BitVec.toNat_ofNat, BitVec.toNat_ofNat]
  omega

end Sys2Proof

namespace Sys2Proof.Machine

/-! ## Lines -/

theorem assemble_of_wellFormed {l : AsmLine} (h : l.wellFormed = true) : assemble l = some (expand l) := by
  simp [assemble, h]

/-- A line is an assembly error exactly when an operand does not fit (R140). -/
theorem assemble_eq_none_iff (l : AsmLine) : assemble l = none ↔ l.wellFormed = false := by
  simp [assemble]

/-- A well-formed line of one command assembles to that command's word. -/
theorem words_of_assemble {l : AsmLine} {i : Instr} {x : Nat} (he : expand l = [i]) (hw : (encode i).toNat = x)
    (h : l.wellFormed = true) : (assemble l).map (List.map fun i => (encode i).toNat) = some [x] := by
  simp [assemble_of_wellFormed h, he, hw]

/-- Settles O5: the operands of a well-formed line are the fields of its word, and no other line has a word. -/
theorem assemblerFormulas : Obligations.AssemblerFormulas := by
  refine ⟨fun n d hn hd => ?_, fun cnt off hc ho => ?_, fun a b c ha hb hc => ?_, fun a ha => ?_,
    fun a v ha hv => ?_, fun n d h => ?_, fun cnt off h => ?_, fun a b c h => ?_, fun a h => ?_, fun a v h => ?_⟩
  · exact words_of_assemble rfl (wordP_ofNat_toNat 0x02 hn hd) (by simp [AsmLine.wellFormed, hn, hd])
  · have hw : (decide (cnt ≤ 4095) && decide (off ≤ 4095)) = true := by simp [hc, ho]
    exact ⟨words_of_assemble rfl (wordX_ofNat_toNat 0x10 hc ho) hw,
      words_of_assemble rfl (wordX_ofNat_toNat 0x11 hc ho) hw,
      words_of_assemble rfl (wordX_ofNat_toNat 0x16 hc ho) hw,
      words_of_assemble rfl (wordX_ofNat_toNat 0x17 hc ho) hw⟩
  · have hw : (decide (a ≤ 255) && decide (b ≤ 255) && decide (c ≤ 255)) = true := by simp [ha, hb, hc]
    exact ⟨words_of_assemble rfl (wordT_ofNat_toNat 0x12 ha hb hc) hw,
      words_of_assemble rfl (wordT_ofNat_toNat 0x15 ha hb hc) hw⟩
  · have hw : decide (a ≤ 255) = true := by simp [ha]
    exact ⟨words_of_assemble rfl (wordC_ofNat_toNat 0x13 ha) hw,
      words_of_assemble rfl (wordC_ofNat_toNat 0x14 ha) hw,
      words_of_assemble rfl (wordC_ofNat_toNat 0x40 ha) hw⟩
  · exact words_of_assemble rfl (wordW_ofNat_toNat 0x41 ha hv) (by simp [AsmLine.wellFormed, ha, hv])
  all_goals
    simp only [assemble_eq_none_iff, AsmLine.wellFormed, Bool.and_eq_false_iff, decide_eq_false_iff_not, not_le]
    omega

end Sys2Proof.Machine
end

section
/-! PROOFS of the family 30_encoding.md (3): FBLOAD (R141). A sequence of pushes appends the bits pushed, in order;
the pushes of FBLOAD push the bits of its string, eight at a time. -/

namespace Sys2Proof.Machine

/-! ## Sequences of pushes (40_frame_buffer.md R150) -/

/-- The bits that pushes of (count, byte) pairs append, in order. -/
def pushedBits (pushes : List (BitVec 4 × Byte)) : List Bool := pushes.flatMap fun p => pushBits p.1.toNat p.2

@[simp] theorem pushedBits_nil : pushedBits [] = [] := rfl

@[simp] theorem pushedBits_cons (p : BitVec 4 × Byte) (pushes : List (BitVec 4 × Byte)) :
    pushedBits (p :: pushes) = pushBits p.1.toNat p.2 ++ pushedBits pushes := rfl

/-- What FBCLR or a successful FBPUSH leaves: `bits` in FB, and (OK, their number) answered (R151, R152). -/
def loaded (s : State) (bits : List Bool) : State := respond (s.setFb bits) .ok (BitVec.ofNat 32 bits.length)

theorem exec_fbclr_eq_loaded (s : State) : exec .fbclr s = .next (loaded s []) := rfl

/-- A legal push that fits appends its bits (R152). -/
theorem exec_fbpush_loaded (s : State) (f : List Bool) (n : BitVec 4) (d : Byte) (hn : 1 ≤ n.toNat ∧ n.toNat ≤ 8)
    (hfit : f.length + n.toNat ≤ 256) :
    exec (.fbpush n d) (loaded s f) = .next (loaded s (f ++ pushBits n.toNat d)) := by
  rcases execFbpush_cases (loaded s f) n d with ⟨_, e⟩ | ⟨hnot, _⟩
  · have hlen : (pushBits n.toNat d).length = n.toNat := by simp [hn.2]
    simp only [loaded, List.length_append, hlen]
    exact e
  · exact absurd ⟨hn.1, hn.2, hfit⟩ hnot

/-- Legal pushes that fit append their bits, one after the other. -/
theorem execAll_pushes (s : State) (pushes : List (BitVec 4 × Byte)) (f : List Bool)
    (hlegal : ∀ p ∈ pushes, 1 ≤ p.1.toNat ∧ p.1.toNat ≤ 8) (hfit : (f ++ pushedBits pushes).length ≤ 256) :
    execAll (loaded s f) (pushes.map fun p => .fbpush p.1 p.2) = .next (loaded s (f ++ pushedBits pushes)) := by
  induction pushes generalizing f with
  | nil => simp [execAll]
  | cons p pushes ih =>
    obtain ⟨hp, hrest⟩ := List.forall_mem_cons.1 hlegal
    rw [pushedBits_cons, ← List.append_assoc] at hfit ⊢
    have hpush := exec_fbpush_loaded s f p.1 p.2 hp (by simp at hfit; omega)
    rw [List.map_cons, execAll_cons _ _ hpush, ih _ hrest hfit]

/-! ## The string of digits -/

/-- The bits of a string from its `i`-th digit on. -/
theorem drop_flatMap_fieldBits {w : Nat} (l : List (BitVec w)) (i : Nat) :
    (l.flatMap fieldBits).drop (w * i) = (l.drop i).flatMap fieldBits := by
  induction l generalizing i with
  | nil => simp
  | cons x l ih =>
    cases i with
    | zero => simp
    | succ i =>
      rw [List.flatMap_cons, Nat.mul_succ, Nat.add_comm, List.drop_drop.symm, List.drop_left' (fieldBits_length x),
        ih, List.drop_succ_cons]

theorem digitByte_eq_drop (digits : List (BitVec 4)) (j : Nat) :
    digitByte digits j = digitByte (digits.drop (2 * j)) 0 := by
  simp [digitByte, List.getD_eq_getElem?_getD]

/-- The first byte of a string holds its first eight bits, as far as there are any. -/
theorem byteBits_digitByte_zero_take (digits : List (BitVec 4)) {m : Nat} (hm : m ≤ 8) (hl : m ≤ 4 * digits.length) :
    (byteBits (digitByte digits 0)).take m = (digits.flatMap fieldBits).take m := by
  rw [byteBits_eq_fieldBits, digitByte, fieldBits_append]
  match digits with
  | [] =>
    obtain rfl : m = 0 := by simpa using hl
    rfl
  | [x] =>
    rw [List.take_append_of_le_length (by simpa using hl)]
    simp
  | x :: y :: rest =>
    have hxy : m ≤ (fieldBits x ++ fieldBits y).length := by simpa using hm
    rw [List.flatMap_cons, List.flatMap_cons, ← List.append_assoc, List.take_append_of_le_length hxy]
    rfl

/-- The top bits of a byte survive the clearing of the bits below them (R141). -/
theorem pushBits_keepTop {m : Nat} (hm : m ≤ 8) (d : Byte) : pushBits m (keepTop m d) = (byteBits d).take m := by
  apply List.ext_getElem (by simp [pushBits])
  intro t h1 h2
  have ht : t < m := by simp at h1; omega
  simp [pushBits, byteBits, keepTop, show 7 - t < 8 by omega, show 8 - m ≤ 7 - t by omega,
    show 8 - m + (7 - t - (8 - m)) = 7 - t by omega]

/-- The `j`-th push of FBLOAD: up to eight bits of the string from bit `8 j` on, the rest of the byte cleared. -/
def loadPush (n : Nat) (digits : List (BitVec 4)) (j : Nat) : BitVec 4 × Byte :=
  (BitVec.ofNat 4 (min 8 (n - 8 * j)), keepTop (min 8 (n - 8 * j)) (digitByte digits j))

theorem loadPushes_eq_map (n : Nat) (digits : List (BitVec 4)) :
    loadPushes n digits =
      ((List.range ((n + 7) / 8)).map (loadPush n digits)).map fun p => .fbpush p.1 p.2 := by
  simp [loadPushes, loadPush]

theorem loadPush_count (n : Nat) (digits : List (BitVec 4)) (j : Nat) :
    (loadPush n digits j).1.toNat = min 8 (n - 8 * j) := by
  simp only [loadPush, BitVec.toNat_ofNat]
  omega

/-- The `j`-th push pushes the string's bits from bit `8 j` on. -/
theorem pushBits_loadPush {n : Nat} {digits : List (BitVec 4)} (hn : n ≤ 4 * digits.length) (j : Nat) :
    pushBits (loadPush n digits j).1.toNat (loadPush n digits j).2 =
      slice (digits.flatMap fieldBits) (8 * j) (min 8 (n - 8 * j)) := by
  have hlen : min 8 (n - 8 * j) ≤ 4 * (digits.drop (2 * j)).length := by
    rw [List.length_drop]
    omega
  rw [loadPush_count, loadPush, pushBits_keepTop (by omega), digitByte_eq_drop,
    byteBits_digitByte_zero_take _ (by omega) hlen, ← drop_flatMap_fieldBits, slice,
    show 4 * (2 * j) = 8 * j by omega]

/-- A sequence cut into pieces of eight, the last one shorter. -/
theorem flatMap_slice_eq_take (f : List Bool) (n k : Nat) :
    (List.range k).flatMap (fun j => slice f (8 * j) (min 8 (n - 8 * j))) = f.take (min n (8 * k)) := by
  induction k with
  | zero => simp
  | succ k ih =>
    rw [List.range_succ, List.flatMap_append, ih, List.flatMap_singleton, slice]
    by_cases h : 8 * k ≤ n
    · rw [show min n (8 * k) = 8 * k by omega, ← List.take_add,
        show 8 * k + min 8 (n - 8 * k) = min n (8 * (k + 1)) by omega]
    · rw [show n - 8 * k = 0 by omega, show min n (8 * (k + 1)) = min n (8 * k) by omega]
      simp

/-- The pushes of FBLOAD push the first `n` bits of its string. -/
theorem pushedBits_loadPush {n : Nat} {digits : List (BitVec 4)} (hn : n ≤ 4 * digits.length) :
    pushedBits ((List.range ((n + 7) / 8)).map (loadPush n digits)) = (digits.flatMap fieldBits).take n := by
  rw [pushedBits, List.flatMap_map]
  simp only [pushBits_loadPush hn]
  rw [flatMap_slice_eq_take, show min n (8 * ((n + 7) / 8)) = n by omega]

/-- Settles O23: FBCLR and the pushes of the string's bits. -/
theorem fbloadLoadsDigits : Obligations.FbloadLoadsDigits := by
  intro n digits s hn hmax
  have hlegal : ∀ p ∈ (List.range ((n + 7) / 8)).map (loadPush n digits), 1 ≤ p.1.toNat ∧ p.1.toNat ≤ 8 := by
    simp only [List.mem_map, List.mem_range]
    rintro _ ⟨j, hj, rfl⟩
    rw [loadPush_count]
    omega
  have hrun := execAll_pushes s _ [] hlegal (by simp [pushedBits_loadPush hn]; omega)
  rw [List.nil_append, pushedBits_loadPush hn, ← loadPushes_eq_map] at hrun
  exact ⟨_, _, assemble_of_wellFormed (by simpa [AsmLine.wellFormed] using hn),
    (execAll_cons s _ (exec_fbclr_eq_loaded s)).trans hrun, rfl, rfl⟩

end Sys2Proof.Machine
end

section
/-! PROOFS of the family 30_encoding.md (4): the outbound frame (R134). -/

namespace Sys2Proof.Machine

/-- A field of `k + 1` bytes is its top byte, then the field of the others. -/
theorem fieldBits_top_byte {n : Nat} (x : BitVec n) (k : Nat) :
    fieldBits (x.extractLsb' 0 (8 + 8 * k)) =
      byteBits (x.extractLsb' (8 * k) 8) ++ fieldBits (x.extractLsb' 0 (8 * k)) :=
  fieldBits_split x 0 _ 8 (8 * k) (8 * k) rfl (by omega)

/-- Settles O50: the flags and the id byte by byte. -/
theorem outboundFrameLayout : Obligations.OutboundFrameLayout := by
  intro e
  have hflags : fieldBits e.flags = byteBits (e.flags.extractLsb' 24 8) ++ (byteBits (e.flags.extractLsb' 16 8) ++
      (byteBits (e.flags.extractLsb' 8 8) ++ byteBits (e.flags.extractLsb' 0 8))) := by
    have h := fieldBits_top_byte e.flags 3
    rw [fieldBits_top_byte e.flags 2, fieldBits_top_byte e.flags 1] at h
    rwa [extractLsb'_whole] at h
  have hid : fieldBits (e.id.extractLsb' 0 24) = byteBits (e.id.extractLsb' 16 8) ++
      (byteBits (e.id.extractLsb' 8 8) ++ byteBits (e.id.extractLsb' 0 8)) := by
    have h := fieldBits_top_byte e.id 2
    rwa [fieldBits_top_byte e.id 1] at h
  have hzero : List.replicate 40 false = bitsOf [0, 0, 0, 0, 0] := by decide
  constructor
  · simp [outboundFrame]
  · rw [hflags, hid, hzero]
    simp only [outboundFrame, bitsOf_cons, bitsOf_nil, byteBits_eq_fieldBits, List.append_assoc, List.append_nil]

end Sys2Proof.Machine
end

section
/-! PROOFS of the family 40_frame_buffer.md: FBCLR and FBPUSH (R150 to R152). -/

namespace Sys2Proof.Machine

/-! ## The bits a push appends (30_encoding.md R112) -/

theorem pushBits_getD {n k : Nat} (hn : n ≤ 8) (hk : k < n) (d : Byte) :
    (pushBits n d).getD k false = d.getLsbD (7 - k) := by
  have hfield : (pushBits n d).getD k false = (fieldBits d).getD k false := by
    simp [pushBits, byteBits_eq_fieldBits, List.getD_eq_getElem?_getD, hk]
  rw [hfield, fieldBits_getD d k (by omega)]

/-- Legal pushes push as many bits as their counts say. -/
theorem pushedBits_length (pushes : List (BitVec 4 × Byte))
    (hlegal : ∀ p ∈ pushes, 1 ≤ p.1.toNat ∧ p.1.toNat ≤ 8) :
    (pushedBits pushes).length = (pushes.map fun p => p.1.toNat).sum := by
  induction pushes with
  | nil => rfl
  | cons p pushes ih =>
    obtain ⟨⟨_, hp⟩, hrest⟩ := List.forall_mem_cons.1 hlegal
    simp [ih hrest, hp]

/-! ## The window on an empty buffer (20_memory.md R90) -/

/-- Beyond the end of a sequence its window reads 0. -/
theorem bitWindow_eq_zero {f : List Bool} {w : Nat} (h : f.length ≤ 32 * w) : bitWindow f w = 0 := by
  apply BitVec.eq_of_getLsbD_eq
  intro i hi
  have hbit := bitWindow_getLsbD f w (t := 31 - i) (by omega)
  rw [show 31 - (31 - i) = i by omega, List.getD_eq_default _ _ (by omega)] at hbit
  rw [hbit]
  simp

/-! ## The obligations on the frame buffer -/

/-- Settles O21: the word is FBPUSH's own; either the count is legal and the bits fit, or the push is refused. -/
theorem fbpushAppendsTopBits : Obligations.FbpushAppendsTopBits := by
  intro n d s
  refine ⟨decode_encode (.fbpush n d), fun hfit => ?_, fun hbad => ?_⟩
  · rcases execFbpush_cases s n d with ⟨⟨_, hn, _⟩, happend⟩ | ⟨hnot, _⟩
    · exact ⟨pushBits n.toNat d, by simp [hn], fun k hk => pushBits_getD hn hk d, happend⟩
    · exact absurd hfit hnot
  · rcases execFbpush_cases s n d with ⟨hfit, _⟩ | ⟨_, hrefuse⟩
    · omega
    · exact hrefuse

/-- Settles O22: FBCLR leaves the empty frame, and the pushes append their bits to it one after the other. -/
theorem anySplitLoadsTheFrame : Obligations.AnySplitLoadsTheFrame := by
  intro pushes s hlegal hsum
  have hpushes := execAll_pushes s pushes [] hlegal (by rwa [List.nil_append, pushedBits_length pushes hlegal])
  exact ⟨_, (execAll_cons s _ (exec_fbclr_eq_loaded s)).trans hpushes, rfl, rfl⟩

/-- Settles O20: FBCLR leaves the empty frame, whose length and window read 0. -/
theorem fbclrEmptiesFrame : Obligations.FbclrEmptiesFrame := by
  refine ⟨decode_encode .fbclr, fun s => ⟨loaded s [], exec_fbclr_eq_loaded s, rfl, rfl, fun w hw => ?_⟩⟩
  rw [csrRead_fbWindow _ hw]
  exact congrArg some (bitWindow_eq_zero (Nat.zero_le _))

end Sys2Proof.Machine
end

section
/-! PROOFS of the family 41_bit_utilities.md (1): what EXTF, EXTM, CRC8, CKSUM and XORF put into XB and ACC
(R160 to R174). -/

namespace Sys2Proof.Machine

/-! ## Bit ranges into XB (R160 to R163) -/

/-- XB_CNT as a response's datum, after a write of at most thirty-two bytes. -/
theorem setXb_xbCount (s : State) {bytes : List Byte} (h : bytes.length ≤ 32) :
    (s.setXb bytes).xbCount = BitVec.ofNat 32 bytes.length := by
  rw [State.xbCount, ← BitVec.ofNat_toNat, setXb_xbCnt_toNat s bytes h]

/-- A range inside a buffer that is no longer than XB: its bits, then zeros. -/
theorem extractIntoXb_of_fits (s : State) {src : List Bool} {off cnt : Nat} (hsrc : src.length ≤ 256)
    (hfit : off + cnt ≤ src.length) :
    ∃ t, extractIntoXb s src off cnt = .next t ∧ t.xb.length = 32 ∧ t.xbCnt.toNat = (cnt + 7) / 8 ∧
      (∀ k, (bitsOf t.xb).getD k false = if k < cnt then src.getD (off + k) false else false) ∧
      t = { s with xb := t.xb, xbCnt := t.xbCnt, rsp := some ⟨.ok, BitVec.ofNat 32 ((cnt + 7) / 8)⟩ } := by
  rcases extractIntoXb_cases s src off cnt with ⟨_, bytes, hbytes, hexec⟩ | ⟨hlong, _⟩
  · have hlen := length_of_extract hbytes
    have hroom : bytes.length ≤ 32 := by omega
    rw [setXb_xbCount s hroom, hlen] at hexec
    refine ⟨_, hexec, setXb_xb_length s bytes, (setXb_xbCnt_toNat s bytes hroom).trans hlen, fun k => ?_, rfl⟩
    exact (setXb_bits s bytes hroom k).trans (bits_of_extract hbytes k)
  · omega

/-- A range that ends beyond its buffer. -/
theorem extractIntoXb_of_too_long (s : State) {src : List Bool} {off cnt : Nat} (hlong : src.length < off + cnt) :
    extractIntoXb s src off cnt =
      .next { s with xb := List.replicate 32 0, xbCnt := 0, rsp := some ⟨.abortLength, 0⟩ } := by
  rcases extractIntoXb_cases s src off cnt with ⟨hfit, _⟩ | ⟨_, _, hexec⟩
  · omega
  · exact hexec

/-- Settles O24: both commands extract into XB, from FB and from MB, and both buffers fit XB. -/
theorem extractCopiesBits : Obligations.ExtractCopiesBits := by
  intro cnt off s hfb hmb
  refine ⟨decode_encode (.extf cnt off), decode_encode (.extm cnt off), ?_⟩
  rintro _ _ (⟨rfl, rfl⟩ | ⟨rfl, rfl⟩)
  · exact ⟨extractIntoXb_of_fits s hfb, extractIntoXb_of_too_long s⟩
  · exact ⟨extractIntoXb_of_fits s (hmb.trans (by decide)), extractIntoXb_of_too_long s⟩

/-! ## Byte functions into ACC (R167) -/

section IntoAcc

variable {s : State} {count : Nat} (f : List Byte → Nat → Byte)

theorem foldIntoAcc_of_le (h : count ≤ s.xbCnt.toNat) :
    foldIntoAcc s count f =
      .next { s with acc := f s.xb count, rsp := some ⟨.ok, BitVec.ofNat 32 (f s.xb count).toNat⟩ } := by
  rcases foldIntoAcc_cases s count f with ⟨_, hexec⟩ | ⟨hlong, _⟩
  · rw [BitVec.ofNat_toNat]
    exact hexec
  · omega

theorem foldIntoAcc_of_lt (h : s.xbCnt.toNat < count) :
    foldIntoAcc s count f = .next { s with acc := 0, rsp := some ⟨.abortLength, 0⟩ } := by
  rcases foldIntoAcc_cases s count f with ⟨hfit, _⟩ | ⟨_, hexec⟩
  · omega
  · exact hexec

end IntoAcc

/-- Settles O25: the register after `k` bytes is the CRC of the first `k` bytes. -/
theorem crc8FoldsBytes : Obligations.Crc8FoldsBytes := by
  intro poly init s
  exact ⟨fun count => decode_encode (.crc8 count poly init), fun k => crc8 s.xb k poly init, rfl,
    fun k hk => crc8_succ s.xb k poly init hk,
    fun count => ⟨fun hcnt _ => foldIntoAcc_of_le (fun B n => crc8 B n poly init) hcnt,
      foldIntoAcc_of_lt fun B n => crc8 B n poly init⟩⟩

/-- The checksum is the sum of the bytes modulo 256 (R170). -/
theorem checksum_toNat {B : List Byte} {count : Nat} (h : count ≤ B.length) :
    (checksum B count).toNat = (∑ j ∈ Finset.range count, (B.getD j 0).toNat) % 256 := by
  induction count with
  | zero => rfl
  | succ k ih => rw [checksum_succ_toNat B k h, ih (by omega), Finset.sum_range_succ, Nat.mod_add_mod]

/-- Settles O28: the value in ACC is the checksum. -/
theorem cksumSumsBytes : Obligations.CksumSumsBytes := by
  intro count s
  exact ⟨decode_encode (.cksum count),
    fun hcnt hlen => ⟨checksum s.xb count.toNat, checksum_toNat hlen, foldIntoAcc_of_le checksum hcnt⟩,
    foldIntoAcc_of_lt checksum⟩

/-- A count of members has the parity of its last one added to that of the others. -/
theorem odd_card_filter_range_succ (p : Nat → Bool) (n : Nat) :
    decide (((Finset.range (n + 1)).filter fun j => p j = true).card % 2 = 1) =
      (decide (((Finset.range n).filter fun j => p j = true).card % 2 = 1) ^^ p n) := by
  rw [Finset.range_add_one, Finset.filter_insert]
  cases hp : p n with
  | false => simp
  | true =>
    rw [if_pos rfl, Finset.card_insert_of_notMem (by simp), Bool.xor_true, ← decide_not]
    exact decide_eq_decide.2 (by omega)

/-- Bit `i` of the XOR of the bytes is the parity of their bits `i` (R173). -/
theorem xorFold_getLsbD {B : List Byte} {count : Nat} (h : count ≤ B.length) (i : Nat) :
    (xorFold B count).getLsbD i =
      decide (((Finset.range count).filter fun j => (B.getD j 0).getLsbD i = true).card % 2 = 1) := by
  induction count with
  | zero => simp [xorFold]
  | succ k ih =>
    rw [xorFold_succ B k h, BitVec.getLsbD_xor, ih (by omega),
      odd_card_filter_range_succ fun j => (B.getD j 0).getLsbD i]

/-- Settles O29: the value in ACC is the XOR of the bytes. -/
theorem xorfFoldsParity : Obligations.XorfFoldsParity := by
  intro count s
  exact ⟨decode_encode (.xorf count),
    fun hcnt hlen => ⟨xorFold s.xb count.toNat, xorFold_getLsbD hlen, foldIntoAcc_of_le xorFold hcnt⟩,
    foldIntoAcc_of_lt xorFold⟩

end Sys2Proof.Machine
end

section
/-! PROOFS of the family 41_bit_utilities.md (2): which changes of the data the CRC shows (R168). -/

namespace Sys2Proof.Machine

/-- Two CRCs differ by what depends only on the difference of the data: the register is additive. -/
theorem crc8_xor_congr {B B' C C' : List Byte} (poly init : Byte) {k : Nat} (hB : k ≤ B.length)
    (hB' : k ≤ B'.length) (hC : k ≤ C.length) (hC' : k ≤ C'.length)
    (hdiff : ∀ j, B.getD j 0 ^^^ B'.getD j 0 = C.getD j 0 ^^^ C'.getD j 0) :
    crc8 B k poly init ^^^ crc8 B' k poly init = crc8 C k poly init ^^^ crc8 C' k poly init := by
  induction k with
  | zero => rfl
  | succ k ih =>
    rw [crc8_succ B k _ _ hB, crc8_succ B' k _ _ hB', crc8_succ C k _ _ hC, crc8_succ C' k _ _ hC',
      ← crcByte_xor, ← crcByte_xor, ih (by omega) (by omega) (by omega) (by omega), hdiff k]

/-- With a divisor whose constant term is 1, the register and the byte taken in are told apart by their
difference. -/
theorem crcByte_inj {poly c c' b b' : Byte} (hp : poly.getLsbD 0 = true)
    (h : crcByte poly c b = crcByte poly c' b') : c ^^^ c' = b ^^^ b' := by
  by_contra hne
  have hnz := crcByte_ne_zero hp hne
  rw [crcByte_xor, h, BitVec.xor_self] at hnz
  exact hnz rfl

/-- Registers that differ stay different whatever bytes follow. -/
theorem crcByte_foldl_injective {poly : Byte} (hp : poly.getLsbD 0 = true) (B : List Byte) :
    Function.Injective fun c => B.foldl (crcByte poly) c := by
  induction B with
  | nil => exact Function.injective_id
  | cons b B ih =>
    intro c c' h
    have hbyte : crcByte poly c b = crcByte poly c' b := ih h
    have hdiff := crcByte_inj hp hbyte
    rwa [BitVec.xor_self, BitVec.xor_eq_zero_iff] at hdiff

theorem crc8_length (B : List Byte) (poly init : Byte) :
    crc8 B B.length poly init = B.foldl (crcByte poly) init := by
  rw [crc8, List.take_length]

/-- A change of one byte changes the CRC. -/
theorem crc8_set_ne {poly : Byte} (hp : poly.getLsbD 0 = true) {B : List Byte} {j : Nat} (hj : j < B.length)
    {x : Byte} (hx : x ≠ B.getD j 0) (init : Byte) :
    crc8 (B.set j x) B.length poly init ≠ crc8 B B.length poly init := by
  intro h
  have hset : crc8 (B.set j x) B.length poly init = (B.set j x).foldl (crcByte poly) init := by
    rw [← crc8_length, List.length_set]
  have hsplit : B = B.take j ++ B.getD j 0 :: B.drop (j + 1) := by
    rw [List.getD_eq_getElem _ _ hj, List.cons_getElem_drop_succ, List.take_append_drop]
  rw [hset, crc8_length, List.set_eq_take_append_cons_drop, if_pos hj] at h
  conv_rhs at h => rw [hsplit]
  rw [List.foldl_append, List.foldl_append] at h
  have hdiff := crcByte_inj hp (crcByte_foldl_injective hp _ h)
  rw [BitVec.xor_self] at hdiff
  exact hx (BitVec.xor_eq_zero_iff.1 hdiff.symm)

/-- A flipped bit is a difference. -/
theorem xor_twoPow_ne {b : Byte} {k : Nat} (hk : k < 8) : b ^^^ BitVec.twoPow 8 k ≠ b := by
  intro h
  have hbit := congrArg (BitVec.getLsbD · k) h
  simp [hk] at hbit

/-- Settles O27: data and its CRC clear the register; the register is additive; a flipped bit of the data changes
one byte, and 0x07 is odd. -/
theorem crc8DetectsChanges : Obligations.Crc8DetectsChanges := by
  refine ⟨fun B p i => ?_, fun B B' C C' p i hB hC hC' hdiff => ?_, fun B i check j k hcheck hk => ?_⟩
  · rw [crc8_append, crcByte_self]
  · exact crc8_xor_congr p i le_rfl hB.le hC.le hC'.le hdiff
  · subst hcheck
    exact ⟨fun hj => crc8_set_ne (by decide) hj (xor_twoPow_ne hk) i, (xor_twoPow_ne hk).symm⟩

end Sys2Proof.Machine
end

section
/-! PROOFS of the family 41_bit_utilities.md (3): the CRC as a remainder over GF(2) (R166). A byte is a polynomial
of degree below 8; a step of the register is a multiplication by X modulo the divisor. -/

namespace Sys2Proof.Machine

open Polynomial

/-! ## Bytes as polynomials -/

/-- The polynomial whose coefficients are the bits of a byte. -/
noncomputable def bytePoly (b : Byte) : (ZMod 2)[X] := ∑ k ∈ Finset.range 8, if b.getLsbD k then X ^ k else 0

theorem bytePoly_coeff (b : Byte) (n : Nat) : (bytePoly b).coeff n = if b.getLsbD n then 1 else 0 := by
  have hterm : ∀ k, (if b.getLsbD k then X ^ k else 0 : (ZMod 2)[X]).coeff n =
      if n = k then (if b.getLsbD n then 1 else 0) else 0 := by
    intro k
    by_cases hk : n = k
    · subst hk
      cases b.getLsbD n <;> simp
    · cases b.getLsbD k <;> simp [coeff_X_pow, hk]
  rw [bytePoly, finsetSum_coeff, Finset.sum_congr rfl fun k _ => hterm k, Finset.sum_ite_eq]
  by_cases hn : n < 8
  · rw [if_pos (Finset.mem_range.2 hn)]
  · simp [hn, BitVec.getLsbD_of_ge b n (by omega)]

theorem bytePoly_xor (a b : Byte) : bytePoly (a ^^^ b) = bytePoly a + bytePoly b := by
  ext n
  rw [coeff_add, bytePoly_coeff, bytePoly_coeff, bytePoly_coeff, BitVec.getLsbD_xor]
  cases a.getLsbD n <;> cases b.getLsbD n <;> decide

theorem bytePoly_degree_lt (b : Byte) : (bytePoly b).degree < (8 : ℕ) := by
  rw [degree_lt_iff_coeff_zero]
  intro n hn
  simp [bytePoly_coeff, BitVec.getLsbD_of_ge b n hn]

/-- Shifting a byte left multiplies its polynomial by X, less the term shifted out. -/
theorem X_mul_bytePoly (c : Byte) :
    X * bytePoly c = bytePoly (c <<< 1) + if c.getLsbD 7 then X ^ 8 else 0 := by
  ext n
  cases n with
  | zero => cases c.getLsbD 7 <;> simp [bytePoly_coeff]
  | succ n =>
    have hout : (if c.getLsbD 7 then X ^ 8 else 0 : (ZMod 2)[X]).coeff (n + 1) =
        if n = 7 ∧ c.getLsbD 7 then 1 else 0 := by
      cases c.getLsbD 7 <;> simp [coeff_X_pow]
    rw [coeff_X_mul, coeff_add, bytePoly_coeff, bytePoly_coeff, hout, BitVec.getLsbD_shiftLeft]
    rcases lt_trichotomy n 7 with hn | rfl | hn
    · simp [show n + 1 < 8 by omega, hn.ne]
    · simp
    · simp [BitVec.getLsbD_of_ge c n hn, hn.ne', show ¬ n + 1 < 8 by omega]

/-! ## The register modulo the divisor -/

/-- The degree-8 divisor of which `poly` is the low 8 bits. -/
noncomputable def crcDivisor (poly : Byte) : (ZMod 2)[X] := X ^ 8 + bytePoly poly

theorem crcDivisor_monic (poly : Byte) : (crcDivisor poly).Monic := monic_X_pow_add (bytePoly_degree_lt poly)

theorem crcDivisor_degree (poly : Byte) : (crcDivisor poly).degree = (8 : ℕ) := by
  have hdeg : (bytePoly poly).degree < (X ^ 8 : (ZMod 2)[X]).degree := by
    rw [degree_X_pow]
    exact bytePoly_degree_lt poly
  rw [crcDivisor, degree_add_eq_left_of_degree_lt hdeg, degree_X_pow]

/-- A step subtracts the divisor when the term of degree 8 appears. -/
theorem X_mul_bytePoly_eq_crcShift (poly c : Byte) :
    X * bytePoly c = bytePoly (crcShift poly c) + if c.getLsbD 7 then crcDivisor poly else 0 := by
  rw [X_mul_bytePoly, crcShift, crcDivisor]
  split
  · rw [bytePoly_xor]
    linear_combination -CharTwo.add_self_eq_zero (bytePoly poly)
  · rfl

/-- The class of a polynomial modulo the divisor. -/
noncomputable abbrev crcClass (poly : Byte) : (ZMod 2)[X] →+* AdjoinRoot (crcDivisor poly) :=
  AdjoinRoot.mk (crcDivisor poly)

theorem crcClass_crcShift (poly c : Byte) :
    crcClass poly (bytePoly (crcShift poly c)) = crcClass poly (bytePoly c * X) := by
  rw [mul_comm, X_mul_bytePoly_eq_crcShift poly c, map_add]
  split
  · rw [AdjoinRoot.mk_self, add_zero]
  · rw [map_zero, add_zero]

theorem crcClass_crcShift_iterate (poly c : Byte) (n : Nat) :
    crcClass poly (bytePoly ((crcShift poly)^[n] c)) = crcClass poly (bytePoly c * X ^ n) := by
  induction n with
  | zero => simp
  | succ n ih => rw [Function.iterate_succ_apply', crcClass_crcShift, map_mul, ih, ← map_mul, mul_assoc, ← pow_succ]

/-- Taking in a byte adds it and multiplies by X^8. -/
theorem crcClass_crcByte (poly c b : Byte) :
    crcClass poly (bytePoly (crcByte poly c b)) = crcClass poly ((bytePoly c + bytePoly b) * X ^ 8) := by
  rw [crcByte, crcClass_crcShift_iterate, bytePoly_xor]

/-- The first `k` bytes of a message times X^8, the seed added to the first of them. -/
noncomputable def crcMessage (B : List Byte) (init : Byte) (k : Nat) : (ZMod 2)[X] :=
  bytePoly init * X ^ (8 * k) + ∑ j ∈ Finset.range k, bytePoly (B.getD j 0) * X ^ (8 * (k - j))

theorem crcMessage_succ (B : List Byte) (init : Byte) (k : Nat) :
    crcMessage B init (k + 1) = (crcMessage B init k + bytePoly (B.getD k 0)) * X ^ 8 := by
  have hshift : ∀ j ∈ Finset.range k, bytePoly (B.getD j 0) * X ^ (8 * (k + 1 - j)) =
      bytePoly (B.getD j 0) * X ^ (8 * (k - j)) * X ^ 8 := by
    intro j hj
    rw [Finset.mem_range] at hj
    rw [mul_assoc, ← pow_add, show 8 * (k + 1 - j) = 8 * (k - j) + 8 by omega]
  rw [crcMessage, crcMessage, Finset.sum_range_succ, Finset.sum_congr rfl hshift, ← Finset.sum_mul,
    Nat.add_sub_cancel_left, Nat.mul_succ, pow_add]
  ring

/-- The CRC is congruent to the message. -/
theorem crcClass_crc8 (B : List Byte) (poly init : Byte) {k : Nat} (hk : k ≤ B.length) :
    crcClass poly (bytePoly (crc8 B k poly init)) = crcClass poly (crcMessage B init k) := by
  induction k with
  | zero => simp [crc8, crcMessage]
  | succ k ih =>
    rw [crc8_succ B k poly init hk, crcClass_crcByte, map_mul, map_add, ih (by omega), ← map_add, ← map_mul,
      ← crcMessage_succ]

/-- Settles O26: the CRC is congruent to the message and of lower degree than the divisor. -/
theorem crc8IsPolynomialRemainder : Obligations.Crc8IsPolynomialRemainder := by
  intro B poly init
  show bytePoly (crc8 B B.length poly init) = crcMessage B init B.length %ₘ crcDivisor poly
  have hdeg : (bytePoly (crc8 B B.length poly init)).degree < (crcDivisor poly).degree := by
    rw [crcDivisor_degree]
    exact bytePoly_degree_lt _
  have hdvd := AdjoinRoot.mk_eq_mk.1 (crcClass_crc8 B poly init le_rfl)
  rw [← (modByMonic_eq_self_iff (crcDivisor_monic poly)).2 hdeg]
  exact modByMonic_eq_of_dvd_sub (crcDivisor_monic poly) hdvd

end Sys2Proof.Machine
end

section
/-! PROOFS of the family 42_pattern_manchester.md (1): FINDP finds the first window that is the marker (R190 to
R192). -/

namespace Sys2Proof.Machine

/-! ## Windows -/

/-- Bit `t` of a marker: the first byte, then the second, each from its bit 7. -/
theorem markerBits_getD (hi lo : Byte) {t : Nat} (ht : t < 16) :
    (markerBits hi lo).getD t false = if t < 8 then hi.getLsbD (7 - t) else lo.getLsbD (15 - t) := by
  rw [markerBits]
  split
  · rw [List.getD_append _ _ _ _ (by simpa), fieldBits_getD hi t (by omega)]
  · rw [List.getD_append_right _ _ _ _ (by simp; omega), fieldBits_length, fieldBits_getD lo _ (by omega),
      show 8 - 1 - (t - 8) = 15 - t by omega]

/-- Two sequences of one length are equal when their bits are. -/
theorem eq_of_getD_eq {a b : List Bool} (hlen : a.length = b.length)
    (hbit : ∀ t, t < a.length → a.getD t false = b.getD t false) : a = b := by
  refine List.ext_getElem hlen fun t ha hb => ?_
  rw [← List.getD_eq_getElem a false ha, ← List.getD_eq_getElem b false hb]
  exact hbit t ha

/-- A window is the marker exactly when it lies inside the frame and its bits are the marker's. -/
theorem slice_eq_markerBits_iff (f : List Bool) (hi lo : Byte) (k : Nat) :
    slice f k 16 = markerBits hi lo ↔ k + 16 ≤ f.length ∧
      ∀ t, t < 16 → f.getD (k + t) false = if t < 8 then hi.getLsbD (7 - t) else lo.getLsbD (15 - t) := by
  constructor
  · intro h
    refine ⟨((window_iff f hi lo k).2 h).1, fun t ht => ?_⟩
    rw [← slice_getD f k 16 t ht, h, markerBits_getD hi lo ht]
  · rintro ⟨hfit, hbits⟩
    have hlen : (slice f k 16).length = 16 := by rw [slice_length]; omega
    refine eq_of_getD_eq (by rw [hlen, markerBits_length]) fun t ht => ?_
    rw [hlen] at ht
    rw [slice_getD f k 16 t ht, hbits t ht, markerBits_getD hi lo ht]

/-! ## FINDP (R191) -/

section Findp

variable {s : State} {hi lo win : Byte}

/-- FINDP on a frame with a marker in the window: FOUND, and POS is where the first one stands. -/
theorem exec_findp_of_first {k : Nat} (hk : k < win.toNat) (hmark : slice s.fb k 16 = markerBits hi lo)
    (hfirst : ∀ j, j < k → slice s.fb j 16 ≠ markerBits hi lo) :
    exec (.findp hi lo win) s =
      .next { s with found := true, pos := BitVec.ofNat 8 k, rsp := some ⟨.ok, BitVec.ofNat 32 k⟩ } := by
  have hfind := (findPattern_eq_some_iff s.fb hi lo win.toNat k).2 ⟨hk, hmark, hfirst⟩
  rcases execFindp_cases s hi lo win with ⟨k', hk', hexec⟩ | ⟨hnone, _⟩
  · cases hfind.symm.trans hk'
    exact hexec
  · cases hfind.symm.trans hnone

/-- FINDP on a frame with no marker in the window. -/
theorem exec_findp_of_none (hno : ∀ k, k < win.toNat → slice s.fb k 16 ≠ markerBits hi lo) :
    exec (.findp hi lo win) s = .next { s with found := false, pos := 0, rsp := some ⟨.notFound, 0⟩ } := by
  have hfind := (findPattern_eq_none_iff s.fb hi lo win.toNat).2 hno
  rcases execFindp_cases s hi lo win with ⟨k, hsome, _⟩ | ⟨_, hexec⟩
  · cases hfind.symm.trans hsome
  · exact hexec

end Findp

/-- Settles O30: a hit is an offset below `win` whose window is the marker. -/
theorem findpReportsLeastOffset : Obligations.FindpReportsLeastOffset := by
  intro hi lo win s _
  refine ⟨decode_encode (.findp hi lo win), ?_⟩
  intro hit
  have hit_iff : ∀ k, hit k ↔ k < win.toNat ∧ slice s.fb k 16 = markerBits hi lo := fun k => by
    rw [slice_eq_markerBits_iff]
  simp only [hit_iff]
  constructor
  · rintro k ⟨hk, hmark⟩ hleast
    have hfirst : ∀ j, j < k → slice s.fb j 16 ≠ markerBits hi lo := fun j hj h => hleast j hj ⟨by omega, h⟩
    have hpos : (BitVec.ofNat 8 k).toNat = k := Nat.mod_eq_of_lt (hk.trans win.isLt)
    exact ⟨_, exec_findp_of_first hk hmark hfirst, hpos, rfl⟩
  · exact fun hno => exec_findp_of_none fun k hk h => hno k ⟨hk, h⟩

/-- Settles O31: an earlier window begins with a bit of the padding, which is not the marker's first bit. -/
theorem paddedMarkerFoundAtOffset : Obligations.PaddedMarkerFoundAtOffset := by
  intro hi lo win k tail s _ hk hone hfb
  refine exec_findp_of_first hk ?_ fun j hj h => ?_
  · rw [hfb]
    simpa using slice_append (List.replicate k false) (markerBits hi lo) tail
  · have hbit := ((slice_eq_markerBits_iff s.fb hi lo j).1 h).2 0 (by omega)
    rw [hfb, List.append_assoc, List.getD_append _ _ _ _ (by simpa), List.getD_replicate _ (by simpa)] at hbit
    exact absurd (hbit.trans hone) (by decide)

end Sys2Proof.Machine
end

section
/-! PROOFS of the family 42_pattern_manchester.md (2): MAND and MANDI. The outcome depends on which pairs of symbols
are legal, which a change of one symbol shows (R195 to R198). -/

namespace Sys2Proof.Machine

/-! ## Pairs of symbols (R195) -/

/-- The two symbols of pair `j` differ. -/
def PairDiffers (f : List Bool) (pre j : Nat) : Prop := f.getD (pre + 2 * j) false ≠ f.getD (pre + 2 * j + 1) false

/-- The bits of `n` legal pairs: the first symbol of each, inverted or not. -/
def firstSymbols (f : List Bool) (pre n : Nat) (inv : Bool) : List Bool :=
  (List.range n).map fun j => f.getD (pre + 2 * j) false ^^ inv

theorem pairLegal_iff (f : List Bool) (pre j : Nat) :
    pairLegal (symbolPair f pre j) = true ↔ PairDiffers f pre j := by
  simp [pairLegal, symbolPair, PairDiffers]

/-- By the base convention (1,0) stands for 1, so a pair's bit is its first symbol. -/
theorem pairBit_params (inv : Bool) (f : List Bool) (pre j : Nat) :
    pairBit Config.params inv (symbolPair f pre j) = (f.getD (pre + 2 * j) false ^^ inv) := by
  show ((f.getD (pre + 2 * j) false == true) != inv) = _
  rw [beq_true, Bool.bne_eq_xor]

@[simp] theorem firstSymbols_length (f : List Bool) (pre n : Nat) (inv : Bool) :
    (firstSymbols f pre n inv).length = n := by
  simp [firstSymbols]

theorem firstSymbols_getD (f : List Bool) (pre : Nat) (inv : Bool) {n j : Nat} (hj : j < n) :
    (firstSymbols f pre n inv).getD j false = (f.getD (pre + 2 * j) false ^^ inv) := by
  simp [firstSymbols, List.getD_eq_getElem?_getD, hj]

theorem firstSymbols_inverted (f : List Bool) (pre n : Nat) :
    firstSymbols f pre n true = (firstSymbols f pre n false).map not := by
  simp [firstSymbols]

/-! ## What MAND and MANDI leave and answer (R196) -/

/-- Everything a Manchester decode into MB can do, in the order of its checks. -/
theorem manchesterIntoMb_outcome (s : State) (pre n : Nat) (inv : Bool) :
    (s.fb.length < pre + 2 * n ∧
      manchesterIntoMb s pre n inv = .next { s with mb := [], rsp := some ⟨.abortLength, 0⟩ }) ∨
    (pre + 2 * n ≤ s.fb.length ∧ ∃ j, j < n ∧ ¬ PairDiffers s.fb pre j ∧ (∀ m, m < j → PairDiffers s.fb pre m) ∧
      manchesterIntoMb s pre n inv = .next { s with mb := [], rsp := some ⟨.manViolation, BitVec.ofNat 32 j⟩ }) ∨
    (pre + 2 * n ≤ s.fb.length ∧ (∀ j, j < n → PairDiffers s.fb pre j) ∧
      manchesterIntoMb s pre n inv =
        .next { s with mb := firstSymbols s.fb pre n inv, rsp := some ⟨.ok, BitVec.ofNat 32 n⟩ }) := by
  have hdecode := manDecode_cases Config.params s.fb pre n inv
  simp only [← Bool.not_eq_true, pairLegal_iff, pairBit_params] at hdecode
  rcases hdecode with ⟨hlong, h⟩ | ⟨hfit, j, hj, hbad, hfirst, h⟩ | ⟨hfit, hall, h⟩
  · exact .inl ⟨hlong, by rw [manchesterIntoMb, h]; rfl⟩
  · exact .inr (.inl ⟨hfit, j, hj, hbad, hfirst, by rw [manchesterIntoMb, h]; rfl⟩)
  · refine .inr (.inr ⟨hfit, hall, ?_⟩)
    have hlen : (s.setMb (firstSymbols s.fb pre n inv)).mbLen = BitVec.ofNat 32 n := by simp [State.mbLen]
    rw [← hlen, manchesterIntoMb, h]
    rfl

section Outcomes

variable {s : State} {pre n : Nat} (inv : Bool)

/-- The region ends beyond the frame. -/
theorem manchesterIntoMb_of_too_long (hlong : s.fb.length < pre + 2 * n) :
    manchesterIntoMb s pre n inv = .next { s with mb := [], rsp := some ⟨.abortLength, 0⟩ } := by
  rcases manchesterIntoMb_outcome s pre n inv with ⟨_, h⟩ | ⟨hfit, _⟩ | ⟨hfit, _⟩
  · exact h
  · omega
  · omega

/-- Pair `j` is the first illegal one. -/
theorem manchesterIntoMb_of_violation (hfit : pre + 2 * n ≤ s.fb.length) {j : Nat} (hj : j < n)
    (hbad : ¬ PairDiffers s.fb pre j) (hfirst : ∀ m, m < j → PairDiffers s.fb pre m) :
    manchesterIntoMb s pre n inv = .next { s with mb := [], rsp := some ⟨.manViolation, BitVec.ofNat 32 j⟩ } := by
  rcases manchesterIntoMb_outcome s pre n inv with ⟨hlong, _⟩ | ⟨_, k, _, hkbad, hkfirst, h⟩ | ⟨_, hall, _⟩
  · omega
  · rcases lt_trichotomy j k with hjk | rfl | hkj
    · exact absurd (hkfirst j hjk) hbad
    · exact h
    · exact absurd (hfirst k hkj) hkbad
  · exact absurd (hall j hj) hbad

/-- Every pair is legal. -/
theorem manchesterIntoMb_of_legal (hfit : pre + 2 * n ≤ s.fb.length) (hall : ∀ j, j < n → PairDiffers s.fb pre j) :
    manchesterIntoMb s pre n inv =
      .next { s with mb := firstSymbols s.fb pre n inv, rsp := some ⟨.ok, BitVec.ofNat 32 n⟩ } := by
  rcases manchesterIntoMb_outcome s pre n inv with ⟨hlong, _⟩ | ⟨_, j, hj, hbad, _⟩ | ⟨_, _, h⟩
  · omega
  · exact absurd (hall j hj) hbad
  · exact h

end Outcomes

theorem exec_mand (pre nout : BitVec 12) (s : State) :
    exec (.mand pre nout) s = manchesterIntoMb s pre.toNat nout.toNat false := rfl

theorem exec_mandi (pre nout : BitVec 12) (s : State) :
    exec (.mandi pre nout) s = manchesterIntoMb s pre.toNat nout.toNat true := rfl

/-- Settles O32: both commands decode into MB, in the one polarity and the other. -/
theorem manchesterDecodesPairs : Obligations.ManchesterDecodesPairs := by
  intro pre nout s
  refine ⟨decode_encode (.mand pre nout), decode_encode (.mandi pre nout), ?_⟩
  intro legal inv i hi
  have hexec : exec i s = manchesterIntoMb s pre.toNat nout.toNat inv := by
    rcases hi with ⟨rfl, rfl⟩ | ⟨rfl, rfl⟩
    · exact exec_mand pre nout s
    · exact exec_mandi pre nout s
  rw [hexec]
  exact ⟨manchesterIntoMb_of_too_long inv,
    fun hfit hall => ⟨firstSymbols s.fb pre.toNat nout.toNat inv, firstSymbols_length _ _ _ _,
      fun j hj => firstSymbols_getD _ _ _ hj, manchesterIntoMb_of_legal inv hfit hall⟩,
    fun hfit j hj hbad hfirst => manchesterIntoMb_of_violation inv hfit hj hbad hfirst⟩

/-- Settles O33: the outcome does not depend on the polarity, and the complement of an empty MB is empty. -/
theorem mandiComplementsMand : Obligations.MandiComplementsMand := by
  intro pre nout s
  rw [exec_mand, exec_mandi]
  rcases manchesterIntoMb_outcome s pre.toNat nout.toNat false with
    ⟨hlong, h⟩ | ⟨hfit, j, hj, hbad, hfirst, h⟩ | ⟨hfit, hall, h⟩
  · exact ⟨_, h, manchesterIntoMb_of_too_long true hlong⟩
  · exact ⟨_, h, manchesterIntoMb_of_violation true hfit hj hbad hfirst⟩
  · refine ⟨_, h, ?_⟩
    rw [← firstSymbols_inverted]
    exact manchesterIntoMb_of_legal true hfit hall

/-! ## Symbol errors (R198) -/

@[simp] theorem flipBit_length (f : List Bool) (b : Nat) : (flipBit f b).length = f.length := by simp [flipBit]

theorem flipBit_getD {f : List Bool} {b : Nat} (hb : b < f.length) (k : Nat) :
    (flipBit f b).getD k false = (f.getD k false ^^ decide (k = b)) := by
  by_cases hk : k = b
  · subst hk
    simp [flipBit, List.getD_eq_getElem?_getD, hb]
  · simp [flipBit, List.getD_eq_getElem?_getD, hk, Ne.symm hk]

/-- A decode that answers OK found the region inside the frame and every pair legal. -/
theorem manchesterIntoMb_ok {s t : State} {pre n : Nat} {inv : Bool} {d : Word}
    (h : manchesterIntoMb s pre n inv = .next t) (hok : t.rsp = some ⟨.ok, d⟩) :
    pre + 2 * n ≤ s.fb.length ∧ (∀ j, j < n → PairDiffers s.fb pre j) ∧
      t = { s with mb := firstSymbols s.fb pre n inv, rsp := some ⟨.ok, BitVec.ofNat 32 n⟩ } := by
  rcases manchesterIntoMb_outcome s pre n inv with ⟨_, hr⟩ | ⟨_, j, _, _, _, hr⟩ | ⟨hfit, hall, hr⟩
  · cases h.symm.trans hr
    simp at hok
  · cases h.symm.trans hr
    simp at hok
  · cases h.symm.trans hr
    exact ⟨hfit, hall, rfl⟩

/-- A flipped symbol makes its own pair legal or illegal, and no other pair. -/
theorem pairDiffers_flipBit_iff {f : List Bool} {pre b : Nat} (hpre : pre ≤ b) (hb : b < f.length) (m : Nat) :
    PairDiffers (flipBit f b) pre m ↔ (PairDiffers f pre m ↔ m ≠ (b - pre) / 2) := by
  rw [PairDiffers, PairDiffers, flipBit_getD hb, flipBit_getD hb]
  by_cases hm : m = (b - pre) / 2
  · have hone : decide (pre + 2 * m + 1 = b) = !decide (pre + 2 * m = b) := by
      rw [← decide_not]
      exact decide_eq_decide.2 (by omega)
    rw [hone]
    simp [hm]
  · rw [decide_eq_false (show ¬ pre + 2 * m = b by omega), decide_eq_false (show ¬ pre + 2 * m + 1 = b by omega)]
    simp [hm]

/-- A sequence with both symbols of pair `j` inverted. -/
def flipPair (f : List Bool) (pre j : Nat) : List Bool := flipBit (flipBit f (pre + 2 * j)) (pre + 2 * j + 1)

@[simp] theorem flipPair_length (f : List Bool) (pre j : Nat) : (flipPair f pre j).length = f.length := by
  simp [flipPair]

section FlipPair

variable {f : List Bool} {pre j : Nat} (hj : pre + 2 * j + 1 < f.length)
include hj

theorem flipPair_getD {k : Nat} (hk : pre ≤ k) :
    (flipPair f pre j).getD k false = (f.getD k false ^^ decide ((k - pre) / 2 = j)) := by
  rw [flipPair, flipBit_getD (by simpa), flipBit_getD (by omega), Bool.xor_assoc]
  congr 1
  by_cases hpair : (k - pre) / 2 = j
  · have hother : decide (k = pre + 2 * j + 1) = !decide (k = pre + 2 * j) := by
      rw [← decide_not]
      exact decide_eq_decide.2 (by omega)
    rw [hother, decide_eq_true hpair, Bool.xor_not_self]
  · rw [decide_eq_false hpair, decide_eq_false (show ¬ k = pre + 2 * j by omega),
      decide_eq_false (show ¬ k = pre + 2 * j + 1 by omega), Bool.xor_self]

/-- Flipping both symbols of a pair leaves the legal pairs legal. -/
theorem pairDiffers_flipPair_iff (m : Nat) : PairDiffers (flipPair f pre j) pre m ↔ PairDiffers f pre m := by
  rw [PairDiffers, flipPair_getD hj (by omega), flipPair_getD hj (by omega),
    show (pre + 2 * m + 1 - pre) / 2 = (pre + 2 * m - pre) / 2 by omega, PairDiffers, ne_eq, Bool.xor_left_inj]

/-- Flipping both symbols of a pair flips that pair's bit. -/
theorem firstSymbols_flipPair {n : Nat} (inv : Bool) (hn : j < n) :
    firstSymbols (flipPair f pre j) pre n inv = flipBit (firstSymbols f pre n inv) j := by
  refine eq_of_getD_eq (by simp) fun m hm => ?_
  rw [firstSymbols_length] at hm
  rw [firstSymbols_getD _ _ _ hm, flipPair_getD hj (by omega), show (pre + 2 * m - pre) / 2 = m by omega,
    flipBit_getD (by simpa), firstSymbols_getD _ _ _ hm, Bool.xor_right_comm]

end FlipPair

/-- Settles O34: the region stays inside the frame; one flipped symbol makes its pair the only illegal one, two of
a pair leave all legal. -/
theorem symbolErrorDetected : Obligations.SymbolErrorDetected := by
  intro pre nout s t d h hok
  obtain ⟨hfit, hall, rfl⟩ := manchesterIntoMb_ok h hok
  refine ⟨fun b hpre hb => ?_, fun j hj => ?_⟩
  · have hlt : b < s.fb.length := by omega
    refine manchesterIntoMb_of_violation false (by simpa) (j := (b - pre.toNat) / 2) (by omega) ?_ fun m hm => ?_
    · rw [pairDiffers_flipBit_iff hpre hlt]
      simpa using hall _ (by omega)
    · rw [pairDiffers_flipBit_iff hpre hlt]
      exact iff_of_true (hall m (by omega)) hm.ne
  · have hlt : pre.toNat + 2 * j + 1 < s.fb.length := by omega
    intro fb'
    rw [show fb' = flipPair s.fb pre.toNat j from rfl, ← firstSymbols_flipPair hlt false hj]
    exact manchesterIntoMb_of_legal false (by simpa) fun m hm => (pairDiffers_flipPair_iff hlt m).2 (hall m hm)

end Sys2Proof.Machine
end

section
/-! PROOFS of the family 43_variant_decoders.md (1): what the three decoders share. A decoder reads byte-aligned
payloads and fields at fixed offsets; its command writes RES whole (R211, R213, R214). -/

namespace Sys2Proof.Machine

/-! ## Payload bytes and fields of a frame -/

/-- A packed byte depends on its own eight bits only. -/
theorem packByte_congr {l m : List Bool} {j : Nat}
    (h : ∀ t, t < 8 → l.getD (8 * j + t) false = m.getD (8 * j + t) false) : packByte l j = packByte m j := by
  unfold packByte
  congr 2
  exact List.map_congr_left fun t ht => h t (List.mem_range.1 ht)

/-- The all-zero test on the bytes of a payload, on its bits (R211). -/
theorem allZero_packBytes_iff {l : List Bool} {n : Nat} (h : l.length = n) :
    allZero (packBytes l) = true ↔ l = List.replicate n false := by
  rw [allZero_packBytes, eq_replicate_false_iff h]

/-- The value of a field at its offset. -/
theorem valAt_append_fieldBits {w : Nat} (a c : List Bool) (x : BitVec w) {off : Nat} (hoff : a.length = off) :
    valAt (a ++ fieldBits x ++ c) off w = x.toNat := by
  have hslice : slice (a ++ fieldBits x ++ c) off w = fieldBits x := by
    simpa [hoff] using slice_append a (fieldBits x) c
  rw [valAt, hslice, val_fieldBits]

/-! ## DECC, DECX and DECM as their decoders' outcomes -/

theorem exec_decc (s : State) : exec .decc s = decodeIntoRes s (decodeClassic Config.params s.fb) := rfl

theorem exec_decx (s : State) : exec .decx s = decodeIntoRes s (decodeExt Config.params s.fb) := rfl

theorem exec_decm (s : State) : exec .decm s = decodeIntoRes s (decodeMan Config.params s.fb) := rfl

/-- The command of a decoder that accepts its frame. -/
theorem decodeIntoRes_of_ok {s : State} {x : Except FailKind Reading} {r : Reading} (h : x = .ok r) :
    decodeIntoRes s x = .next { s with res := r, rsp := some ⟨.ok, r.id⟩ } := by
  rw [h]
  rfl

/-- The command of a decoder that refuses its frame. -/
theorem decodeIntoRes_of_error {s : State} {x : Except FailKind Reading} {k : FailKind} (h : x = .error k) :
    decodeIntoRes s x = .next { s with res := Reading.zero, rsp := some ⟨failCode k, 0⟩ } := by
  rw [h]
  rfl

/-- A decode that leaves a reading in RES is one that its decoder accepted. -/
theorem decodeIntoRes_valid {s t : State} {x : Except FailKind Reading} (h : decodeIntoRes s x = .next t)
    (hv : t.res.valid = true) : ∃ r, x = .ok r ∧ t = { s with res := r, rsp := some ⟨.ok, r.id⟩ } := by
  cases x with
  | ok r =>
    cases h
    exact ⟨r, rfl, rfl⟩
  | error k =>
    cases h
    cases hv

end Sys2Proof.Machine
end

section
/-! PROOFS of the family 43_variant_decoders.md (2): DECC. A payload is accepted when the CRC over all of its eight
bytes is 0, so a flipped bit shows in whichever byte it stands (R211 to R218). -/

namespace Sys2Proof.Machine

/-! ## The payload of a classic frame (R216) -/

/-- The 64 bits after the sync nibble. -/
def classicBits (f : List Bool) : List Bool := slice f 4 64

theorem classicBits_length {f : List Bool} (h : f.length = 68) : (classicBits f).length = 64 := by
  simp [classicBits, h]

theorem classicBits_append (sync : BitVec 4) {payload : List Bool} (h : payload.length = 64) :
    classicBits (fieldBits sync ++ payload) = payload := by
  simpa [classicBits, h] using slice_append (fieldBits sync) payload []

theorem classicPayload_length (flags : BitVec 12) (id : BitVec 28) (press temp crc : Byte) :
    (classicPayload flags id press temp crc).length = 64 := by
  simp [classicPayload]

/-- The payload's bytes are the seven that the CRC covers and the CRC. -/
theorem packBytes_classicPayload (flags : BitVec 12) (id : BitVec 28) (press temp crc : Byte) :
    packBytes (classicPayload flags id press temp crc) = classicData flags id press temp ++ [crc] := by
  rw [classicPayload_eq, packBytes_bitsOf]

theorem crc8_classicData_append (flags : BitVec 12) (id : BitVec 28) (press temp crc : Byte) :
    crc8 (classicData flags id press temp ++ [crc]) 7 0x07 0xF0 =
      crc8 (classicData flags id press temp) 7 0x07 0xF0 := rfl

/-- An all-zero payload carries a wrong CRC, because the seed is not 0. -/
theorem classicPayload_ne_zero {flags : BitVec 12} {id : BitVec 28} {press temp crc : Byte}
    (hcrc : crc = crc8 (classicData flags id press temp) 7 0x07 0xF0) :
    classicPayload flags id press temp crc ≠ List.replicate 64 false := by
  intro h
  have hbytes : classicData flags id press temp ++ [crc] = List.replicate 8 0 := by
    rw [← packBytes_classicPayload, h]
    decide
  have hzero : crc = 0 := congrArg (fun B : List Byte => B.getD 7 0) hbytes
  rw [← crc8_classicData_append flags id press temp crc, hbytes, hzero] at hcrc
  exact absurd hcrc (by decide +kernel)

/-! ## The decoder (R211, R212) -/

theorem decodeClassic_of_length_ne {f : List Bool} (h : f.length ≠ 68) :
    decodeClassic Config.params f = .error .abortLength := by
  rcases decodeClassic_cases Config.params f rfl (by decide) with ⟨_, e⟩ | ⟨hlen, _⟩
  · exact e
  · exact absurd hlen h

/-- On a frame of the right length the all-zero test comes first, then the CRC. -/
theorem decodeClassic_of_length {f : List Bool} (h : f.length = 68) :
    decodeClassic Config.params f =
      if classicBits f = List.replicate 64 false then .error .failSanity
      else if (packBytes (classicBits f)).getD 7 0 = crc8 (packBytes (classicBits f)) 7 0x07 0xF0 then
        .ok (classicReading Config.params f (packBytes (classicBits f)))
      else .error .failMic := by
  have hzero := allZero_packBytes_iff (classicBits_length h)
  rcases decodeClassic_cases Config.params f rfl (by decide) with ⟨hne, _⟩ | ⟨_, P, hP, hcases⟩
  · exact absurd h hne
  · obtain rfl : P = packBytes (classicBits f) := (extract_eq_some hP).2
    rcases hcases with ⟨hz, e⟩ | ⟨hz, hcrc, e⟩ | ⟨hz, hcrc, e⟩
    · rw [e, if_pos (hzero.1 hz)]
    · rw [e, if_neg (mt hzero.2 (Bool.eq_false_iff.1 hz))]
      exact (if_neg (Ne.symm hcrc)).symm
    · rw [e, if_neg (mt hzero.2 (Bool.eq_false_iff.1 hz))]
      exact (if_pos hcrc.symm).symm

/-- An accepted frame has the right length and a CRC that matches. -/
theorem decodeClassic_eq_ok {f : List Bool} {r : Reading} (h : decodeClassic Config.params f = .ok r) :
    f.length = 68 ∧ (packBytes (classicBits f)).getD 7 0 = crc8 (packBytes (classicBits f)) 7 0x07 0xF0 := by
  by_cases hlen : f.length = 68
  · rw [decodeClassic_of_length hlen] at h
    split_ifs at h with hz hcrc
    exact ⟨hlen, hcrc⟩
  · rw [decodeClassic_of_length_ne hlen] at h
    cases h

/-- The offsets of the fields that are not whole bytes (R216). -/
theorem classicReading_params (f : List Bool) (P : List Byte) :
    classicReading Config.params f P =
      ⟨true, .classic, .crc, BitVec.ofNat 32 (valAt f 16 28), BitVec.ofNat 32 (valAt f 8 8),
        (P.getD 5 0).setWidth 10, P.getD 6 0, true, P.getD 7 0, 0, 0⟩ := rfl

section Fields

variable (sync : BitVec 4) (flags : BitVec 12) (id : BitVec 28) (press temp crc : Byte)

/-- The reading of a frame built from its fields: 8 of the 12 bits of the flags. -/
theorem classicReading_fields :
    classicReading Config.params (fieldBits sync ++ classicPayload flags id press temp crc)
        (classicData flags id press temp ++ [crc]) =
      ⟨true, .classic, .crc, BitVec.ofNat 32 id.toNat, BitVec.ofNat 32 (flags.toNat % 256),
        BitVec.ofNat 10 press.toNat, temp, true, crc, 0, 0⟩ := by
  have hflags : fieldBits flags = fieldBits (flags.extractLsb' 8 4) ++ fieldBits (flags.extractLsb' 0 8) := by
    rw [← fieldBits_split flags 0 12 4 8 8 rfl rfl, extractLsb'_whole]
  have hlow : valAt (fieldBits sync ++ classicPayload flags id press temp crc) 8 8 = flags.toNat % 256 := by
    have h := valAt_append_fieldBits (fieldBits sync ++ fieldBits (flags.extractLsb' 8 4))
      (fieldBits id ++ fieldBits press ++ fieldBits temp ++ fieldBits crc) (flags.extractLsb' 0 8) (off := 8) (by simp)
    simpa only [classicPayload, hflags, List.append_assoc, BitVec.extractLsb'_toNat, Nat.shiftRight_zero] using h
  have hid : valAt (fieldBits sync ++ classicPayload flags id press temp crc) 16 28 = id.toNat := by
    have h := valAt_append_fieldBits (fieldBits sync ++ fieldBits flags)
      (fieldBits press ++ fieldBits temp ++ fieldBits crc) id (off := 16) (by simp)
    simpa only [classicPayload, List.append_assoc] using h
  rw [classicReading_params, hid, hlow, BitVec.ofNat_toNat 10]
  rfl

/-- The outcome on a frame built from its fields. -/
theorem decodeClassic_fields :
    decodeClassic Config.params (fieldBits sync ++ classicPayload flags id press temp crc) =
      if classicPayload flags id press temp crc = List.replicate 64 false then .error .failSanity
      else if crc = crc8 (classicData flags id press temp) 7 0x07 0xF0 then
        .ok ⟨true, .classic, .crc, BitVec.ofNat 32 id.toNat, BitVec.ofNat 32 (flags.toNat % 256),
          BitVec.ofNat 10 press.toNat, temp, true, crc, 0, 0⟩
      else .error .failMic := by
  have hlen := classicPayload_length flags id press temp crc
  rw [decodeClassic_of_length (by simp [hlen]), classicBits_append sync hlen, packBytes_classicPayload,
    classicReading_fields]
  rfl

end Fields

/-- Settles O35: the payload is not all zero and its CRC matches. -/
theorem deccDecodesClassicFrame : Obligations.DeccDecodesClassicFrame := by
  intro sync flags id press temp crc s hfb hcrc
  exact decodeIntoRes_of_ok (by rw [hfb, decodeClassic_fields, if_neg (classicPayload_ne_zero hcrc), if_pos hcrc])

/-- Settles O36: each clause meets one check of the decoder and passes those before it. -/
theorem deccRefusesInOrder : Obligations.DeccRefusesInOrder := by
  intro s
  refine ⟨fun hlen => ?_, fun sync hfb => ?_, fun sync flags id press temp crc hfb hnz hcrc => ?_⟩
  · exact decodeIntoRes_of_error (decodeClassic_of_length_ne hlen)
  · have hzero : classicBits s.fb = List.replicate 64 false := hfb ▸ classicBits_append sync (by simp)
    exact decodeIntoRes_of_error (k := .failSanity) (by rw [decodeClassic_of_length (by simp [hfb]), if_pos hzero])
  · exact decodeIntoRes_of_error (k := .failMic) (by rw [hfb, decodeClassic_fields, if_neg hnz, if_neg hcrc])

/-! ## Single-bit flips (R218) -/

/-- A byte is the CRC of the bytes before it exactly when the CRC over it too is 0. -/
theorem crc8_eq_getD_iff {poly : Byte} (hp : poly.getLsbD 0 = true) {B : List Byte} {k : Nat} (hk : k < B.length)
    (init : Byte) : B.getD k 0 = crc8 B k poly init ↔ crc8 B (k + 1) poly init = 0 := by
  rw [crc8_succ B k poly init hk]
  constructor
  · intro h
    rw [h, crcByte_self]
  · intro h
    by_contra hne
    exact crcByte_ne_zero hp (Ne.symm hne) h

/-- Flipping a bit changes the byte that holds it, and no other. -/
theorem packBytes_flipBit {l : List Bool} {b : Nat} (hb : b < l.length) :
    packBytes (flipBit l b) = (packBytes l).set (b / 8) (packByte (flipBit l b) (b / 8)) := by
  refine List.ext_getElem (by simp) fun j hj _ => ?_
  rw [List.getElem_set]
  simp only [packBytes, List.getElem_map, List.getElem_range]
  split
  next hbj => rw [hbj]
  next hbj =>
    refine packByte_congr fun t ht => ?_
    rw [flipBit_getD hb, decide_eq_false (show ¬ 8 * j + t = b by omega), Bool.xor_false]

theorem packByte_flipBit_ne {l : List Bool} {b : Nat} (hb : b < l.length) :
    packByte (flipBit l b) (b / 8) ≠ (packBytes l).getD (b / 8) 0 := by
  rw [packBytes_getD]
  intro h
  have hbit := congrArg (BitVec.getLsbD · (7 - b % 8)) h
  simp only [packByte_getLsbD _ _ _ (Nat.mod_lt b (by omega)), Nat.div_add_mod, flipBit_getD hb, decide_true,
    Bool.xor_true] at hbit
  exact Bool.not_ne_self _ hbit

/-- A bit flipped in front of a slice does not show in it. -/
theorem slice_flipBit_of_lt {f : List Bool} {a b : Nat} (n : Nat) (h : b < a) :
    slice (flipBit f b) a n = slice f a n := by
  rw [slice, flipBit, List.drop_set, if_pos h, slice]

/-- A bit flipped inside a slice. -/
theorem slice_flipBit {f : List Bool} {a b n : Nat} (hb : b < f.length) (hab : a ≤ b) (hbn : b < a + n) :
    slice (flipBit f b) a n = flipBit (slice f a n) (b - a) := by
  have hlt : b - a < (slice f a n).length := by
    rw [slice_length]
    omega
  refine eq_of_getD_eq (by simp) fun t ht => ?_
  have htn : t < n := by
    rw [slice_length] at ht
    omega
  rw [slice_getD _ _ _ _ htn, flipBit_getD hb, flipBit_getD hlt, slice_getD _ _ _ _ htn]
  congr 1
  exact decide_eq_decide.2 (by omega)

/-- A payload with its CRC and one bit flipped, in the data or in the CRC, fails the check. -/
theorem crc8_flipBit_ne {l : List Bool} {b : Nat} (hlen : l.length = 64) (hb : b < 64)
    (h : (packBytes l).getD 7 0 = crc8 (packBytes l) 7 0x07 0xF0) :
    (packBytes (flipBit l b)).getD 7 0 ≠ crc8 (packBytes (flipBit l b)) 7 0x07 0xF0 := by
  have hlt : b < l.length := by omega
  have hbytes : (packBytes l).length = 8 := by rw [packBytes_length, hlen]
  rw [crc8_eq_getD_iff (by decide) (by omega)] at h
  rw [ne_eq, crc8_eq_getD_iff (by decide) (by simp [hlen]), ← h, packBytes_flipBit hlt]
  have hne := crc8_set_ne (poly := 0x07) (by decide) (by omega) (packByte_flipBit_ne hlt) 0xF0
  rwa [hbytes] at hne

/-- A flipped sync bit changes neither the outcome nor the reading. -/
theorem decodeClassic_flip_sync {f : List Bool} {b : Nat} (hlen : f.length = 68) (hb : b < 4) :
    decodeClassic Config.params (flipBit f b) = decodeClassic Config.params f := by
  have hbits : classicBits (flipBit f b) = classicBits f := slice_flipBit_of_lt 64 hb
  have hread : ∀ P, classicReading Config.params (flipBit f b) P = classicReading Config.params f P := fun P => by
    have hid : valAt (flipBit f b) 16 28 = valAt f 16 28 := congrArg val (slice_flipBit_of_lt 28 (by omega))
    have hflags : valAt (flipBit f b) 8 8 = valAt f 8 8 := congrArg val (slice_flipBit_of_lt 8 (by omega))
    rw [classicReading_params, classicReading_params, hid, hflags]
  rw [decodeClassic_of_length hlen, decodeClassic_of_length (by simpa using hlen), hbits, hread]

/-- A flipped payload bit of an accepted frame, with a bit left set. -/
theorem decodeClassic_flip_payload {f : List Bool} {r : Reading} {b : Nat} (h : decodeClassic Config.params f = .ok r)
    (h4 : 4 ≤ b) (h68 : b < 68) (hset : ∃ k, 4 ≤ k ∧ k < 68 ∧ (flipBit f b).getD k false = true) :
    decodeClassic Config.params (flipBit f b) = .error .failMic := by
  obtain ⟨hlen, hcrc⟩ := decodeClassic_eq_ok h
  have hnz : classicBits (flipBit f b) ≠ List.replicate 64 false := by
    obtain ⟨k, hk4, hk68, hk⟩ := hset
    intro hz
    rw [← Nat.add_sub_of_le hk4, ← slice_getD (n := 64) _ _ _ (by omega)] at hk
    rw [classicBits] at hz
    rw [hz, List.getD_replicate _ (by omega)] at hk
    cases hk
  have hbits : classicBits (flipBit f b) = flipBit (classicBits f) (b - 4) := slice_flipBit (by omega) h4 h68
  rw [decodeClassic_of_length (by simpa using hlen), if_neg hnz, hbits,
    if_neg (crc8_flipBit_ne (classicBits_length hlen) (by omega) hcrc)]

/-- Settles O37: the CRC shows every flip in the payload, and the sync nibble is in front of all that is read. -/
theorem deccCatchesSingleBitFlips : Obligations.DeccCatchesSingleBitFlips := by
  intro s t b h hv
  obtain ⟨r, hr, rfl⟩ := decodeIntoRes_valid h hv
  refine ⟨fun h4 h68 hset => ?_, fun hb => ?_⟩
  · exact decodeIntoRes_of_error (decodeClassic_flip_payload hr h4 h68 hset)
  · exact decodeIntoRes_of_ok ((decodeClassic_flip_sync (decodeClassic_eq_ok hr).1 hb).trans hr)

end Sys2Proof.Machine
end

section
/-! PROOFS of the family 43_variant_decoders.md (3): DECX. The first marker in the window says where the payload
stands; what stands before the marker and after the payload does not matter (R221 to R224). -/

namespace Sys2Proof.Machine

/-! ## Frames with a marker (R224) -/

/-- The manufacturer marker of the block's parameters. -/
abbrev extMarker : List Bool := markerBits Config.extMarkerHi Config.extMarkerLo

/-- The marker stands in `f` between `lead` and `tail`, inside the window, and nowhere earlier. -/
structure FirstMarker (f lead tail : List Bool) : Prop where
  frame : f = lead ++ extMarker ++ tail
  inWindow : lead.length < 161
  first : ∀ k, k < lead.length → (f.drop k).take 16 ≠ extMarker

namespace FirstMarker

variable {f lead tail : List Bool}

theorem length_eq (h : FirstMarker f lead tail) : f.length = lead.length + 16 + tail.length := by
  rw [h.frame, List.length_append, List.length_append, markerBits_length]

theorem findPattern_eq (h : FirstMarker f lead tail) :
    findPattern f Config.extMarkerHi Config.extMarkerLo 161 = some lead.length := by
  refine (findPattern_eq_some_iff f _ _ 161 _).2 ⟨h.inWindow, ?_, h.first⟩
  rw [h.frame, ← markerBits_length Config.extMarkerHi Config.extMarkerLo]
  exact slice_append lead extMarker tail

/-- The payload begins where the marker ends. -/
theorem slice_payload (h : FirstMarker f lead tail) (n : Nat) : slice f (lead.length + 16) n = tail.take n := by
  rw [slice, h.frame, List.drop_left' (by simp)]

end FirstMarker

/-! ## The payload (R221) -/

theorem extPayload_length (flags : Word) (id : BitVec 24) (press temp sum : Byte) :
    (extPayload flags id press temp sum).length = 80 := by
  simp [extPayload]

/-- The payload's bytes are the nine that the checksum covers and the checksum. -/
theorem packBytes_extPayload (flags : Word) (id : BitVec 24) (press temp sum : Byte) :
    packBytes (extPayload flags id press temp sum) = extData flags id press temp ++ [sum] := by
  rw [extPayload_eq, packBytes_bitsOf]

theorem checksum_extData_append (flags : Word) (id : BitVec 24) (press temp sum : Byte) :
    checksum (extData flags id press temp ++ [sum]) 9 =
      BitVec.ofNat 8 ((extData flags id press temp).map BitVec.toNat).sum := rfl

/-- The four bytes of a word make the word. -/
theorem append_bytes_of_word (x : Word) :
    x.extractLsb' 24 8 ++ x.extractLsb' 16 8 ++ x.extractLsb' 8 8 ++ x.extractLsb' 0 8 = x := by
  rw [BitVec.extractLsb'_append_extractLsb'_eq_extractLsb' (show 24 = 16 + 8 from rfl),
    BitVec.extractLsb'_append_extractLsb'_eq_extractLsb' (show 16 = 8 + 8 from rfl),
    BitVec.extractLsb'_append_extractLsb'_eq_extractLsb' (show 8 = 0 + 8 from rfl), extractLsb'_whole]

/-- The three bytes of an id, after a zero byte, make the id as a word. -/
theorem append_bytes_of_id (x : BitVec 24) :
    0#8 ++ x.extractLsb' 16 8 ++ x.extractLsb' 8 8 ++ x.extractLsb' 0 8 = BitVec.ofNat 32 x.toNat := by
  refine BitVec.eq_of_getLsbD_eq fun i hi => ?_
  simp only [BitVec.getLsbD_append, BitVec.getLsbD_extractLsb', BitVec.ofNat_toNat, BitVec.getLsbD_setWidth, hi]
  grind

/-- The reading of a payload built from its fields. -/
theorem extReading_fields (flags : Word) (id : BitVec 24) (press temp sum : Byte) :
    extReading (extData flags id press temp ++ [sum]) =
      ⟨true, .ext, .checksum, BitVec.ofNat 32 id.toNat, flags, BitVec.ofNat 10 press.toNat, temp, true, sum,
        0, 0⟩ := by
  rw [← append_bytes_of_id, BitVec.ofNat_toNat 10]
  conv_rhs => rw [← append_bytes_of_word flags]
  rfl

/-! ## The decoder (R211, R222) -/

section Outcomes

variable {f lead tail : List Bool}

theorem decodeExt_of_too_short (h : f.length < 80) : decodeExt Config.params f = .error .abortLength := by
  rcases decodeExt_cases Config.params f with ⟨_, e⟩ | ⟨hlen, _⟩ | ⟨hlen, _⟩
  · exact e
  · exact absurd h (Nat.not_lt.2 hlen)
  · exact absurd h (Nat.not_lt.2 hlen)

theorem decodeExt_of_no_marker (hlen : 80 ≤ f.length) (hno : ∀ k, k < 161 → (f.drop k).take 16 ≠ extMarker) :
    decodeExt Config.params f = .error .failSanity := by
  have hfind := (findPattern_eq_none_iff f Config.extMarkerHi Config.extMarkerLo 161).2 hno
  rcases decodeExt_cases Config.params f with ⟨hshort, _⟩ | ⟨_, _, e⟩ | ⟨_, k, hk, _⟩
  · exact absurd hshort (Nat.not_lt.2 hlen)
  · exact e
  · cases hfind.symm.trans hk

theorem decodeExt_of_no_room (h : FirstMarker f lead tail) (hlen : 80 ≤ f.length) (htail : tail.length < 80) :
    decodeExt Config.params f = .error .abortLength := by
  rcases decodeExt_cases Config.params f with ⟨hshort, _⟩ | ⟨_, hnone, _⟩ | ⟨_, k, hk, hcases⟩
  · exact absurd hshort (Nat.not_lt.2 hlen)
  · cases h.findPattern_eq.symm.trans hnone
  · cases h.findPattern_eq.symm.trans hk
    rcases hcases with ⟨_, e⟩ | ⟨P, hP, _⟩
    · exact e
    · have hfit : lead.length + 16 + 80 ≤ f.length := (extract_eq_some hP).1
      have hlen := h.length_eq
      omega

/-- On a payload that fits, the all-zero test comes first, then the checksum. -/
theorem decodeExt_of_payload (h : FirstMarker f lead tail) (htail : 80 ≤ tail.length) :
    decodeExt Config.params f =
      if tail.take 80 = List.replicate 80 false then .error .failSanity
      else if (packBytes (tail.take 80)).getD 9 0 = checksum (packBytes (tail.take 80)) 9 then
        .ok (extReading (packBytes (tail.take 80)))
      else .error .failMic := by
  have hzero : allZero (packBytes (tail.take 80)) = true ↔ _ := allZero_packBytes_iff (List.length_take_of_le htail)
  have hlen := h.length_eq
  rcases decodeExt_cases Config.params f with ⟨hshort, _⟩ | ⟨_, hnone, _⟩ | ⟨_, k, hk, hcases⟩
  · have hshort : f.length < 80 := hshort
    omega
  · cases h.findPattern_eq.symm.trans hnone
  · cases h.findPattern_eq.symm.trans hk
    rcases hcases with ⟨hshort, _⟩ | ⟨P, hP, hcases⟩
    · have hshort : f.length < lead.length + 16 + 80 := hshort
      omega
    · obtain rfl : P = packBytes (tail.take 80) := by
        rw [← h.slice_payload]
        exact (extract_eq_some hP).2
      rcases hcases with ⟨hz, e⟩ | ⟨hz, hsum, e⟩ | ⟨hz, hsum, e⟩
      · rw [e, if_pos (hzero.1 hz)]
      · rw [e, if_neg (mt hzero.2 (Bool.eq_false_iff.1 hz)), if_neg (Ne.symm hsum)]
      · rw [e, if_neg (mt hzero.2 (Bool.eq_false_iff.1 hz)), if_pos hsum.symm]

/-- The outcome on a payload built from its fields. -/
theorem decodeExt_fields {flags : Word} {id : BitVec 24} {press temp sum : Byte} {rest : List Bool}
    (h : FirstMarker f lead (extPayload flags id press temp sum ++ rest)) :
    decodeExt Config.params f =
      if extPayload flags id press temp sum = List.replicate 80 false then .error .failSanity
      else if sum.toNat = ((extData flags id press temp).map BitVec.toNat).sum % 256 then
        .ok ⟨true, .ext, .checksum, BitVec.ofNat 32 id.toNat, flags, BitVec.ofNat 10 press.toNat, temp, true, sum,
          0, 0⟩
      else .error .failMic := by
  have hlen := extPayload_length flags id press temp sum
  have hsum : sum = checksum (extData flags id press temp ++ [sum]) 9 ↔
      sum.toNat = ((extData flags id press temp).map BitVec.toNat).sum % 256 := by
    rw [checksum_extData_append, ← BitVec.toNat_inj, BitVec.toNat_ofNat]
  rw [decodeExt_of_payload h (by simp [hlen]), List.take_left' hlen, packBytes_extPayload, extReading_fields]
  simp only [← hsum]
  rfl

end Outcomes

/-- Settles O38: the payload stands after the first marker, is not all zero and its checksum matches. -/
theorem decxDecodesExtendedFrame : Obligations.DecxDecodesExtendedFrame := by
  intro lead tail flags id press temp sum s hfb hlead hfirst hnz hsum
  have hframe : FirstMarker s.fb lead (extPayload flags id press temp sum ++ tail) :=
    ⟨hfb.trans (List.append_assoc _ _ _), hlead, hfirst⟩
  exact decodeIntoRes_of_ok (by rw [decodeExt_fields hframe, if_neg hnz, if_pos hsum])

/-- Settles O39: each clause meets one check of the decoder and passes those before it. -/
theorem decxRefusesInOrder : Obligations.DecxRefusesInOrder := by
  intro s
  refine ⟨fun hshort => ?_, fun hlen hno => ?_, fun lead tail hlen hfb hlead hfirst => ?_⟩
  · exact decodeIntoRes_of_error (decodeExt_of_too_short hshort)
  · exact decodeIntoRes_of_error (decodeExt_of_no_marker hlen hno)
  · have hframe : FirstMarker s.fb lead tail := ⟨hfb, hlead, hfirst⟩
    refine ⟨fun htail => ?_, fun htail hzero => ?_, ?_⟩
    · exact decodeIntoRes_of_error (decodeExt_of_no_room hframe hlen htail)
    · exact decodeIntoRes_of_error (k := .failSanity) (by rw [decodeExt_of_payload hframe htail, if_pos hzero])
    · rintro flags id press temp sum rest rfl hnz hsum
      exact decodeIntoRes_of_error (k := .failMic) (by rw [decodeExt_fields hframe, if_neg hnz, if_neg hsum])

end Sys2Proof.Machine
end

section
/-! PROOFS of the family 43_variant_decoders.md (4): DECM. After the preamble the symbols are all zero, or hold an
illegal pair, or are those of 39 decoded bits (R231 to R236). -/

namespace Sys2Proof.Machine

/-! ## Symbols (R231) -/

@[simp] theorem manSymbols_cons (v : Bool) (bits : List Bool) :
    manSymbols (v :: bits) = (!v) :: v :: manSymbols bits := rfl

@[simp] theorem manSymbols_length (bits : List Bool) : (manSymbols bits).length = 2 * bits.length := by
  induction bits with
  | nil => rfl
  | cons v bits ih =>
    rw [manSymbols_cons, List.length_cons, List.length_cons, ih, List.length_cons]
    omega

/-- The pair of a decoded bit: its complement, then itself. -/
theorem manSymbols_getD {bits : List Bool} {j : Nat} (hj : j < bits.length) :
    (manSymbols bits).getD (2 * j) false = (!bits.getD j false) ∧
      (manSymbols bits).getD (2 * j + 1) false = bits.getD j false := by
  induction bits generalizing j with
  | nil => simp at hj
  | cons v bits ih =>
    cases j with
    | zero => exact ⟨rfl, rfl⟩
    | succ j => exact ih (Nat.lt_of_succ_lt_succ hj)

theorem pairDiffers_manSymbols {bits : List Bool} {j : Nat} (hj : j < bits.length) :
    PairDiffers (manSymbols bits) 0 j := by
  obtain ⟨hfst, hsnd⟩ := manSymbols_getD hj
  rw [PairDiffers, Nat.zero_add, hfst, hsnd]
  exact Bool.not_ne_self _

/-- In the variant's inverted polarity the symbols of bits decode to those bits. -/
theorem firstSymbols_manSymbols (bits : List Bool) : firstSymbols (manSymbols bits) 0 bits.length true = bits := by
  refine eq_of_getD_eq (by simp) fun j hj => ?_
  rw [firstSymbols_length] at hj
  rw [firstSymbols_getD _ _ _ hj, Nat.zero_add, (manSymbols_getD hj).1, Bool.xor_true, Bool.not_not]

/-- No pair of zero symbols is legal. -/
theorem not_pairDiffers_zeros (n j : Nat) : ¬ PairDiffers (List.replicate n false) 0 j := by
  have hzero := (eq_replicate_false_iff (List.length_replicate (n := n) (a := false))).1 rfl
  rw [PairDiffers, hzero, hzero]
  exact fun h => h rfl

/-! ## The decoder (R211, R231) -/

/-- `f` is the preamble and 78 symbols. -/
structure ManFrame (f symbols : List Bool) : Prop where
  frame : f = fieldBits Config.manPreamble ++ symbols
  length : symbols.length = 78

section Outcomes

variable {f symbols : List Bool}

theorem decodeMan_of_length_ne (h : f.length ≠ 114) : decodeMan Config.params f = .error .abortLength := by
  rcases decodeMan_cases Config.params f (by decide) with ⟨_, e⟩ | ⟨hlen, _⟩ | ⟨hlen, _⟩ | ⟨hlen, _⟩
  · exact e
  · exact absurd hlen h
  · exact absurd hlen h
  · exact absurd hlen h

/-- The preamble's value is the parameter's exactly when its bits are. -/
theorem valAt_preamble_iff (h : f.length = 114) :
    valAt f 0 36 = Config.manPreamble.toNat ↔ f.take 36 = fieldBits Config.manPreamble := by
  rw [← val_fieldBits]
  exact val_eq_iff (by simp [h])

theorem decodeMan_of_preamble_ne (hlen : f.length = 114) (h : f.take 36 ≠ fieldBits Config.manPreamble) :
    decodeMan Config.params f = .error .failSanity := by
  have hval := mt (valAt_preamble_iff hlen).1 h
  rcases decodeMan_cases Config.params f (by decide) with ⟨hne, _⟩ | ⟨_, _, e⟩ | ⟨_, hpre, _⟩ | ⟨_, hpre, _⟩
  · exact absurd hlen hne
  · exact e
  · exact absurd hpre hval
  · exact absurd hpre hval

namespace ManFrame

variable (h : ManFrame f symbols)
include h

theorem length_eq : f.length = 114 := by
  simp [h.frame, h.length]

theorem valAt_preamble : valAt f 0 36 = Config.manPreamble.toNat := by
  rw [valAt_preamble_iff h.length_eq, h.frame, List.take_left' (fieldBits_length _)]

theorem slice_symbols : slice f 36 78 = symbols := by
  rw [slice, h.frame, List.drop_left' (fieldBits_length _), List.take_of_length_le h.length.le]

theorem getD_symbols (k : Nat) : f.getD (36 + k) false = symbols.getD k false := by
  rw [h.frame, List.getD_append_right _ _ _ _ (by simp), fieldBits_length, Nat.add_sub_cancel_left]

theorem pairDiffers_iff (j : Nat) : PairDiffers f 36 j ↔ PairDiffers symbols 0 j := by
  rw [PairDiffers, PairDiffers, Nat.add_assoc, h.getD_symbols, h.getD_symbols, Nat.zero_add]

theorem firstSymbols_eq (n : Nat) (inv : Bool) : firstSymbols f 36 n inv = firstSymbols symbols 0 n inv := by
  unfold firstSymbols
  simp only [h.getD_symbols, Nat.zero_add]

/-- A Manchester decode of the symbols finds an illegal pair or decodes them all. -/
theorem manDecode_outcome :
    (∃ j, j < 39 ∧ ¬ PairDiffers symbols 0 j ∧ manDecode Config.params f 36 39 true = .violation j) ∨
    ((∀ j, j < 39 → PairDiffers symbols 0 j) ∧
      manDecode Config.params f 36 39 true = .decoded (firstSymbols symbols 0 39 true)) := by
  have hdecode := manDecode_cases Config.params f 36 39 true
  simp only [← Bool.not_eq_true, pairLegal_iff, pairBit_params, h.pairDiffers_iff] at hdecode
  rcases hdecode with ⟨hshort, _⟩ | ⟨_, j, hj, hbad, _, e⟩ | ⟨_, hall, e⟩
  · have hlen := h.length_eq
    omega
  · exact .inl ⟨j, hj, hbad, e⟩
  · exact .inr ⟨hall, e.trans (congrArg ManResult.decoded (h.firstSymbols_eq 39 true))⟩

/-- Everything the decoder can do after the preamble, in the order of its checks. -/
theorem decodeMan_outcome :
    (symbols = List.replicate 78 false ∧ decodeMan Config.params f = .error .failSanity) ∨
    (symbols ≠ List.replicate 78 false ∧ (∃ j, j < 39 ∧ ¬ PairDiffers symbols 0 j) ∧
      decodeMan Config.params f = .error .failMic) ∨
    ((∀ j, j < 39 → PairDiffers symbols 0 j) ∧
      decodeMan Config.params f =
        .ok (manReading (firstSymbols symbols 0 39 true) (packBytes (firstSymbols symbols 0 39 true)))) := by
  have hzero : (slice f 36 78).all (· == false) = true ↔ symbols = List.replicate 78 false := by
    rw [h.slice_symbols, List.eq_replicate_iff, and_iff_right h.length, List.all_eq_true]
    simp only [beq_iff_eq]
  rcases decodeMan_cases Config.params f (by decide) with
    ⟨hne, _⟩ | ⟨_, hpre, _⟩ | ⟨_, _, hz, e⟩ | ⟨_, _, hnz, ⟨j, hd, e⟩ | ⟨d, B, hd, hB, e⟩⟩
  · exact absurd h.length_eq hne
  · exact absurd h.valAt_preamble hpre
  · exact .inl ⟨hzero.1 hz, e⟩
  · rcases h.manDecode_outcome with ⟨k, hk, hbad, _⟩ | ⟨_, hdec⟩
    · exact .inr (.inl ⟨mt hzero.2 (Bool.eq_false_iff.1 hnz), ⟨k, hk, hbad⟩, e⟩)
    · cases hd.symm.trans hdec
  · rcases h.manDecode_outcome with ⟨k, _, _, hvio⟩ | ⟨hall, hdec⟩
    · cases hd.symm.trans hvio
    · cases hd.symm.trans hdec
      obtain rfl : B = packBytes (firstSymbols symbols 0 39 true) := by
        rw [(extract_eq_some hB).2]
        exact congrArg packBytes (List.take_of_length_le (firstSymbols_length symbols 0 39 true).le)
      exact .inr (.inr ⟨hall, e⟩)

theorem decodeMan_of_zero (hz : symbols = List.replicate 78 false) :
    decodeMan Config.params f = .error .failSanity := by
  rcases h.decodeMan_outcome with ⟨_, e⟩ | ⟨hnz, _⟩ | ⟨hall, _⟩
  · exact e
  · exact absurd hz hnz
  · exact absurd (hz ▸ hall 0 (by omega)) (not_pairDiffers_zeros 78 0)

theorem decodeMan_of_illegal (hnz : symbols ≠ List.replicate 78 false) {j : Nat} (hj : j < 39)
    (hbad : ¬ PairDiffers symbols 0 j) : decodeMan Config.params f = .error .failMic := by
  rcases h.decodeMan_outcome with ⟨hz, _⟩ | ⟨_, _, e⟩ | ⟨hall, _⟩
  · exact absurd hz hnz
  · exact e
  · exact absurd (hall j hj) hbad

end ManFrame

/-- The symbols of 39 bits after the preamble. -/
theorem decodeMan_manSymbols {bits : List Bool} (hbits : bits.length = 39) :
    decodeMan Config.params (fieldBits Config.manPreamble ++ manSymbols bits) =
      .ok (manReading bits (packBytes bits)) := by
  have hframe : ManFrame (fieldBits Config.manPreamble ++ manSymbols bits) (manSymbols bits) :=
    ⟨rfl, by rw [manSymbols_length, hbits]⟩
  have hlegal : ∀ j, j < 39 → PairDiffers (manSymbols bits) 0 j := fun j hj => pairDiffers_manSymbols (hbits ▸ hj)
  rcases hframe.decodeMan_outcome with ⟨hz, _⟩ | ⟨_, ⟨j, hj, hbad⟩, _⟩ | ⟨_, e⟩
  · exact absurd (hz ▸ hlegal 0 (by omega)) (not_pairDiffers_zeros 78 0)
  · exact absurd (hlegal j hj) hbad
  · rwa [← hbits, firstSymbols_manSymbols] at e

end Outcomes

/-! ## Fields (R233) -/

section Fields

variable (flags : BitVec 3) (id : BitVec 24) (press : BitVec 10) (parity : BitVec 2)

theorem manFields_length : (manFields flags id press parity).length = 39 := by
  simp [manFields]

/-- The reading of the bits of the fields. -/
theorem manReading_fields (B : List Byte) :
    manReading (manFields flags id press parity) B =
      ⟨true, .man, .unchecked, BitVec.ofNat 32 id.toNat, BitVec.ofNat 32 flags.toNat, press, 0, false, 0,
        xorFold B 5, parity⟩ := by
  have hflags : valAt (manFields flags id press parity) 0 3 = flags.toNat := by
    simpa [manFields] using
      valAt_append_fieldBits [] (fieldBits id ++ fieldBits press ++ fieldBits parity) flags (off := 0) rfl
  have hid : valAt (manFields flags id press parity) 3 24 = id.toNat := by
    simpa [manFields] using
      valAt_append_fieldBits (fieldBits flags) (fieldBits press ++ fieldBits parity) id (off := 3) (by simp)
  have hpress : valAt (manFields flags id press parity) 27 10 = press.toNat :=
    valAt_append_fieldBits (fieldBits flags ++ fieldBits id) (fieldBits parity) press (by simp)
  have hparity : valAt (manFields flags id press parity) 37 2 = parity.toNat := by
    simpa [manFields] using
      valAt_append_fieldBits (fieldBits flags ++ fieldBits id ++ fieldBits press) [] parity (off := 37) (by simp)
  simp only [manReading, hflags, hid, hpress, hparity, BitVec.ofNat_toNat, BitVec.setWidth_eq]

/-- DECM of a frame built from its fields. -/
theorem exec_decm_fields {s : State}
    (hfb : s.fb = fieldBits Config.manPreamble ++ manSymbols (manFields flags id press parity)) :
    exec .decm s = .next
      { s with
        res := ⟨true, .man, .unchecked, BitVec.ofNat 32 id.toNat, BitVec.ofNat 32 flags.toNat, press, 0, false, 0,
          xorFold (packBytes (manFields flags id press parity)) 5, parity⟩
        rsp := some ⟨.ok, BitVec.ofNat 32 id.toNat⟩ } :=
  decodeIntoRes_of_ok (by rw [hfb, decodeMan_manSymbols (manFields_length flags id press parity), manReading_fields])

end Fields

/-- Settles O40: the 39 bits decode to themselves, and each field is read where it was put. -/
theorem decmDecodesManchesterFrame : Obligations.DecmDecodesManchesterFrame := by
  intro flags id press parity s hfb
  exact ⟨_, exec_decm_fields flags id press parity hfb⟩

/-! ## The diagnostic value (R236) -/

/-- Zeros that fill the last byte do not show in the packed bytes (20_memory.md R85). -/
theorem packBytes_eq_of_padded {l : List Bool} {B : List Byte} {n : Nat} (hn : n < 8)
    (h : bitsOf B = l ++ List.replicate n false) : packBytes l = B := by
  have hlen : 8 * B.length = l.length + n := by simpa using congrArg List.length h
  have hbit : ∀ i, l.getD i false = (bitsOf B).getD i false := fun i => by
    rw [h]
    rcases Nat.lt_or_ge i l.length with hi | hi
    · rw [List.getD_append _ _ _ _ hi]
    · rw [List.getD_append_right _ _ _ _ hi, List.getD_eq_default _ _ hi,
        (eq_replicate_false_iff (List.length_replicate (n := n))).1 rfl]
  rw [← packBytes_bitsOf B, packBytes, packBytes, bitsOf_length,
    show (l.length + 7) / 8 = (8 * B.length + 7) / 8 by omega]
  exact List.map_congr_left fun j _ => packByte_congr fun t _ => hbit (8 * j + t)

theorem xorFold_five {B : List Byte} (h : B.length = 5) :
    xorFold B 5 = B.getD 0 0 ^^^ B.getD 1 0 ^^^ B.getD 2 0 ^^^ B.getD 3 0 ^^^ B.getD 4 0 := by
  rw [xorFold_succ B 4 (by omega), xorFold_succ B 3 (by omega), xorFold_succ B 2 (by omega),
    xorFold_succ B 1 (by omega), xorFold_succ B 0 (by omega), show xorFold B 0 = 0#8 from rfl, BitVec.zero_xor]

/-- Settles O41: the five bytes are the packed bits that DECM folds. -/
theorem decmDiagIsXorOfBytes : Obligations.DecmDiagIsXorOfBytes := by
  intro flags id press parity B s t hfb hB hexec
  have hlen : B.length = 5 := by
    have h := congrArg List.length hB
    rw [bitsOf_length, List.length_append, manFields_length, List.length_singleton] at h
    omega
  cases (exec_decm_fields flags id press parity hfb).symm.trans hexec
  show xorFold (packBytes (manFields flags id press parity)) 5 = _
  rw [packBytes_eq_of_padded (n := 1) (by omega) hB, xorFold_five hlen]

/-- Settles O42: each clause meets one check of the decoder and passes those before it. -/
theorem decmRefusesInOrder : Obligations.DecmRefusesInOrder := by
  intro s
  refine ⟨fun hlen => ?_, fun hlen hpre => ?_, fun hfb => ?_, fun symbols j hfb hlen hnz hj hpair => ?_⟩
  · exact decodeIntoRes_of_error (decodeMan_of_length_ne hlen)
  · exact decodeIntoRes_of_error (decodeMan_of_preamble_ne hlen hpre)
  · have hframe : ManFrame s.fb (List.replicate 78 false) := ⟨hfb, List.length_replicate⟩
    exact decodeIntoRes_of_error (hframe.decodeMan_of_zero rfl)
  · have hframe : ManFrame s.fb symbols := ⟨hfb, hlen⟩
    have hbad : ¬ PairDiffers symbols 0 j := by
      rw [PairDiffers, Nat.zero_add]
      exact not_not.2 hpair
    exact decodeIntoRes_of_error (hframe.decodeMan_of_illegal hnz hj hbad)

end Sys2Proof.Machine
end

section
/-! PROOFS of the family 44_dispatcher.md: DISP is the command of the first decoder that accepts the frame, and
the frame's length tells which decoders can (R250 to R253). -/

namespace Sys2Proof.Machine

/-! ## The answer of a decode command (R213, R214) -/

/-- The code with which a decoder's outcome is answered. -/
def answerCode : Except FailKind Reading → Code
  | .ok _ => .ok
  | .error k => failCode k

theorem answerCode_ok (r : Reading) : answerCode (.ok r) = .ok := rfl

theorem answerCode_error_ne_ok (k : FailKind) : answerCode (.error k) ≠ .ok := by
  cases k <;> decide

theorem decodeIntoRes_answer (s : State) (x : Except FailKind Reading) :
    ∃ t a, decodeIntoRes s x = .next t ∧ t.rsp = some a ∧ a.code = answerCode x := by
  cases x with
  | ok r => exact ⟨_, _, rfl, rfl, rfl⟩
  | error k => exact ⟨_, _, rfl, rfl, rfl⟩

/-- The kind numbers of NO_MATCH's data are the numbers of the decoders' codes (R250, R311). -/
theorem kindNumber_toNat (x : Except FailKind Reading) : (kindNumber x).toNat = (codeNumber (answerCode x)).toNat := by
  cases x with
  | ok r => rfl
  | error k => cases k <;> rfl

theorem noMatchData_eq (p : Params) (f : List Bool) :
    noMatchData p f = BitVec.ofNat 32
      ((codeNumber (answerCode (decodeClassic p f))).toNat + 4 * (codeNumber (answerCode (decodeExt p f))).toNat +
        16 * (codeNumber (answerCode (decodeMan p f))).toNat) := by
  have hvalue : (noMatchData p f).toNat = (kindNumber (decodeClassic p f)).toNat +
      4 * (kindNumber (decodeExt p f)).toNat + 16 * (kindNumber (decodeMan p f)).toNat := by
    simp only [noMatchData, toNat_append_eq_add, BitVec.toNat_ofNat]
    omega
  rw [← kindNumber_toNat, ← kindNumber_toNat, ← kindNumber_toNat, ← hvalue, BitVec.ofNat_toNat, BitVec.setWidth_eq]

/-! ## The first reading (R250) -/

section FirstReading

variable {p : Params} {f : List Bool} {v : Variant} {vs : List Variant}

theorem firstReading_cons_of_ok {r : Reading} (h : decodeVariant p f v = .ok r) :
    firstReading p f (v :: vs) = some r := by
  rw [firstReading, h]

theorem firstReading_cons_of_error {k : FailKind} (h : decodeVariant p f v = .error k) :
    firstReading p f (v :: vs) = firstReading p f vs := by
  rw [firstReading, h]

end FirstReading

section Outcomes

variable {p : Params} {s : State}

/-- DISP is then the command of the decoder that accepts the frame (R251). -/
theorem dispatchIntoRes_of_some {r : Reading} (h : firstReading p s.fb p.dispatchOrder = some r) :
    dispatchIntoRes p s = decodeIntoRes s (.ok r) := by
  rw [dispatchIntoRes, h]
  rfl

theorem dispatchIntoRes_of_none (h : firstReading p s.fb p.dispatchOrder = none) :
    dispatchIntoRes p s = .next (respond (s.setRes .zero) .noMatch (noMatchData p s.fb)) := by
  rw [dispatchIntoRes, h]

end Outcomes

/-- DISP in terms of the three decoders, in the order of the parameters (R249, R251). -/
theorem exec_disp (s : State) :
    exec .disp s =
      if answerCode (decodeClassic Config.params s.fb) = .ok then exec .decc s
      else if answerCode (decodeExt Config.params s.fb) = .ok then exec .decx s
      else if answerCode (decodeMan Config.params s.fb) = .ok then exec .decm s
      else .next (respond (s.setRes .zero) .noMatch (noMatchData Config.params s.fb)) := by
  change dispatchIntoRes Config.params s = _
  rw [exec_decc, exec_decx, exec_decm]
  cases hc : decodeClassic Config.params s.fb with
  | ok r =>
    rw [if_pos (answerCode_ok r)]
    exact dispatchIntoRes_of_some (firstReading_cons_of_ok hc)
  | error kc =>
    have skipClassic := firstReading_cons_of_error (v := .classic) (vs := [.ext, .man]) hc
    rw [if_neg (answerCode_error_ne_ok kc)]
    cases hx : decodeExt Config.params s.fb with
    | ok r =>
      rw [if_pos (answerCode_ok r)]
      exact dispatchIntoRes_of_some (skipClassic.trans (firstReading_cons_of_ok hx))
    | error kx =>
      have skipExt := skipClassic.trans (firstReading_cons_of_error (v := .ext) (vs := [.man]) hx)
      rw [if_neg (answerCode_error_ne_ok kx)]
      cases hm : decodeMan Config.params s.fb with
      | ok r =>
        rw [if_pos (answerCode_ok r)]
        exact dispatchIntoRes_of_some (skipExt.trans (firstReading_cons_of_ok hm))
      | error km =>
        rw [if_neg (answerCode_error_ne_ok km)]
        exact dispatchIntoRes_of_none (skipExt.trans (firstReading_cons_of_error (v := .man) (vs := []) hm))

/-- Settles O43: the codes of the three decode commands say which decoder is the first to accept. -/
theorem dispTakesFirstReading : Obligations.DispTakesFirstReading := by
  refine ⟨decode_encode .disp, fun s => ?_⟩
  obtain ⟨c, rc, ec, hc, codeC⟩ := decodeIntoRes_answer s (decodeClassic Config.params s.fb)
  obtain ⟨x, rx, ex, hx, codeX⟩ := decodeIntoRes_answer s (decodeExt Config.params s.fb)
  obtain ⟨m, rm, em, hm, codeM⟩ := decodeIntoRes_answer s (decodeMan Config.params s.fb)
  refine ⟨c, x, m, rc, rx, rm, ec, ex, em, hc, hx, hm, ?_⟩
  rw [exec_disp, exec_decc, exec_decx, exec_decm, ec, ex, em, noMatchData_eq, codeC, codeX, codeM]
  simp only [apply_ite Host.Outcome.next]
  rfl

/-! ## The order of the decoders (R252) -/

/-- The decoder of the variant accepts the frame. -/
def Accepts (p : Params) (f : List Bool) (v : Variant) : Prop := ∃ r, decodeVariant p f v = .ok r

section Order

variable {p : Params} {f : List Bool}

/-- No decoder looks at the dispatch order. -/
theorem firstReading_dispatchOrder (order vs : List Variant) :
    firstReading { p with dispatchOrder := order } f vs = firstReading p f vs := by
  induction vs with
  | nil => rfl
  | cons v vs ih =>
    have hv : decodeVariant { p with dispatchOrder := order } f v = decodeVariant p f v := by cases v <;> rfl
    rw [firstReading, firstReading, hv, ih]

/-- When no two decoders accept the frame, the first reading is the only one. -/
theorem firstReading_eq_some_iff (hone : ∀ v w, Accepts p f v → Accepts p f w → v = w) {order : List Variant}
    {r : Reading} : firstReading p f order = some r ↔ ∃ v ∈ order, decodeVariant p f v = .ok r := by
  refine ⟨firstReading_eq_some, fun ⟨v, hmem, hv⟩ => ?_⟩
  cases hfirst : firstReading p f order with
  | none =>
    obtain ⟨k, hk⟩ := (firstReading_eq_none_iff p f order).1 hfirst v hmem
    cases hv.symm.trans hk
  | some r' =>
    obtain ⟨w, _, hw⟩ := firstReading_eq_some hfirst
    obtain rfl := hone v w ⟨r, hv⟩ ⟨r', hw⟩
    cases hv.symm.trans hw
    rfl

theorem firstReading_perm (hone : ∀ v w, Accepts p f v → Accepts p f w → v = w) {order order' : List Variant}
    (h : order.Perm order') : firstReading p f order = firstReading p f order' :=
  Option.ext fun r => by simp only [firstReading_eq_some_iff hone, h.mem_iff]

/-- DISP depends on the dispatch order through the first reading only. -/
theorem dispatchIntoRes_dispatchOrder {s : State} {order : List Variant}
    (h : firstReading p s.fb order = firstReading p s.fb p.dispatchOrder) :
    dispatchIntoRes { p with dispatchOrder := order } s = dispatchIntoRes p s := by
  rw [dispatchIntoRes, dispatchIntoRes, firstReading_dispatchOrder, h]
  rfl

end Order

section Lengths

variable {sync : BitVec 4} {hi lo : Byte} {preamble : BitVec 36} {f : List Bool}

theorem length_of_accepts_classic (h : Accepts (Config.withOpen sync hi lo preamble) f .classic) :
    f.length = 68 := by
  obtain ⟨r, h⟩ := h
  rcases decodeClassic_cases (Config.withOpen sync hi lo preamble) f rfl (Nat.le_refl 68) with ⟨_, e⟩ | ⟨hlen, _⟩
  · cases e.symm.trans h
  · exact hlen

theorem length_of_accepts_ext (h : Accepts (Config.withOpen sync hi lo preamble) f .ext) : 80 ≤ f.length := by
  obtain ⟨r, h⟩ := h
  rcases decodeExt_cases (Config.withOpen sync hi lo preamble) f with ⟨_, e⟩ | ⟨hlen, _⟩ | ⟨hlen, _⟩
  · cases e.symm.trans h
  · exact hlen
  · exact hlen

theorem length_of_accepts_man (h : Accepts (Config.withOpen sync hi lo preamble) f .man) : f.length = 114 := by
  obtain ⟨r, h⟩ := h
  rcases decodeMan_cases (Config.withOpen sync hi lo preamble) f (Nat.le_refl 114) with
    ⟨_, e⟩ | ⟨hlen, _⟩ | ⟨hlen, _⟩ | ⟨hlen, _⟩
  · cases e.symm.trans h
  · exact hlen
  · exact hlen
  · exact hlen

theorem not_accepts_classic_and_ext : ¬ (Accepts (Config.withOpen sync hi lo preamble) f .classic ∧
    Accepts (Config.withOpen sync hi lo preamble) f .ext) := by
  rintro ⟨hc, hx⟩
  have hclassic := length_of_accepts_classic hc
  have hext := length_of_accepts_ext hx
  omega

theorem not_accepts_classic_and_man : ¬ (Accepts (Config.withOpen sync hi lo preamble) f .classic ∧
    Accepts (Config.withOpen sync hi lo preamble) f .man) := by
  rintro ⟨hc, hm⟩
  have hclassic := length_of_accepts_classic hc
  have hman := length_of_accepts_man hm
  omega

/-- Only DECX and DECM can accept one frame. -/
theorem variant_eq_of_accepts (hboth : ¬ (Accepts (Config.withOpen sync hi lo preamble) f .ext ∧
      Accepts (Config.withOpen sync hi lo preamble) f .man)) :
    ∀ v w, Accepts (Config.withOpen sync hi lo preamble) f v → Accepts (Config.withOpen sync hi lo preamble) f w →
      v = w
  | .classic, .classic, _, _ | .ext, .ext, _, _ | .man, .man, _, _ => rfl
  | .classic, .ext, hc, hx | .ext, .classic, hx, hc => absurd ⟨hc, hx⟩ not_accepts_classic_and_ext
  | .classic, .man, hc, hm | .man, .classic, hm, hc => absurd ⟨hc, hm⟩ not_accepts_classic_and_man
  | .ext, .man, hx, hm | .man, .ext, hm, hx => absurd ⟨hx, hm⟩ hboth

/-- A frame that DECX accepts is read by DECX, as DECC, the one decoder before it, refuses it. -/
theorem dispatchIntoRes_of_ext {s : State} {r : Reading}
    (h : decodeVariant (Config.withOpen sync hi lo preamble) s.fb .ext = .ok r) :
    dispatchIntoRes (Config.withOpen sync hi lo preamble) s = decodeIntoRes s (.ok r) := by
  cases hc : decodeVariant (Config.withOpen sync hi lo preamble) s.fb .classic with
  | ok r' => exact absurd ⟨⟨r', hc⟩, ⟨r, h⟩⟩ not_accepts_classic_and_ext
  | error k =>
    exact dispatchIntoRes_of_some ((firstReading_cons_of_error hc).trans (firstReading_cons_of_ok h))

end Lengths

/-- Settles O44: by its length a frame that DECC accepts is refused by the other two. -/
theorem dispatchOrderSeldomMatters : Obligations.DispatchOrderSeldomMatters := by
  refine ⟨fun _ => rfl, fun sync hi lo preamble s => ?_⟩
  refine ⟨length_of_accepts_classic, length_of_accepts_man, length_of_accepts_ext, not_accepts_classic_and_ext,
    not_accepts_classic_and_man, fun ⟨r, hx⟩ hm => ?_, fun hboth order horder => ?_⟩
  · exact ⟨length_of_accepts_man hm, r, hx, dispatchIntoRes_of_ext hx⟩
  · exact dispatchIntoRes_dispatchOrder (firstReading_perm (variant_eq_of_accepts hboth) horder)

/-! ## QADD after NO_MATCH (R253) -/

/-- A DISP that answers NO_MATCH leaves no reading (R251). -/
theorem res_of_disp_noMatch {s t : State} {d : Word} (h : exec .disp s = .next t)
    (hrsp : t.rsp = some ⟨.noMatch, d⟩) : t.res = .zero := by
  cases effect_of_exec h with
  | disp => cases hrsp
  | dispNone => rfl

/-- Settles O45: with RES cleared, QADD finds no reading. -/
theorem noMatchQueuesNothing : Obligations.NoMatchQueuesNothing := by
  intro s t d h hrsp
  have hinvalid : ¬ t.res.valid = true := by
    rw [res_of_disp_noMatch h hrsp]
    decide
  rcases execQadd_cases t with ⟨_, e⟩ | ⟨hvalid, _⟩ | ⟨hvalid, _⟩
  · exact e
  · exact absurd hvalid hinvalid
  · exact absurd hvalid hinvalid

end Sys2Proof.Machine
end

section
/-! PROOFS of the family 45_queue.md (1): QADD and QSIZE (R261 to R265, R278). -/

namespace Sys2Proof.Machine

/-! ## The queue with the reading in it -/

/-- Where there is an entry with an id there is a first one, which is the one QADD finds. -/
theorem exists_first_of_mem_ids {id : Word} {q : List Entry} (h : id ∈ q.map Entry.id) :
    ∃ before x after, q = before ++ x :: after ∧ x.id = id ∧ ∀ y ∈ before, y.id ≠ id := by
  obtain ⟨_, _, hsplit, hfirst⟩ := List.eq_append_cons_of_mem h
  obtain ⟨before, _, rfl, rfl, hrest⟩ := List.map_eq_append_iff.1 hsplit
  obtain ⟨x, after, rfl, rfl, rfl⟩ := List.map_eq_cons_iff.1 hrest
  exact ⟨before, x, after, rfl, rfl, fun y hy hid => hfirst (List.mem_map.2 ⟨y, hy, hid⟩)⟩

theorem mem_of_addOrUpdate {p : Params} {q q' : List Entry} {e : Entry} (h : addOrUpdate p q e = some q') :
    e ∈ q' := by
  rcases addOrUpdate_cases p q e with ⟨_, _, _, _, _, _, ea⟩ | ⟨_, _, ea⟩ | ⟨_, _, ea⟩
  · cases ea.symm.trans h
    simp
  · cases ea.symm.trans h
    simp
  · cases ea.symm.trans h

/-- An entry with the fields of the reading is the one QADD makes (R262). -/
theorem eq_entryOf {e : Entry} {r : Reading} {now : Time} {interval : BitVec 16} (hid : e.id = r.id)
    (hflags : e.flags = r.flags) (hpress : e.press = r.press) (htemp : e.temp = if r.tempValid then r.temp else 0)
    (hmic : e.mic = r.mic) (hnext : e.next.toNat = (now.toNat + interval.toNat) % 2 ^ 32) (hcount : e.count = 0) :
    e = entryOf r now interval := by
  obtain ⟨id, flags, press, temp, mic, next, count⟩ := e
  have hsend : next = sendTime now interval := BitVec.eq_of_toNat_eq (hnext.trans (sendTime_toNat now interval).symm)
  simp only at hid hflags hpress htemp hmic hcount
  rw [hid, hflags, hpress, htemp, hmic, hsend, hcount]
  rfl

/-! ## What QADD leaves and answers (R263) -/

section Qadd

variable {s : State}

theorem exec_qadd_of_noReading (hv : s.res.valid = false) : exec .qadd s = .next (respond s .noReading 0) := by
  simp [exec, execQadd, hv]

theorem exec_qadd_of_addOrUpdate {q : List Entry} (hv : s.res.valid = true)
    (h : addOrUpdate Config.params s.q (entryOf s.res s.now s.interval) = some q) :
    exec .qadd s = .next (respond (s.setQ q) .ok (BitVec.ofNat 32 q.length)) := by
  simp [exec, execQadd, hv, h, State.qSize]

theorem exec_qadd_of_found {before after : List Entry} {x : Entry} (hv : s.res.valid = true)
    (hq : s.q = before ++ x :: after) (hx : x.id = s.res.id) (hb : ∀ y ∈ before, y.id ≠ s.res.id) :
    exec .qadd s = .next (respond (s.setQ (before ++ entryOf s.res s.now s.interval :: after)) .ok
      (BitVec.ofNat 32 s.q.length)) := by
  rw [exec_qadd_of_addOrUpdate hv (by rw [hq, addOrUpdate, overwrite_append hx hb]), hq]
  simp

theorem exec_qadd_of_new (hv : s.res.valid = true) (hnew : ∀ y ∈ s.q, y.id ≠ s.res.id) (hroom : s.q.length < 12) :
    exec .qadd s = .next (respond (s.setQ (s.q ++ [entryOf s.res s.now s.interval])) .ok
      (BitVec.ofNat 32 (s.q.length + 1))) := by
  have hnone := (overwrite_eq_none_iff (entryOf s.res s.now s.interval) s.q).2 hnew
  rw [exec_qadd_of_addOrUpdate hv (by rw [addOrUpdate, hnone]; exact if_pos hroom)]
  simp

theorem exec_qadd_of_full (hv : s.res.valid = true) (hnew : ∀ y ∈ s.q, y.id ≠ s.res.id) (hfull : 12 ≤ s.q.length) :
    exec .qadd s = .next (respond s .queueFull (BitVec.ofNat 32 s.q.length)) := by
  have hnone := (overwrite_eq_none_iff (entryOf s.res s.now s.interval) s.q).2 hnew
  have hadd : addOrUpdate Config.params s.q (entryOf s.res s.now s.interval) = none := by
    rw [addOrUpdate, hnone]
    exact if_neg (Nat.not_lt.2 hfull)
  simp [exec, execQadd, hv, hadd, State.qSize]

/-- A reading with a queued id is taken, whatever the length of the queue, and only its entry changes (R264). -/
theorem exec_qadd_of_mem (hv : s.res.valid = true) (hmem : s.res.id ∈ s.q.map Entry.id) :
    ∃ t, exec .qadd s = .next t ∧ t.rsp = some ⟨.ok, BitVec.ofNat 32 s.q.length⟩ ∧
      t.q.map Entry.id = s.q.map Entry.id ∧ entryOf s.res s.now s.interval ∈ t.q := by
  obtain ⟨before, x, after, hq, hx, hb⟩ := exists_first_of_mem_ids hmem
  exact ⟨_, exec_qadd_of_found hv hq hx hb, rfl, by simp [hq, hx], by simp⟩

/-- A QADD that answers OK has put the entry of the reading into the queue. -/
theorem addOrUpdate_of_qadd_ok {t : State} {d : Word} (h : exec .qadd s = .next t) (hrsp : t.rsp = some ⟨.ok, d⟩) :
    ∃ q, addOrUpdate Config.params s.q (entryOf s.res s.now s.interval) = some q ∧
      t = respond (s.setQ q) .ok (BitVec.ofNat 32 q.length) := by
  cases effect_of_exec h with
  | qadd _ q _ ha => exact ⟨q, ha, rfl⟩
  | qaddFull => cases hrsp
  | qaddNoReading => cases hrsp

end Qadd

/-- Settles O46: the fields given are those of the entry QADD makes, and the three clauses are QADD's cases. -/
theorem qaddAddsOrUpdates : Obligations.QaddAddsOrUpdates := by
  refine ⟨decode_encode .qadd, fun s e hid hflags hpress htemp hmic hnext hcount => ?_⟩
  obtain rfl := eq_entryOf hid hflags hpress htemp hmic hnext hcount
  exact ⟨exec_qadd_of_noReading, fun hv => ⟨fun _ _ _ => exec_qadd_of_found hv, exec_qadd_of_new hv,
    exec_qadd_of_full hv⟩⟩

/-- Settles O47: the second QADD finds an entry with the id, and makes its own of it. -/
theorem secondSightingUpdates : Obligations.SecondSightingUpdates := by
  intro s t d h hrsp
  obtain ⟨q, hadd, rfl⟩ := addOrUpdate_of_qadd_ok h hrsp
  refine ⟨List.mem_map.2 ⟨_, mem_of_addOrUpdate hadd, rfl⟩, fun u hmem hv hid => ?_⟩
  obtain ⟨v, hexec, hok, hids, hentry⟩ := exec_qadd_of_mem hv (hid ▸ hmem)
  have hlength : v.q.length = u.q.length := by simpa using congrArg List.length hids
  exact ⟨v, hexec, hok, hlength, hids, _, hentry, hid, rfl, sendTime_toNat u.now u.interval, rfl, rfl, rfl, rfl⟩

/-! ## Twelve ids (R265) -/

/-- New ids, as many as there is room for, are appended in their order. -/
theorem addAll_of_new (rs : List (Reading × Time)) : ∀ s : State, (∀ r ∈ rs, r.1.valid = true) →
    (s.q.map Entry.id ++ rs.map fun r => r.1.id).Nodup → s.q.length + rs.length ≤ 12 →
    ∃ t, addAll s rs = .next t ∧ t.q.map Entry.id = s.q.map Entry.id ++ rs.map (fun r => r.1.id) ∧
      (rs ≠ [] → t.rsp = some ⟨.ok, BitVec.ofNat 32 (s.q.length + rs.length)⟩) := by
  induction rs with
  | nil => exact fun s _ _ _ => ⟨s, rfl, by simp, fun h => absurd rfl h⟩
  | cons r rs ih =>
    intro s hvalid hnodup hlen
    rw [List.length_cons] at hlen
    have hnew : ∀ y ∈ s.q, y.id ≠ r.1.id := fun y hy =>
      (List.nodup_append.1 hnodup).2.2 _ (List.mem_map_of_mem hy) _ (by simp)
    obtain ⟨s', hexec, hok, hids'⟩ : ∃ s', exec .qadd { s with res := r.1, now := r.2 } = .next s' ∧
        s'.rsp = some ⟨.ok, BitVec.ofNat 32 (s.q.length + 1)⟩ ∧ s'.q.map Entry.id = s.q.map Entry.id ++ [r.1.id] :=
      ⟨_, exec_qadd_of_new (hvalid r (by simp)) hnew (by change s.q.length < 12; omega), rfl, by simp⟩
    have hlen' : s'.q.length = s.q.length + 1 := by simpa using congrArg List.length hids'
    obtain ⟨t, hadd, hids, hrsp⟩ := ih s' (fun r' hr' => hvalid r' (by simp [hr']))
      (by simpa [hids'] using hnodup) (by omega)
    refine ⟨t, (addAll_cons s rs hexec).trans hadd, by simp [hids, hids'], fun _ => ?_⟩
    cases rs with
    | nil =>
      cases hadd
      exact hok
    | cons r' rs =>
      rw [hrsp (by simp), hlen', Nat.add_assoc, Nat.add_comm 1]
      rfl

/-- Settles O48: after twelve new ids the queue is full, and QADD looks for the id first. -/
theorem thirteenthIdRejected : Obligations.ThirteenthIdRejected := by
  intro s rs hq hvalid hnodup hlen
  obtain ⟨t, hadd, hids, hrsp⟩ := addAll_of_new rs s hvalid (by simpa [hq] using hnodup) (by simpa [hq] using hlen)
  have hlength : t.q.length = rs.length := by simpa [hq] using congrArg List.length hids
  simp only [hq, List.map_nil, List.nil_append, List.length_nil, Nat.zero_add] at hids hrsp
  refine ⟨t, hadd, hids, hrsp, fun r n htwelve hv hid => ?_, fun r n htwelve hv hid => ?_⟩
  · have hnew : ∀ y ∈ t.q, y.id ≠ r.id := fun y hy he => hid (hids ▸ List.mem_map.2 ⟨y, hy, he⟩)
    have hfull : t.q.length = 12 := hlength.trans htwelve
    have hexec := exec_qadd_of_full (s := { t with res := r, now := n }) hv hnew hfull.ge
    rwa [hfull] at hexec
  · obtain ⟨u, hexec, hok, hkept, _⟩ := exec_qadd_of_mem (s := { t with res := r, now := n }) hv (hids ▸ hid)
    exact ⟨u, hexec, by rw [hok, hlength, htwelve]; rfl, hkept.trans hids⟩

/-- Settles O54: CSR 0x03 reads the same number. -/
theorem qsizeReportsEntries : Obligations.QsizeReportsEntries :=
  ⟨decode_encode .qsize, fun _ => ⟨rfl, rfl⟩⟩

end Sys2Proof.Machine
end

section
/-! PROOFS of the family 45_queue.md (2): QDUE (R270 to R273, R276). -/

namespace Sys2Proof.Machine

/-! ## The serviced entry (R270, R273) -/

theorem isDue_eq_false_iff (now : Time) (e : Entry) : isDue now e = false ↔ now.toNat < e.next.toNat := by
  rw [← Bool.not_eq_true, isDue_iff, Nat.not_le]

/-- The count goes one up, where it does not wrap (R275). -/
theorem afterService_count_toNat (now : Time) (interval : BitVec 16) {x : Entry} (h : x.count.toNat < 65535) :
    (afterService now interval x).count.toNat = x.count.toNat + 1 := by
  rw [afterService_count, BitVec.toNat_add]
  exact Nat.mod_eq_of_lt (by simpa using Nat.add_lt_add_right h 1)

theorem exceeds_afterService (now : Time) (interval : BitVec 16) (maxRetx : Byte) {x : Entry}
    (h : x.count.toNat < 65535) :
    exceeds maxRetx (afterService now interval x) = decide (maxRetx.toNat < x.count.toNat + 1) := by
  rw [exceeds, afterService_count_toNat now interval h]

/-- An entry that keeps its payload, and has the next count and the next deadline, is the one serviced. -/
theorem eq_afterService {x e : Entry} {now : Time} {interval : BitVec 16} (hx : x.count.toNat < 65535)
    (hpayload : e = { x with count := e.count, next := e.next }) (hcount : e.count.toNat = x.count.toNat + 1)
    (hnext : e.next.toNat = (now.toNat + interval.toNat) % 2 ^ 32) : e = afterService now interval x := by
  have hc : e.count = (afterService now interval x).count :=
    BitVec.eq_of_toNat_eq (hcount.trans (afterService_count_toNat now interval hx).symm)
  have hn : e.next = sendTime now interval := BitVec.eq_of_toNat_eq (hnext.trans (sendTime_toNat now interval).symm)
  rw [hpayload, hc, hn]
  rfl

/-! ## What QDUE leaves and answers (R271) -/

section Qdue

variable {s : State}

theorem exec_qdue_of_due {before after : List Entry} {x : Entry} (hq : s.q = before ++ x :: after)
    (hb : ∀ y ∈ before, isDue s.now y = false) (hx : isDue s.now x = true) :
    exec .qdue s = .next (respond
      ((s.setQ (before ++ if exceeds s.maxRetx (afterService s.now s.interval x) then after
          else afterService s.now s.interval x :: after)).setTx
        ⟨outboundFrame (afterService s.now s.interval x), x.id, sendTime s.now s.interval, x.count + 1, true,
          exceeds s.maxRetx (afterService s.now s.interval x)⟩) .ok x.id) := by
  change execQdue s = _
  rw [execQdue, hq, getNextDue_append hb hx]
  rfl

theorem exec_qdue_of_none (hnone : ∀ y ∈ s.q, isDue s.now y = false) :
    exec .qdue s = .next (respond (s.setTx .zero) .noneDue 0) := by
  change execQdue s = _
  rw [execQdue, (getNextDue_eq_none_iff s.now s.interval s.maxRetx s.q).2 hnone]

end Qdue

/-- Settles O49: the entry given is the one a service makes. -/
theorem qdueServicesFirstDue : Obligations.QdueServicesFirstDue := by
  refine ⟨decode_encode .qdue, fun s => ⟨?_, fun hlate => ?_⟩⟩
  · intro before after x e hq hlate hdue hx hpayload hcount hnext
    obtain rfl := eq_afterService hx hpayload hcount hnext
    rw [exec_qdue_of_due hq (fun y hy => (isDue_eq_false_iff s.now y).2 (hlate y hy)) ((isDue_iff s.now x).2 hdue),
      exceeds_afterService s.now s.interval s.maxRetx hx]
    simp only [decide_eq_true_eq, ← apply_ite (before ++ ·)]
    rfl
  · exact exec_qdue_of_none fun y hy => (isDue_eq_false_iff s.now y).2 (hlate y hy)

/-- Settles O53: TX_NEXT is NOW + INTERVAL, so INTERVAL is what remains. -/
theorem telemetrySecondsAreInterval : Obligations.TelemetrySecondsAreInterval := by
  intro s t d h hrsp
  cases effect_of_exec h with
  | qdueNone => cases hrsp
  | qdue _ r hd =>
    cases hrsp
    refine ⟨?_, rfl, rfl⟩
    rcases getNextDue_cases s.now s.interval s.maxRetx s.q with ⟨_, x, _, _, _, _, ed⟩ | ⟨_, ed⟩
    · cases ed.symm.trans hd
      change (sendTime s.now s.interval - s.now).toNat = s.interval.toNat
      rw [sendTime, add_sub_cancel_left]
      exact BitVec.toNat_setWidth_of_le (by decide)
    · cases ed.symm.trans hd

end Sys2Proof.Machine
end

section
/-! PROOFS of the family 45_queue.md (3): the life of an entry (R273, R274). The queue is seen as the entries that
have the id followed, which are at most one, and the others, whose places do not matter. -/

namespace Sys2Proof.Machine

/-! ## The entries that have an id, and the others -/

def ownEntries (id : Word) (q : List Entry) : List Entry := q.filter fun y => y.id = id

def otherEntries (id : Word) (q : List Entry) : List Entry := q.filter fun y => y.id ≠ id

section Views

variable {id : Word} {e x : Entry} {q before after : List Entry}

@[simp] theorem ownEntries_nil : ownEntries id [] = [] := rfl

@[simp] theorem otherEntries_nil : otherEntries id [] = [] := rfl

@[simp] theorem ownEntries_append (q q' : List Entry) :
    ownEntries id (q ++ q') = ownEntries id q ++ ownEntries id q' := List.filter_append ..

theorem ownEntries_cons_of_eq (q : List Entry) (h : x.id = id) : ownEntries id (x :: q) = x :: ownEntries id q :=
  List.filter_cons_of_pos (decide_eq_true h)

theorem ownEntries_cons_of_ne (q : List Entry) (h : x.id ≠ id) : ownEntries id (x :: q) = ownEntries id q :=
  List.filter_cons_of_neg (by simpa using h)

@[simp] theorem otherEntries_append (q q' : List Entry) :
    otherEntries id (q ++ q') = otherEntries id q ++ otherEntries id q' := List.filter_append ..

theorem otherEntries_cons_of_eq (q : List Entry) (h : x.id = id) : otherEntries id (x :: q) = otherEntries id q :=
  List.filter_cons_of_neg (by simpa using h)

theorem mem_ownEntries : e ∈ ownEntries id q ↔ e ∈ q ∧ e.id = id := by simp [ownEntries]

theorem mem_otherEntries : e ∈ otherEntries id q ↔ e ∈ q ∧ e.id ≠ id := by simp [otherEntries]

theorem ownEntries_eq_nil_iff : ownEntries id q = [] ↔ ∀ y ∈ q, y.id ≠ id := by simp [ownEntries]

theorem mem_ids_iff : id ∈ q.map Entry.id ↔ ownEntries id q ≠ [] := by simp [ownEntries_eq_nil_iff]

theorem length_eq_own_add_other (id : Word) (q : List Entry) :
    q.length = (ownEntries id q).length + (otherEntries id q).length := by
  have h := List.length_eq_length_filter_add (l := q) fun y => decide (y.id = id)
  simpa only [ownEntries, otherEntries, decide_not, ne_eq] using h

/-- The only entry with its id stands between others. -/
theorem split_of_ownEntries (h : ownEntries id q = [e]) :
    ∃ before after, q = before ++ e :: after ∧ e.id = id ∧ ownEntries id before = [] ∧ ownEntries id after = [] := by
  obtain ⟨before, after, hq, hb, he, ha⟩ := List.filter_eq_cons_iff.1 h
  exact ⟨before, after, hq, by simpa using he, ownEntries_eq_nil_iff.2 (by simpa using hb), ha⟩

end Views

/-! ## QADD begins a life -/

/-- In a queue with distinct ids the entry added or updated is the only one with its id, and the others stay. -/
theorem views_of_addOrUpdate {p : Params} {q q' : List Entry} {e : Entry} (hnodup : (q.map Entry.id).Nodup)
    (h : addOrUpdate p q e = some q') : ownEntries e.id q' = [e] ∧ otherEntries e.id q' = otherEntries e.id q := by
  rcases addOrUpdate_cases p q e with ⟨before, x, after, rfl, hx, hb, ea⟩ | ⟨hnew, _, ea⟩ | ⟨_, _, ea⟩
  · cases ea.symm.trans h
    have ha : ∀ y ∈ after, y.id ≠ e.id := by
      rw [List.map_append, List.map_cons] at hnodup
      have hafter := (List.nodup_cons.1 hnodup.of_append_right).1
      exact fun y hy hid => hafter (List.mem_map.2 ⟨y, hy, hid.trans hx.symm⟩)
    simp [ownEntries_cons_of_eq, otherEntries_cons_of_eq, hx, ownEntries_eq_nil_iff.2 hb, ownEntries_eq_nil_iff.2 ha]
  · cases ea.symm.trans h
    simp [ownEntries_cons_of_eq, otherEntries_cons_of_eq, ownEntries_eq_nil_iff.2 hnew]
  · cases ea.symm.trans h

/-! ## Polls at any times (R273) -/

/-- How a queue holds an id after `n` services: by its only entry, which has counted them, or, after the last
service MAX_RETX allows, not at all. -/
inductive Life (id : Word) (maxRetx : Byte) (q : List Entry) : Nat → Prop where
  | queued (e : Entry) (hown : ownEntries id q = [e]) (hle : e.count.toNat ≤ maxRetx.toNat) :
      Life id maxRetx q e.count.toNat
  | gone (hown : ownEntries id q = []) : Life id maxRetx q (maxRetx.toNat + 1)

section Life

variable {id : Word} {maxRetx : Byte} {q : List Entry} {n : Nat}

theorem Life.le (h : Life id maxRetx q n) : n ≤ maxRetx.toNat + 1 := by
  cases h with
  | queued e _ hle => exact Nat.le_succ_of_le hle
  | gone => exact Nat.le_refl _

theorem Life.mem_ids_iff (h : Life id maxRetx q n) : id ∈ q.map Entry.id ↔ n ≤ maxRetx.toNat := by
  rw [Machine.mem_ids_iff]
  cases h with
  | queued e hown hle => simp [hown, hle]
  | gone hown => simp [hown]

theorem Life.count_eq (h : Life id maxRetx q n) {e : Entry} (he : e ∈ q) (hid : e.id = id) : e.count.toNat = n := by
  have hmem := mem_ownEntries.2 ⟨he, hid⟩
  cases h with
  | queued x hown =>
    rw [hown, List.mem_singleton] at hmem
    rw [hmem]
  | gone hown => simp [hown] at hmem

/-- The service of an entry with the id is one more in its life. -/
theorem life_of_own_service {now : Time} {interval : BitVec 16} {before after : List Entry} {x : Entry}
    (hx : x.id = id) (h : Life id maxRetx (before ++ x :: after) n) :
    Life id maxRetx (before ++ if exceeds maxRetx (afterService now interval x) then after
      else afterService now interval x :: after) (n + 1) := by
  have hown : ownEntries id (before ++ x :: after) = ownEntries id before ++ x :: ownEntries id after := by
    rw [ownEntries_append, ownEntries_cons_of_eq after hx]
  cases h with
  | gone hnone => simp [hown] at hnone
  | queued e hone hle =>
    obtain ⟨hb, rfl, ha⟩ : ownEntries id before = [] ∧ x = e ∧ ownEntries id after = [] := by
      simpa [hown, List.append_eq_singleton_iff] using hone
    have hmax := maxRetx.isLt
    have hlt : x.count.toNat < 65535 := by omega
    rw [exceeds_afterService now interval maxRetx hlt]
    by_cases hlast : maxRetx.toNat < x.count.toNat + 1
    · rw [if_pos (decide_eq_true hlast), show x.count.toNat = maxRetx.toNat by omega]
      exact .gone (by simp [hb, ha])
    · rw [if_neg (by simpa using hlast), ← afterService_count_toNat now interval hlt]
      exact .queued _ (by simp [hb, ha, ownEntries_cons_of_eq, hx])
        (by rw [afterService_count_toNat now interval hlt]; omega)

theorem Life.of_ownEntries_eq {q' : List Entry} (h : Life id maxRetx q n) (hown : ownEntries id q' = ownEntries id q) :
    Life id maxRetx q' n := by
  cases h with
  | queued e hone hle => exact .queued e (hown.trans hone) hle
  | gone hnone => exact .gone (hown.trans hnone)

/-- The service of an entry with another id is none in this life, whether it evicts or not. -/
theorem ownEntries_of_other_service {now : Time} {interval : BitVec 16} {before after : List Entry} {x : Entry}
    (hx : x.id ≠ id) (evicted : Bool) :
    ownEntries id (before ++ if evicted then after else afterService now interval x :: after) =
      ownEntries id (before ++ x :: after) := by
  have hserviced : (afterService now interval x).id ≠ id := hx
  cases evicted <;> simp [ownEntries_cons_of_ne after hx, ownEntries_cons_of_ne after hserviced]

theorem Life.of_getNextDue {now : Time} {interval : BitVec 16} {r : Serviced} (h : Life id maxRetx q n)
    (hd : getNextDue now interval maxRetx q = some r) :
    Life id maxRetx r.queue (n + if r.entry.id = id then 1 else 0) := by
  rcases getNextDue_cases now interval maxRetx q with ⟨before, x, after, rfl, _, _, ed⟩ | ⟨_, ed⟩
  · cases ed.symm.trans hd
    by_cases hx : x.id = id
    · simpa [hx] using life_of_own_service (now := now) (interval := interval) hx h
    · simpa [hx] using h.of_ownEntries_eq (ownEntries_of_other_service (now := now) (interval := interval) hx _)
  · cases ed.symm.trans hd

end Life

/-- A QDUE is one more service in the life of the id it answers, and leaves MAX_RETX. -/
theorem life_of_exec_qdue {id : Word} {n : Nat} {s t : State} (h : Life id s.maxRetx s.q n)
    (hexec : exec .qdue s = .next t) :
    Life id t.maxRetx t.q (n + if t.rsp = some ⟨.ok, id⟩ then 1 else 0) ∧ t.maxRetx = s.maxRetx := by
  cases effect_of_exec hexec with
  | qdue _ r hd => exact ⟨by simpa using h.of_getNextDue hd, rfl⟩
  | qdueNone => exact ⟨by simpa using h, rfl⟩

theorem exists_exec_qdue (s : State) : ∃ t, exec .qdue s = .next t := by
  rcases execQdue_cases s with ⟨_, _, e⟩ | ⟨_, e⟩
  · exact ⟨_, e⟩
  · exact ⟨_, e⟩

/-- The polls that serve an id are its life. -/
theorem life_of_pollAll {id : Word} (ns : List Time) : ∀ {n : Nat} {s : State}, Life id s.maxRetx s.q n →
    ∃ u, pollAll s ns = .next u ∧ Life id u.maxRetx u.q (n + services id s ns) ∧ u.maxRetx = s.maxRetx := by
  induction ns with
  | nil =>
    intro _ s h
    exact ⟨s, rfl, h, rfl⟩
  | cons now ns ih =>
    intro n s h
    obtain ⟨t, hexec⟩ := exists_exec_qdue { s with now := now }
    obtain ⟨ht, hmax⟩ := life_of_exec_qdue (s := { s with now := now }) h hexec
    obtain ⟨u, hpoll, hu, hmax'⟩ := ih ht
    refine ⟨u, (pollAll_cons s ns hexec).trans hpoll, ?_, hmax'.trans hmax⟩
    rwa [services_cons s id ns hexec, ← Nat.add_assoc]

/-! ## Polls at the entry's own deadlines (R274) -/

theorem pollAll_concat {s u : State} {ns : List Time} (h : pollAll s ns = .next u) (n : Time) :
    pollAll s (ns ++ [n]) = exec .qdue { u with now := n } := by
  induction ns generalizing s with
  | nil =>
    cases h
    obtain ⟨t, hexec⟩ := exists_exec_qdue { u with now := n }
    rw [hexec]
    exact pollAll_cons u [] hexec
  | cons m ns ih =>
    obtain ⟨t, hexec⟩ := exists_exec_qdue { s with now := m }
    rw [pollAll_cons s ns hexec] at h
    exact (pollAll_cons s (ns ++ [n]) hexec).trans (ih h)

/-- The entry's `j`-th deadline after a QADD on `s`, counted from 0: INTERVAL after the one before. -/
def deadline (s : State) (j : Nat) : Time := s.now + BitVec.ofNat 32 ((j + 1) * s.interval.toNat)

theorem deadline_zero (s : State) : deadline s 0 = sendTime s.now s.interval := by
  simp [deadline, sendTime]

theorem deadline_succ (s : State) (j : Nat) : deadline s (j + 1) = sendTime (deadline s j) s.interval := by
  rw [deadline, deadline, sendTime, Nat.succ_mul (j + 1), BitVec.ofNat_add, ← add_assoc, BitVec.ofNat_toNat]

/-- An entry with its id to itself, that is alone due, is serviced, and nothing happens to the others. -/
theorem exec_qdue_of_own_due {id : Word} {s : State} {e : Entry} (hown : ownEntries id s.q = [e])
    (hdue : isDue s.now e = true) (hothers : ∀ y ∈ otherEntries id s.q, isDue s.now y = false) :
    ∃ t, exec .qdue s = .next t ∧ t.tx = transmitOf ⟨t.q, afterService s.now s.interval e,
        exceeds s.maxRetx (afterService s.now s.interval e)⟩ ∧
      ownEntries id t.q = (if exceeds s.maxRetx (afterService s.now s.interval e) then []
        else [afterService s.now s.interval e]) ∧
      otherEntries id t.q = otherEntries id s.q ∧ t.interval = s.interval ∧ t.maxRetx = s.maxRetx := by
  obtain ⟨before, after, hq, he, hb, ha⟩ := split_of_ownEntries hown
  have hearlier : ∀ y ∈ before, isDue s.now y = false := fun y hy =>
    hothers y (mem_otherEntries.2 ⟨by simp [hq, hy], ownEntries_eq_nil_iff.1 hb y hy⟩)
  refine ⟨_, exec_qdue_of_due hq hearlier hdue, rfl, ?_, ?_, rfl, rfl⟩
  · cases exceeds s.maxRetx (afterService s.now s.interval e) <;> simp [hb, ha, ownEntries_cons_of_eq, he]
  · cases exceeds s.maxRetx (afterService s.now s.interval e) <;> simp [hq, otherEntries_cons_of_eq, he]

/-- The entry of a QADD on `s` after `k` services, each at its deadline, with the next one ahead. -/
structure Pending (s : State) (k : Nat) (u : State) : Prop where
  own : ∃ e, ownEntries s.res.id u.q = [e] ∧ e.count.toNat = k ∧ e.next = deadline s k
  others : otherEntries s.res.id u.q = otherEntries s.res.id s.q
  interval : u.interval = s.interval
  maxRetx : u.maxRetx = s.maxRetx

/-- The state after the service at the `k`-th deadline of the entry of a QADD on `s` (R272, R273). -/
structure ServedAtDeadline (s : State) (k : Nat) (v : State) : Prop where
  valid : v.tx.valid = true
  id : v.tx.id = s.res.id
  count : v.tx.count.toNat = k + 1
  evicted : v.tx.evicted = decide (k = s.maxRetx.toNat)
  others : otherEntries s.res.id v.q = otherEntries s.res.id s.q
  own_of_last : k = s.maxRetx.toNat → ownEntries s.res.id v.q = []
  pending_of_lt : k < s.maxRetx.toNat → Pending s (k + 1) v

section Pending

variable {s u : State} {k : Nat}

/-- At the deadline ahead the entry is alone due. -/
theorem Pending.service (h : Pending s k u) (hk : k ≤ s.maxRetx.toNat)
    (hlate : ∀ y ∈ otherEntries s.res.id s.q, isDue (deadline s k) y = false) :
    ∃ v, exec .qdue { u with now := deadline s k } = .next v ∧ ServedAtDeadline s k v := by
  obtain ⟨⟨e, hown, rfl, hnext⟩, hothers, hinterval, hmaxRetx⟩ := h
  have hmax := s.maxRetx.isLt
  have hlt : e.count.toNat < 65535 := by omega
  have hid : e.id = s.res.id := (mem_ownEntries.1 (hown ▸ List.mem_singleton_self e : e ∈ ownEntries _ u.q)).2
  have hdue : isDue (deadline s e.count.toNat) e = true := (isDue_iff _ _).2 (by rw [hnext])
  obtain ⟨v, hexec, htx, hown', hothers', hinterval', hmaxRetx'⟩ :=
    exec_qdue_of_own_due (s := { u with now := deadline s e.count.toNat }) hown hdue (hothers ▸ hlate)
  simp only [hinterval, hmaxRetx] at htx hown' hinterval' hmaxRetx'
  rw [exceeds_afterService _ _ _ hlt] at htx hown'
  have hcount := afterService_count_toNat (deadline s e.count.toNat) s.interval hlt
  refine ⟨v, hexec, ?_, ?_, ?_, ?_, hothers'.trans hothers, fun hlast => ?_, fun hmore => ?_⟩
  · rw [htx]; rfl
  · rw [htx]; exact hid
  · rw [htx]; exact hcount
  · rw [htx]; exact decide_eq_decide.2 (by omega)
  · rw [hown', if_pos (decide_eq_true (by omega))]
  · refine ⟨⟨_, ?_, hcount, (deadline_succ s _).symm⟩, hothers'.trans hothers, hinterval', hmaxRetx'⟩
    rw [hown', if_neg (by simpa using hmore)]

/-- One more poll, at the deadline ahead. -/
theorem Pending.served {a : State} (h : Pending s k u) (hk : k ≤ s.maxRetx.toNat)
    (hlate : ∀ y ∈ otherEntries s.res.id s.q, isDue (deadline s k) y = false)
    (hpoll : pollAll a ((List.range k).map (deadline s)) = .next u) :
    ∃ v, pollAll a ((List.range (k + 1)).map (deadline s)) = .next v ∧ ServedAtDeadline s k v := by
  obtain ⟨v, hexec, hv⟩ := h.service hk hlate
  refine ⟨v, ?_, hv⟩
  rw [List.range_succ, List.map_append]
  exact (pollAll_concat hpoll _).trans hexec

theorem Pending.length (h : Pending s k u) : u.q.length = (otherEntries s.res.id s.q).length + 1 := by
  obtain ⟨⟨e, hown, _, _⟩, hothers, _, _⟩ := h
  rw [length_eq_own_add_other s.res.id, hown, hothers, List.length_singleton, Nat.add_comm]

theorem ServedAtDeadline.length (h : ServedAtDeadline s k u) (hk : k ≤ s.maxRetx.toNat) :
    u.q.length = if k = s.maxRetx.toNat then (otherEntries s.res.id s.q).length
      else (otherEntries s.res.id s.q).length + 1 := by
  split
  case isTrue hlast =>
    rw [length_eq_own_add_other s.res.id, h.own_of_last hlast, h.others, List.length_nil, Nat.zero_add]
  case isFalse hmore => exact (h.pending_of_lt (by omega)).length

end Pending

/-- Polled at its deadlines the entry is serviced at each, and until the last is pending again. -/
theorem served_of_pollAll {s a : State} (ha : Pending s 0 a)
    (hlate : ∀ y ∈ otherEntries s.res.id s.q, ∀ j, j ≤ s.maxRetx.toNat → isDue (deadline s j) y = false) (k : Nat)
    (hk : k ≤ s.maxRetx.toNat) :
    ∃ u, pollAll a ((List.range (k + 1)).map (deadline s)) = .next u ∧ ServedAtDeadline s k u := by
  induction k with
  | zero => exact ha.served hk (fun y hy => hlate y hy 0 hk) rfl
  | succ k ih =>
    obtain ⟨u, hpoll, hu⟩ := ih (by omega)
    exact (hu.pending_of_lt (by omega)).served hk (fun y hy => hlate y hy _ hk) hpoll

/-- Settles O51: QADD begins the life with no service, and makes the first deadline the one ahead. -/
theorem entryLivesMaxRetxPlusOne : Obligations.EntryLivesMaxRetxPlusOne := by
  intro s a d hnodup h hrsp
  obtain ⟨q, hadd, rfl⟩ := addOrUpdate_of_qadd_ok h hrsp
  obtain ⟨hown, hothers⟩ := views_of_addOrUpdate hnodup hadd
  refine ⟨fun ns => ?_, fun hlate k hk => ?_⟩
  · have hlife : Life s.res.id s.maxRetx q 0 := .queued _ hown (Nat.zero_le _)
    obtain ⟨u, hpoll, hu, hmax⟩ := life_of_pollAll ns
      (s := respond (s.setQ q) .ok (BitVec.ofNat 32 q.length)) hlife
    rw [hmax, Nat.zero_add] at hu
    exact ⟨u, hpoll, hu.le, hu.mem_ids_iff, fun e => hu.count_eq⟩
  · have hpending : Pending s 0 (respond (s.setQ q) .ok (BitVec.ofNat 32 q.length)) :=
      ⟨⟨_, hown, rfl, (deadline_zero s).symm⟩, hothers, rfl, rfl⟩
    have hnotDue : ∀ y ∈ otherEntries s.res.id s.q, ∀ j, j ≤ s.maxRetx.toNat → isDue (deadline s j) y = false := by
      intro y hy j hj
      obtain ⟨hmem, hid⟩ := mem_otherEntries.1 hy
      exact (isDue_eq_false_iff _ _).2 (hlate y hmem hid j hj)
    obtain ⟨u, hpoll, hu⟩ := served_of_pollAll hpending hnotDue k hk
    refine ⟨u, hpoll, hu.valid, hu.id, hu.count, hu.evicted, hu.others, ?_⟩
    rw [hu.length hk, hpending.length, Nat.add_sub_cancel]

end Sys2Proof.Machine
end

section
/-! PROOFS of the family 46_csr_access.md: CSRR and CSRW (R301, R303). -/

namespace Sys2Proof.Machine

/-- Settles O55: CSRR answers OK exactly where the CSR map has a value, and R93 lists the addresses where it has
none. -/
theorem csrrReadsImplemented : Obligations.CsrrReadsImplemented := by
  intro a s
  refine ⟨decode_encode (.csrr a), ?_⟩
  rw [← csrRead_eq_none_iff s a]
  rcases execCsrr_cases s a with ⟨v, hv, e⟩ | ⟨hn, e⟩
  · exact ⟨fun hn => by simp [hn] at hv, fun _ => ⟨v, hv, e⟩⟩
  · exact ⟨fun _ => e, fun h => absurd hn h⟩

/-- The low byte of imm16, as CSRW stores it in MAX_RETX (R303). -/
theorem ofNat_toNat_mod_eq_setWidth (imm : BitVec 16) : BitVec.ofNat 8 (imm.toNat % 256) = imm.setWidth 8 := by
  apply BitVec.eq_of_toNat_eq
  simp

/-- The low byte of imm16, as CSRW answers it in RSP_DATA (R303). -/
theorem ofNat_toNat_mod_eq_setWidth_setWidth (imm : BitVec 16) :
    BitVec.ofNat 32 (imm.toNat % 256) = (imm.setWidth 8).setWidth 32 := by
  rw [← BitVec.ofNat_toNat 32 (imm.setWidth 8), BitVec.toNat_setWidth]

/-- Settles O59: the two written addresses and the rest are the cases of CSRW; the values written and answered are
widths of imm16. -/
theorem csrwWritesTwoRegisters : Obligations.CsrwWritesTwoRegisters := by
  intro a imm s
  rw [BitVec.ofNat_toNat 32 imm, ofNat_toNat_mod_eq_setWidth, ofNat_toNat_mod_eq_setWidth_setWidth]
  refine ⟨decode_encode (.csrw a imm), ?_⟩
  rcases execCsrw_cases s a imm with ⟨rfl, e⟩ | ⟨rfl, e⟩ | ⟨h1, h2, e⟩
  · exact ⟨fun _ => e, fun h => absurd h (by decide), fun h => absurd rfl h⟩
  · exact ⟨fun h => absurd h (by decide), fun _ => e, fun _ h => absurd rfl h⟩
  · exact ⟨fun h => absurd h h1, fun h => absurd h h2, fun _ _ => e⟩

end Sys2Proof.Machine
end

section
/-! PROOFS of the family 60_exceptions.md: the block never stops, and a command ends with a code of its row (R310,
R312); what a failure leaves (R314). What a failing command does not write follows from the tables of R62 and R312
alone: a code that changes no state stands only in rows that write nothing on failure. -/

namespace Sys2Proof.Machine

/-! ## Every step and every command ends (R310, R312) -/

/-- Settles O10: a step changes the state itself or accepts a word, and accepting a word ends in a response. -/
theorem stepAlwaysNext : Obligations.StepAlwaysNext := by
  intro s
  rcases step_cases s with ⟨_, e⟩ | ⟨p, rest, _, e | e | e | e⟩
  · exact ⟨_, e⟩
  · exact ⟨_, e⟩
  · exact ⟨_, e⟩
  · exact ⟨_, e⟩
  · obtain ⟨t, _, _, ht⟩ := accept_nextSample s p.cmd p.now
    exact ⟨_, e.trans (ht rest)⟩

/-- The codes of a failing decoder are those the rows of DECC, DECX and DECM list after OK (R312). -/
theorem failCode_mem (k : FailKind) : failCode k ∈ [Code.abortLength, .failSanity, .failMic] := by
  cases k <;> simp [failCode]

/-- Every effect of a command answers with a code of its row (R312). -/
theorem code_mem_of_effect {i : Instr} {s t : State} (h : Effect i s t) :
    ∃ r, t.rsp = some r ∧ r.code ∈ possibleCodes i := by
  cases h with
  | deccRefused _ k | decxRefused _ k | decmRefused _ k => exact ⟨_, rfl, List.mem_cons_of_mem _ (failCode_mem k)⟩
  | _ => exact ⟨_, rfl, by simp [possibleCodes]⟩

/-- Settles O11: a command ends in one of its effects. -/
theorem everyCommandAnswersItsCodes : Obligations.EveryCommandAnswersItsCodes := by
  intro i s
  obtain ⟨t, e, h⟩ := exec_effect i s
  obtain ⟨r, hr, hcode⟩ := code_mem_of_effect h
  exact ⟨t, r, e, hr, hcode⟩

/-! ## What a failure leaves (R314) -/

/-- An effect that does not answer OK empties or zeroes whatever the command writes on failure. -/
theorem cleared_of_effect {i : Instr} {s t : State} (h : Effect i s t) (hok : ∀ x, t.rsp ≠ some ⟨.ok, x⟩) :
    ∀ d ∈ writesOnFailure i, Cleared t d := by
  cases h with
  | extfShort | extmShort | findpNone => exact List.forall_mem_singleton.2 ⟨rfl, rfl⟩
  | crc8Short | cksumShort | xorfShort | mandShort | mandIllegal | mandiShort | mandiIllegal | deccRefused
  | decxRefused | decmRefused | dispNone | qdueNone => exact List.forall_mem_singleton.2 rfl
  | fbpushRefused | qaddFull | qaddNoReading | csrrUnimplemented | csrwRefused => exact List.forall_mem_nil _
  | _ => exact absurd rfl (hok _)

theorem Write.eq_none_of_dests_eq_nil {w : Write} (h : w.dests = []) : w = .none := by
  cases w with
  | none => rfl
  | _ => simp [dests] at h

/-- The rows of R312 that list BAD_OPERAND, NO_READING or QUEUE_FULL write nothing on failure (R62). -/
theorem writesOnFailure_eq_nil_of_refusal {i : Instr} {c : Code} (hrow : c ∈ possibleCodes i)
    (hc : c ∈ [Code.badOperand, .noReading, .queueFull]) : writesOnFailure i = [] := by
  cases i with
  | fbclr | fbpush | qadd | qsize | csrr | csrw => rfl
  | _ => grind [possibleCodes]

/-- A failing command with no destination on failure changes only the response. -/
theorem eq_of_writesOnFailure_eq_nil {i : Instr} {s t : State} {r : Response} (h : exec i s = .next t)
    (hr : t.rsp = some r) (hne : r.code ≠ .ok) (hnil : writesOnFailure i = []) : t = { s with rsp := some r } := by
  obtain ⟨w, c, x, hw⟩ := exec_ends i s
  cases (hw.exec_eq s (agreeOnReads_refl s i)).symm.trans h
  obtain rfl : ⟨c, x⟩ = r := by simpa using hr
  have hdests : w.dests = [] := List.eq_nil_iff_forall_not_mem.2 fun d hd => by
    have hmem := hw.within d hd
    rw [if_neg hne, hnil] at hmem
    exact List.not_mem_nil hmem
  rw [Write.eq_none_of_dests_eq_nil hdests]
  rfl

/-- FB, Q, INTERVAL and MAX_RETX are in no row's column of failure (R62). -/
theorem not_mem_writesOnFailure (i : Instr) {d : Dest} (hd : d ∈ [Dest.fb, .q, .interval, .maxRetx]) :
    d ∉ writesOnFailure i := by
  cases i with
  | fbclr | fbpush | qadd | qsize | csrr | csrw => exact List.not_mem_nil
  | _ =>
    intro hmem
    obtain rfl := List.mem_singleton.1 hmem
    simp at hd

/-- A failing command leaves every unit that its column of failure does not name (R62). -/
theorem sameIn_of_failure {i : Instr} {s t : State} {r : Response} (h : exec i s = .next t) (hr : t.rsp = some r)
    (hne : r.code ≠ .ok) {d : Dest} (hd : d ∉ writesOnFailure i) : SameIn s t d := by
  obtain ⟨_, _, hframe⟩ := writeSetFrame i s t r h hr
  exact hframe d (by rwa [if_neg hne])

/-- Settles O14: the destinations by the effects, the rest by the tables of R62 and R312. -/
theorem failureClearsDestination : Obligations.FailureClearsDestination := by
  intro i s t r h hr hne
  have heffect := effect_of_exec h
  have hsame : ∀ d ∈ [Dest.fb, .q, .interval, .maxRetx], SameIn s t d := fun _ hd =>
    sameIn_of_failure h hr hne (not_mem_writesOnFailure i hd)
  refine ⟨cleared_of_effect heffect ?_, fun hc => ?_, hsame _ (by simp), hsame _ (by simp), hsame _ (by simp),
    hsame _ (by simp)⟩
  · intro x hx
    cases hr.symm.trans hx
    exact hne rfl
  · obtain ⟨r', hr', hrow⟩ := code_mem_of_effect heffect
    cases hr.symm.trans hr'
    exact eq_of_writesOnFailure_eq_nil h hr hne (writesOnFailure_eq_nil_of_refusal hrow hc)

end Sys2Proof.Machine
end

section
/-! PROOFS of the family 70_reset_and_hazards.md: what a host sees of the reset state (R351). -/

namespace Sys2Proof.Machine

/-! ## The registers of the reset state -/

/-- A window on an empty bit buffer reads 0 (R87, R90). -/
theorem bitWindow_nil (w : Nat) : bitWindow [] w = 0 := by
  apply BitVec.eq_of_getLsbD_eq
  intro i hi
  have hbit := bitWindow_getLsbD [] w (t := 31 - i) (by omega)
  rw [show 31 - (31 - i) = i by omega] at hbit
  simpa using hbit

/-- A window on a cleared byte buffer reads 0, beyond its end too (R86). -/
theorem byteWindow_replicate_zero (n w : Nat) : byteWindow (List.replicate n 0) w = 0 := by
  have hbyte (j : Nat) : (List.replicate n (0 : Byte)).getD j 0 = 0 := by
    rw [List.getD_eq_getElem?_getD, List.getElem?_getD_replicate_default_eq]
  simp only [byteWindow, hbyte]
  rfl

/-- From 0x40 on the reset state shows empty slots (R92). -/
theorem csrRead_reset_of_ge {a : Byte} (h : 0x40 ≤ a.toNat) (hfield : windowField a.toNat < 8) :
    csrRead State.reset a = some 0 := by
  rw [csrRead_of_ge _ h, queueWindow_of_empty (Nat.zero_le _), if_pos hfield]

/-- Every register of the reset state but INTERVAL, MAX_RETX and CAPACITY reads 0. -/
theorem csrRead_reset_eq_zero {a : Byte} (himpl : ¬ UnimplementedCsr a) (hinterval : a ≠ 0x01) (hmaxRetx : a ≠ 0x02)
    (hcapacity : a ≠ 0x09) : csrRead State.reset a = some 0 := by
  simp only [UnimplementedCsr] at himpl
  by_cases hq : 0x40 ≤ a.toNat
  · exact csrRead_reset_of_ge hq (by unfold windowField; omega)
  · unfold csrRead
    split
    case h_2 h => exact absurd (BitVec.eq_of_toNat_eq h) hinterval
    case h_3 h => exact absurd (BitVec.eq_of_toNat_eq h) hmaxRetx
    case h_10 h => exact absurd (BitVec.eq_of_toNat_eq h) hcapacity
    case h_19 =>
      split_ifs
      · exact congrArg some (byteWindow_replicate_zero 15 _)
      · exact congrArg some (byteWindow_replicate_zero 32 _)
      · exact congrArg some (bitWindow_nil _)
      · exact congrArg some (bitWindow_nil _)
      -- the addresses left are those R93 lists
      · simp only [imp_false] at *
        omega
    all_goals rfl

/-! ## The decoders and DISP with an empty FB -/

/-- No decoder accepts an empty FB: each answers its length check (R211, R222, R231). -/
theorem decodeVariant_nil (v : Variant) : decodeVariant Config.params [] v = .error .abortLength := by
  cases v with
  | classic => exact decodeClassic_of_length_ne (f := []) (by decide)
  | ext => exact decodeExt_of_too_short (by decide)
  | man => exact decodeMan_of_length_ne (f := []) (by decide)

/-- NO_MATCH's data for an empty FB: three times the number of ABORT_LENGTH (R251). -/
theorem noMatchData_nil : noMatchData Config.params [] = 0x15 := by
  have hclassic : decodeClassic Config.params [] = .error .abortLength := decodeVariant_nil .classic
  have hext : decodeExt Config.params [] = .error .abortLength := decodeVariant_nil .ext
  have hman : decodeMan Config.params [] = .error .abortLength := decodeVariant_nil .man
  rw [noMatchData, hclassic, hext, hman]
  rfl

theorem exec_disp_of_fb_nil {s : State} (hfb : s.fb = []) :
    exec .disp s = .next (respond (s.setRes .zero) .noMatch 0x15) := by
  change dispatchIntoRes Config.params s = _
  have hnone := (firstReading_eq_none_iff Config.params [] Config.params.dispatchOrder).2
    fun v _ => ⟨_, decodeVariant_nil v⟩
  rw [dispatchIntoRes_of_none (by rw [hfb, hnone]), hfb, noMatchData_nil]

/-! ## The reset state (R351) -/

/-- Settles O60. The commands that clear RES or the transmit registers leave the reset state as it is. -/
theorem resetSeenThroughCsrs : Obligations.ResetSeenThroughCsrs := by
  refine ⟨fun a himpl => ?_, fun n => ?_⟩
  · split_ifs with hinterval hmaxRetx hcapacity
    · rw [hinterval]; rfl
    · rw [hmaxRetx]; rfl
    · rw [hcapacity]; rfl
    · exact csrRead_reset_eq_zero himpl hinterval hmaxRetx hcapacity
  · simp only [List.forall_mem_cons]
    exact ⟨rfl, exec_qdue_of_none (List.forall_mem_nil _), exec_qadd_of_noReading rfl, exec_disp_of_fb_nil rfl,
      decodeIntoRes_of_error (decodeVariant_nil .classic), decodeIntoRes_of_error (decodeVariant_nil .ext),
      decodeIntoRes_of_error (decodeVariant_nil .man), List.forall_mem_nil _⟩

end Sys2Proof.Machine
end
